-- ==== Sys2Proof/Word.lean ====
section
/-!
DEFINITION. Word.lean: the widths of the unit's values (00_scope.md rules R7 and R10) and the two byte orders.
-/

namespace Sys2Proof

/-- A byte: 8 bits (rule R11). -/
abbrev Byte := BitVec 8

/-- A command word: 16 bits (rule R63, `CW_BITS` of rule R7). -/
abbrev CmdWord := BitVec 16

/-- A value of the 64-bit registers OPND, RES, NEED and HAVE (rules R25, R26, R30). -/
abbrev Word64 := BitVec 64

/-- A value of the 32-bit registers LEN and OFF (rules R21, R22). -/
abbrev Word32 := BitVec 32

/-- The two byte orders of a multi-byte type (rule R46). -/
inductive ByteOrder where
  /-- big-endian, most significant byte first -/
  | be
  /-- little-endian, least significant byte first -/
  | le
  deriving DecidableEq, Repr

end Sys2Proof
end

