-- ==== Sys2Proof/Config.lean ====
section
/-!
DEFINITION. Config.lean: the parameters of the unit, 00_scope.md rule R7.
The spec leaves no value free (93_implementation_defined.md, end of part 1), so there is no free value here.
-/

namespace Sys2Proof

/-- TIE_RULE, the tie rule of the rounded float read (rules R7, R133). -/
inductive TieRule where
  /-- half away from zero -/
  | away
  /-- half to the even integer -/
  | even
  deriving DecidableEq, Repr

/-- The parameters a model may take as arguments (rule R7). DESIGN CHOICE, safe: they stand in the machine's state,
which no step changes, so that a claim about every state covers every value of them (assumption log 8). -/
structure Config where
  /-- BUFCAP, the most bytes BUF can hold: any value from 0 to 2^32 - 1. -/
  bufcap : Fin (2 ^ 32)
  /-- TIE_RULE. -/
  tieRule : TieRule
  deriving DecidableEq, Repr

/-- The values this hardware takes (rule R7): BUFCAP = 2^32 - 1, TIE_RULE = AWAY. -/
def Config.thisHardware : Config := { bufcap := 4294967295, tieRule := .away }

/-- VAR32_MAX, the most bytes of a variable-length integer of the 32-bit domain (rule R7). -/
abbrev Config.var32Max : Nat := 5

/-- VAR64_MAX, the most bytes of a variable-length integer of the 64-bit domain (rule R7). -/
abbrev Config.var64Max : Nat := 10

end Sys2Proof
end

