-- ==== Sys2Proof/Syntax.lean ====
section
/-!
DEFINITION. Syntax.lean: the commands of 30_encoding.md rule R73, one constructor per row of opcode_table.json.
The only operand inside a command word is the precision of the two rounded reads (rule R68); OPND and PAY reach a
command through the machine's state (rules R25, R33, R69).
-/

namespace Sys2Proof

/-- The 53 commands, in the order of rule R73. -/
inductive Instr where
  | getU8
  | put8
  | getBool
  | putBool
  | getU16Be
  | getS16Be
  | getU16Le
  | getS16Le
  | put16Be
  | put16Le
  | getU24Be
  | getU24Le
  | put24Be
  | put24Le
  | getU32Be
  | getS32Be
  | getU32Le
  | getS32Le
  | put32Be
  | put32Le
  | getU64Be
  | getS64Be
  | getU64Le
  | getS64Le
  | put64Be
  | put64Le
  | getF32Be
  | getF32rBe (prec : Nat)
  | getF32Le
  | getF32rLe (prec : Nat)
  | putF32Be
  | putF32Le
  | getF64Be
  | getF64Le
  | putF64Be
  | putF64Le
  | getUv32
  | getSv32
  | putUv32
  | putSv32
  | getUv64
  | getSv64
  | putUv64
  | putSv64
  | getRaw
  | putRaw
  | getRem
  | construct
  | rewind
  | setoff
  | getoff
  | getbuf
  | feof
  deriving DecidableEq, Repr

/-- A command as the host presents it: the triple `(CW, OPND, PAY)` (rule R9). -/
structure Command where
  /-- CW, the command word -/
  cw : CmdWord
  /-- OPND, the operand -/
  opnd : Word64
  /-- PAY, the payload -/
  pay : List Byte
  deriving DecidableEq, Repr

end Sys2Proof
end

