-- ==== Sys2Proof/Machine/State.lean ====
section
/-!
DEFINITION. Machine/State.lean: the machine's state (10_state.md), what the host has pending and what it has been
answered (00_scope.md rule R9), the kinds a command can end with (60_exceptions.md rule R180), and the state after
reset (rules R34, R200).
-/

namespace Sys2Proof.Machine

/-- BUF as (address, byte) cells in one canonical form: addresses strictly rising (`Memory.wf` in Ops.lean). An address
that no cell lists reads as no value, so every listed cell differs from what an unlisted address reads as: "Addresses at
or above LEN hold nothing and cannot be read" (rule R40). -/
abbrev Memory := List Host.Cell

/-- A response: the four response registers as the command left them, and DOUT (rule R9). -/
structure Response where
  status : BitVec 3
  res : Word64
  need : Word64
  have_ : Word64
  dout : List Byte
  deriving DecidableEq, Repr

/-- What the host does at the unit's interface: it presents a command (rule R9) or causes a reset, "an event the host
can cause at any time between commands" (rule R200). -/
inductive HostEvent where
  | command (c : Command)
  | reset
  deriving DecidableEq, Repr

/-- The error kinds of a command, with the two numbers of InsufficientData (rules R180, R184). AssertionFailure is not
among them: no rule raises it (rule R182). -/
inductive Kind where
  /-- fewer bytes remain than the read needs: `need` bytes asked for, `available` remaining -/
  | insufficientData (need available : Nat)
  /-- a variable-length read met no terminating byte -/
  | malformedVarint
  /-- an argument or a command word is outside the contract -/
  | invalidArgument
  /-- an append would make LEN exceed BUFCAP -/
  | capacity
  deriving DecidableEq, Repr

/-- Why the machine stops with a fault. -/
inductive Fault where
  /-- Raised by the two reads of BUF, `Memory.readBytes` and the loop of `VarDec_W`, when BUF holds no byte at `addr`, an
  address that does not exist (rule R40). Every command checks its bounds first, so this happens only in states whose BUF
  does not hold the LEN bytes that LEN says, which no run from reset reaches. DESIGN CHOICE, safe: the machine stops
  (assumption log 6). -/
  | absentByte (addr : Nat)
  deriving DecidableEq, Repr

/-- Why the machine refuses. -/
inductive Refusal where
  /-- An instruction whose meaning is not written yet, raised by `exec` alone; no arm of `exec` answers it now. Safe. -/
  | notModelled (mnemonic : String)
  deriving DecidableEq, Repr

/-- Why a command ends before its `ok`: an error response, or the machine's fault. -/
inductive Stop where
  /-- the command ends with `raise` (rule R184) -/
  | raised (k : Kind)
  /-- the machine stops -/
  | faulted (f : Fault)
  deriving DecidableEq, Repr

/-- The machine's state: the unit's registers and buffer (10_state.md section 1), its parameters (rule R7), and its
interface with the host. -/
structure State where
  /-- BUFCAP and TIE_RULE (rule R7); no step changes them (assumption log 8) -/
  config : Config
  /-- BUF, the byte buffer (rule R20) -/
  buf : Memory
  /-- LEN, the number of bytes in BUF (rule R21) -/
  len : Word32
  /-- OFF, the cursor: the next unread byte (rule R22) -/
  off : Word32
  /-- STATUS, the outcome kind of the last command (rule R29) -/
  status : BitVec 3
  /-- RES, the result of the last command (rule R26) -/
  res : Word64
  /-- NEED, the bytes needed, on InsufficientData (rule R30) -/
  need : Word64
  /-- HAVE, the bytes available, on InsufficientData (rule R30) -/
  have_ : Word64
  /-- OPND, the operand of the command being executed (rule R25); idle value 0 between commands (assumption log 2) -/
  opnd : Word64
  /-- PAY, the payload of the command being executed (rule R33); empty between commands (assumption log 2) -/
  pay : List Byte
  /-- DOUT, the bytes of the response being made (rule R33); empty between commands (assumption log 2) -/
  dout : List Byte
  /-- the model's own: what the host does next, oldest first (rules R9, R209; assumption log 1) -/
  pending : List HostEvent
  /-- the model's own: the responses given so far, oldest first (rule R209; assumption log 3) -/
  responses : List Response
  deriving DecidableEq, Repr

/-- The machine right after reset (rules R34, R200), with the parameters this hardware takes (rule R7). OPND, PAY and
DOUT have no reset value in the spec; the model gives them their idle values (DESIGN CHOICE, assumption log 2), and
nothing is pending or answered yet (DESIGN CHOICE, assumption log 1 and 3). -/
def State.reset : State where
  config := Config.thisHardware
  buf := []
  len := 0
  off := 0
  status := 0
  res := 0
  need := 0
  have_ := 0
  opnd := 0
  pay := []
  dout := []
  pending := []
  responses := []

end Sys2Proof.Machine
end

