-- ==== Sys2Proof/Machine/Flags.lean ====
section
/-!
DEFINITION. Machine/Flags.lean: STATUS, the unit's only condition state (10_state.md rule R29), NEED and HAVE (rule R30),
and the two ways a command writes the response registers: `ok` (60_exceptions.md rule R185) and `raise` (rule R184), which
is this unit's whole "taking of an exception". There is nothing to return from (rules R188, R191).
-/

namespace Sys2Proof.Machine

/-- STATUS code 0, OK (rule R29). -/
def okCode : BitVec 3 := 0

/-- The STATUS code of an error kind (rule R29). -/
def Kind.code : Kind → BitVec 3
  | .insufficientData _ _ => 1
  | .malformedVarint => 2
  | .invalidArgument => 3
  | .capacity => 5

/-- What NEED holds after an error: the bytes asked for on InsufficientData, else 0 (rules R30, R184). -/
def Kind.needValue : Kind → Word64
  | .insufficientData need _ => BitVec.ofNat 64 need
  | .malformedVarint | .invalidArgument | .capacity => 0

/-- What HAVE holds after an error: the bytes that remained on InsufficientData, else 0 (rules R30, R184). -/
def Kind.haveValue : Kind → Word64
  | .insufficientData _ available => BitVec.ofNat 64 available
  | .malformedVarint | .invalidArgument | .capacity => 0

/-- `ok(r, d)`: the writes of a command that ends with success (rule R185). -/
def State.respondOk (s : State) (r : Word64) (d : List Byte) : State :=
  { s with status := okCode, res := r, need := 0, have_ := 0, dout := d }

/-- `raise K(x, y)`: the writes of a command that ends with an error, on the state the command started in, so that BUF,
LEN and OFF are as they were (rule R184). -/
def State.respondRaise (s : State) (k : Kind) : State :=
  { s with status := k.code, res := 0, need := k.needValue, have_ := k.haveValue, dout := [] }

end Sys2Proof.Machine
end

