-- ==== Sys2Proof/Machine/Operands.lean ====
section
/-!
DEFINITION. Machine/Operands.lean: how a command reads OPND (10_state.md rule R25), the byte-order functions
(00_scope.md rule R12) and the two extensions to RES's 64 bits (rule R10).
-/

namespace Sys2Proof.Machine

/-- OPND[8n-1:0] as a bit pattern: truncation to n bytes (rules R25, R90). -/
def State.opndBytes (s : State) (n : Nat) : BitVec (8 * n) := s.opnd.setWidth (8 * n)

/-- OPND[w-1:0] as a bit pattern, for a variable-length write of a `w`-bit domain (rules R25, R148, R152). -/
def State.opndLow (s : State) (w : Nat) : BitVec w := s.opnd.setWidth w

/-- OPND tested against zero: "zero or not zero" (rules R25, R83). -/
def State.opndTruth (s : State) : Bool := s.opnd ≠ 0

/-- OPND as a signed length, `sint(OPND)` (rules R25, R160). -/
def State.opndLength (s : State) : Int := s.opnd.toInt

/-- OPND as an unsigned offset, `uint(OPND)` (rules R25, R163, R165). -/
def State.opndOffset (s : State) : Nat := s.opnd.toNat

/-- uint of FromBE: each byte of the string is less significant than the one before it (rules R12, R90). -/
def uintBe (bs : List Byte) : Nat := bs.foldl (fun acc b => acc * 256 + b.toNat) 0

/-- FromBE of an n-byte string, an 8n-bit value (rule R12). -/
def fromBe (n : Nat) (bs : List Byte) : BitVec (8 * n) := BitVec.ofNat (8 * n) (uintBe bs)

/-- FromLE of an n-byte string, an 8n-bit value: the bytes from the last to the first (rule R12). -/
def fromLe (n : Nat) (bs : List Byte) : BitVec (8 * n) := BitVec.ofNat (8 * n) (uintBe bs.reverse)

/-- FromBE or FromLE, by the command's byte order (rules R46, R90). -/
def fromOrder (order : ByteOrder) (n : Nat) (bs : List Byte) : BitVec (8 * n) :=
  match order with
  | .be => fromBe n bs
  | .le => fromLe n bs

/-- ToLE_n: byte i of the string is bits 8i+7 down to 8i of the value (rule R12). -/
def toLe (n : Nat) (v : BitVec (8 * n)) : List Byte := (List.range n).map fun i => v.extractLsb' (8 * i) 8

/-- ToBE_n: byte i of the string is bits 8(n-i)-1 down to 8(n-1-i) of the value (rule R12). -/
def toBe (n : Nat) (v : BitVec (8 * n)) : List Byte := (List.range n).map fun i => v.extractLsb' (8 * (n - 1 - i)) 8

/-- ToBE_n or ToLE_n, by the command's byte order (rules R46, R90). -/
def toOrder (order : ByteOrder) (n : Nat) (v : BitVec (8 * n)) : List Byte :=
  match order with
  | .be => toBe n v
  | .le => toLe n v

/-- `zext_64` (rule R10). -/
def zext64 {w : Nat} (v : BitVec w) : Word64 := v.setWidth 64

/-- `sext_64` (rule R10). -/
def sext64 {w : Nat} (v : BitVec w) : Word64 := v.signExtend 64

/-- The extension a read applies to its value (rules R26, R90). -/
def extend64 {w : Nat} (signed : Bool) (v : BitVec w) : Word64 := if signed then sext64 v else zext64 v

/-- A count of bytes as a value of RES (rule R185: "an integer r stands for its 64-bit binary form"). -/
def count64 (n : Nat) : Word64 := BitVec.ofNat 64 n

end Sys2Proof.Machine
end

