-- ==== Sys2Proof/Machine/Ops.lean ====
section
/-!
DEFINITION. Machine/Ops.lean: BUF one byte at a time, the primitives MemRead, MemWrite, Take and Append (00_scope.md rule
R13; 20_memory.md rules R42, R44), and how a command ends (60_exceptions.md rules R184 to R187).
-/

namespace Sys2Proof.Machine

/-! ### BUF as cells -/

/-- The canonical form of BUF's cells: addresses strictly rising. An unlisted address reads as no value, so no cell can be
one that an unlisted address reads as. -/
abbrev Memory.wf (m : Memory) : Prop := (m.map Prod.fst).Pairwise (· < ·)

/-- The byte at an address, none where BUF holds nothing (rule R40). -/
def Memory.read : Memory → Nat → Option Byte
  | [], _ => none
  | (k, b) :: m, a => if a = k then some b else Memory.read m a

/-- BUF with a byte put at an address, in canonical form. -/
def Memory.write : Memory → Nat → Byte → Memory
  | [], a, b => [(a, b)]
  | (k, c) :: m, a, b =>
    if a < k then (a, b) :: (k, c) :: m
    else if a = k then (a, b) :: m
    else (k, c) :: Memory.write m a b

/-- BUF with a byte string put at an address: its first byte at the lowest index (rule R11). -/
def Memory.writeBytes : Memory → Nat → List Byte → Memory
  | m, _, [] => m
  | m, a, b :: bs => Memory.writeBytes (Memory.write m a b) (a + 1) bs

/-- MemRead(addr, n): the byte string BUF[addr .. addr+n) (rule R13). A byte that BUF does not hold is a fault. -/
def Memory.readBytes (m : Memory) : Nat → Nat → Except Fault (List Byte)
  | _, 0 => .ok []
  | a, n + 1 =>
    match m.read a with
    | none => .error (.absentByte a)
    | some b =>
      match Memory.readBytes m (a + 1) n with
      | .error f => .error f
      | .ok bs => .ok (b :: bs)

/-- The buffer that holds exactly a byte string, from index 0 (CONSTRUCT's `BUF <- PAY`, rule R163). -/
def Memory.ofBytes (bs : List Byte) : Memory := Memory.writeBytes [] 0 bs

/-! ### The primitives over the state -/

/-- `remaining = LEN - OFF`, the number of unread bytes (rule R41). In a state with OFF above LEN, which no run reaches
(rule R22), it is 0. -/
def State.remaining (s : State) : Nat := s.len.toNat - s.off.toNat

/-- `MemRead(addr, n)` as part of a command: a fault stops the command. -/
def memRead (s : State) (addr n : Nat) : Except Stop (List Byte) :=
  match s.buf.readBytes addr n with
  | .ok bs => .ok bs
  | .error f => .error (.faulted f)

/-- `s <- MemRead(OFF, n); OFF <- OFF + n` (rules R42, R160, R162): the bytes, and the state with OFF moved past them. -/
def readAtCursor (n : Nat) (s : State) : Except Stop (List Byte × State) :=
  match memRead s s.off.toNat n with
  | .error e => .error e
  | .ok bs => .ok (bs, { s with off := BitVec.ofNat 32 (s.off.toNat + n) })

/-- `Take(n)`, the bounds-checked read at the cursor (rule R42). -/
def take (n : Nat) (s : State) : Except Stop (List Byte × State) :=
  if s.remaining < n then .error (.raised (.insufficientData n s.remaining))
  else readAtCursor n s

/-- `Append(s)`, the capacity-checked append (rule R44). The sum is compared as a mathematical integer (rule R207). -/
def append (bs : List Byte) (s : State) : Except Stop State :=
  if s.config.bufcap.val < s.len.toNat + bs.length then .error (.raised .capacity)
  else .ok { s with
    buf := s.buf.writeBytes s.len.toNat bs
    len := BitVec.ofNat 32 (s.len.toNat + bs.length) }

/-! ### How a command ends -/

/-- A command's end: where its checks let it through, the next state its `ok` makes; where one raises, the error response
on the state it started in, every write undone (rules R14, R184, R187); where the machine faults, the fault. -/
def finish {α : Type} (s : State) (r : Except Stop α) (k : α → State) : Host.Outcome State Fault Refusal :=
  match r with
  | .ok a => .next (k a)
  | .error (.raised e) => .next (s.respondRaise e)
  | .error (.faulted f) => .fault f

/-- The common end of the writes: append the bytes, and answer how many (rules R44, R90, R185). -/
def putBytes (bs : List Byte) (s : State) : Host.Outcome State Fault Refusal :=
  finish s (append bs s) fun s1 => s1.respondOk (count64 bs.length) []

/-- A reserved command word: `raise InvalidArgument()` (rule R71). -/
def execReserved (s : State) : Host.Outcome State Fault Refusal := .next (s.respondRaise .invalidArgument)

end Sys2Proof.Machine
end

