-- ==== Sys2Proof/Machine/FixedInt.lean ====
section
/-!
DEFINITION. Machine/FixedInt.lean: the fixed-width integer commands (41_fixed_int.md): the two shared operations of rule
R90 and the 22 commands of rules R91 to R112.
-/

namespace Sys2Proof.Machine

/-- `GetFix(n, order, signed)` (rule R90): take n bytes, put them together in the byte order, extend to 64 bits. -/
def getFix (n : Nat) (order : ByteOrder) (signed : Bool) (s : State) : Host.Outcome State Fault Refusal :=
  finish s (take n s) fun p => p.2.respondOk (extend64 signed (fromOrder order n p.1)) []

/-- `PutFix(n, order)` (rule R90): the low 8n bits of OPND, in the byte order, appended. -/
def putFix (n : Nat) (order : ByteOrder) (s : State) : Host.Outcome State Fault Refusal :=
  putBytes (toOrder order n (s.opndBytes n)) s

/-- GET.U16.BE: read a big-endian unsigned 16-bit integer (rule R91). -/
def execGetU16Be (s : State) : Host.Outcome State Fault Refusal := getFix 2 .be false s

/-- GET.S16.BE: read a big-endian signed 16-bit integer (rule R92). -/
def execGetS16Be (s : State) : Host.Outcome State Fault Refusal := getFix 2 .be true s

/-- GET.U16.LE: read a little-endian unsigned 16-bit integer (rule R93). -/
def execGetU16Le (s : State) : Host.Outcome State Fault Refusal := getFix 2 .le false s

/-- GET.S16.LE: read a little-endian signed 16-bit integer (rule R94). -/
def execGetS16Le (s : State) : Host.Outcome State Fault Refusal := getFix 2 .le true s

/-- PUT.16.BE: append a 16-bit integer, big-endian (rule R95). -/
def execPut16Be (s : State) : Host.Outcome State Fault Refusal := putFix 2 .be s

/-- PUT.16.LE: append a 16-bit integer, little-endian (rule R96). -/
def execPut16Le (s : State) : Host.Outcome State Fault Refusal := putFix 2 .le s

/-- GET.U24.BE: read a big-endian unsigned 24-bit integer (rule R97). -/
def execGetU24Be (s : State) : Host.Outcome State Fault Refusal := getFix 3 .be false s

/-- GET.U24.LE: read a little-endian unsigned 24-bit integer (rule R98). -/
def execGetU24Le (s : State) : Host.Outcome State Fault Refusal := getFix 3 .le false s

/-- PUT.24.BE: append a 24-bit integer, big-endian (rule R99). -/
def execPut24Be (s : State) : Host.Outcome State Fault Refusal := putFix 3 .be s

/-- PUT.24.LE: append a 24-bit integer, little-endian (rule R100). -/
def execPut24Le (s : State) : Host.Outcome State Fault Refusal := putFix 3 .le s

/-- GET.U32.BE: read a big-endian unsigned 32-bit integer (rule R101). -/
def execGetU32Be (s : State) : Host.Outcome State Fault Refusal := getFix 4 .be false s

/-- GET.S32.BE: read a big-endian signed 32-bit integer (rule R102). -/
def execGetS32Be (s : State) : Host.Outcome State Fault Refusal := getFix 4 .be true s

/-- GET.U32.LE: read a little-endian unsigned 32-bit integer (rule R103). -/
def execGetU32Le (s : State) : Host.Outcome State Fault Refusal := getFix 4 .le false s

/-- GET.S32.LE: read a little-endian signed 32-bit integer (rule R104). -/
def execGetS32Le (s : State) : Host.Outcome State Fault Refusal := getFix 4 .le true s

/-- PUT.32.BE: append a 32-bit integer, big-endian (rule R105). -/
def execPut32Be (s : State) : Host.Outcome State Fault Refusal := putFix 4 .be s

/-- PUT.32.LE: append a 32-bit integer, little-endian (rule R106). -/
def execPut32Le (s : State) : Host.Outcome State Fault Refusal := putFix 4 .le s

/-- GET.U64.BE: read a big-endian unsigned 64-bit integer (rule R107). -/
def execGetU64Be (s : State) : Host.Outcome State Fault Refusal := getFix 8 .be false s

/-- GET.S64.BE: read a big-endian signed 64-bit integer (rule R108). -/
def execGetS64Be (s : State) : Host.Outcome State Fault Refusal := getFix 8 .be true s

/-- GET.U64.LE: read a little-endian unsigned 64-bit integer (rule R109). -/
def execGetU64Le (s : State) : Host.Outcome State Fault Refusal := getFix 8 .le false s

/-- GET.S64.LE: read a little-endian signed 64-bit integer (rule R110). -/
def execGetS64Le (s : State) : Host.Outcome State Fault Refusal := getFix 8 .le true s

/-- PUT.64.BE: append a 64-bit integer, big-endian (rule R111). -/
def execPut64Be (s : State) : Host.Outcome State Fault Refusal := putFix 8 .be s

/-- PUT.64.LE: append a 64-bit integer, little-endian (rule R112). -/
def execPut64Le (s : State) : Host.Outcome State Fault Refusal := putFix 8 .le s

end Sys2Proof.Machine
end

