-- ==== Sys2Proof/Machine/ByteBool.lean ====
section
/-!
DEFINITION. Machine/ByteBool.lean: the byte and boolean commands (40_byte_bool.md).
-/

namespace Sys2Proof.Machine

/-- GET.U8: read one byte, unsigned (rule R80). -/
def execGetU8 (s : State) : Host.Outcome State Fault Refusal :=
  finish s (take 1 s) fun p => p.2.respondOk (zext64 (fromBe 1 p.1)) []

/-- PUT.8: append OPND[7:0] (rule R81). -/
def execPut8 (s : State) : Host.Outcome State Fault Refusal := putBytes [s.opndLow 8] s

/-- GET.BOOL: read one byte; 0x00 is false, every other byte is true (rule R82). -/
def execGetBool (s : State) : Host.Outcome State Fault Refusal :=
  finish s (take 1 s) fun p => p.2.respondOk (if fromBe 1 p.1 = 0 then 0 else 1) []

/-- PUT.BOOL: append 0x00 when OPND is zero, else 0x01 (rule R83). -/
def execPutBool (s : State) : Host.Outcome State Fault Refusal := putBytes [if s.opndTruth then 0x01 else 0x00] s

end Sys2Proof.Machine
end

