-- ==== Sys2Proof/Machine/Rounding.lean ====
section
/-!
DEFINITION. Machine/Rounding.lean: the arithmetic of the rounded float read (42_float.md rules R121, R122, R133, R134).
"All arithmetic is exact, on rationals": a non-negative rational is a pair of natural numbers, numerator and (positive)
denominator, never reduced (DEDUCED, assumption log 11).
-/

namespace Sys2Proof.Machine

/-! ### binary32 (rule R121) -/

/-- The sign bit of a binary32 pattern. -/
def signBit32 (w : BitVec 32) : BitVec 1 := w.extractLsb' 31 1

/-- The exponent field of a binary32 pattern. -/
def expField32 (w : BitVec 32) : Nat := (w.extractLsb' 23 8).toNat

/-- The fraction of a binary32 pattern. -/
def fracField32 (w : BitVec 32) : Nat := (w.extractLsb' 0 23).toNat

/-- |x| of a finite pattern as numerator and denominator: `m * 2^(-149)` where the exponent field is 0, and
`(2^23 + m) * 2^(e - 150)` where it is not. -/
def magnitude32 (w : BitVec 32) : Nat × Nat :=
  if expField32 w = 0 then (fracField32 w, 2 ^ 149)
  else ((2 ^ 23 + fracField32 w) * 2 ^ (expField32 w - 150), 2 ^ (150 - expField32 w))

/-! ### Rounding to an integer (rule R133) -/

/-- `floor(y + 1/2)` of y = num/den: the nearest integer, ties up. -/
def nearestAway (num den : Nat) : Nat := (2 * num + den) / (2 * den)

/-- The integer nearest y = num/den, ties to even. -/
def nearestEven (num den : Nat) : Nat :=
  if den < 2 * (num % den) ∨ (2 * (num % den) = den ∧ num / den % 2 = 1) then num / den + 1 else num / den

/-- The integer nearest num/den under the unit's tie rule. -/
def nearest (tie : TieRule) (num den : Nat) : Nat :=
  match tie with
  | .away => nearestAway num den
  | .even => nearestEven num den

/-! ### binary64 (rules R122, R134) -/

/-- `num/den < 2^e`, for a positive denominator. -/
def belowPow2 (num den : Nat) (e : Int) : Bool :=
  num * 2 ^ (-e).toNat < den * 2 ^ e.toNat

/-- The integer E with `2^E <= num/den < 2^(E+1)`, for positive num and den (rule R134). -/
def floorLog2 (num den : Nat) : Int :=
  if belowPow2 num den ((Nat.log2 num : Int) - Nat.log2 den) then (Nat.log2 num : Int) - Nat.log2 den - 1
  else (Nat.log2 num : Int) - Nat.log2 den

/-- n of rule R134 before its carry: `t = (num/den) / 2^(E-52)` rounded to the nearest integer, ties to even. -/
def significand64 (num den : Nat) (e : Int) : Nat :=
  nearestEven (num * 2 ^ (52 - e).toNat) (den * 2 ^ (e - 52).toNat)

/-- A positive binary64 pattern from its exponent E and its significand n, `2^52 <= n < 2^53` (rule R134's return). -/
def pack64 (e : Int) (n : Nat) : Word64 :=
  (0 : BitVec 1) ++ (BitVec.ofInt 11 (e + 1023) ++ BitVec.ofNat 52 (n - 2 ^ 52))

/-- `RNE64(num/den)`: the binary64 pattern nearest a positive rational of the normal range, ties to even (rule R134).
Outside the normal range, where the rule is not used, the exponent field wraps (assumption log 12). -/
def rne64 (num den : Nat) : Word64 :=
  if significand64 num den (floorLog2 num den) = 2 ^ 53 then pack64 (floorLog2 num den + 1) (2 ^ 52)
  else pack64 (floorLog2 num den) (significand64 num den (floorLog2 num den))

/-! ### RoundDec32 (rule R133) -/

/-- A 64-bit pattern under a given sign bit: `s ++ v[62:0]`. -/
def withSign64 (sign : BitVec 1) (v : Word64) : Word64 := sign ++ v.extractLsb' 0 63

/-- The one quiet NaN of the rounded read. -/
def quietNan64 : Word64 := 0x7FF8000000000000

/-- The pattern of binary64 infinity, sign bit 0. -/
def infinity64 : Word64 := 0x7FF0000000000000

/-- q of rule R133: the magnitude of the pattern times 10^p, rounded to an integer. -/
def roundedInteger (tie : TieRule) (w : BitVec 32) (p : Nat) : Nat :=
  nearest tie ((magnitude32 w).1 * 10 ^ p) (magnitude32 w).2

/-- `RoundDec32(w, p)` (rule R133). -/
def roundDec32 (tie : TieRule) (w : BitVec 32) (p : Nat) : Word64 :=
  if expField32 w = 255 then
    if fracField32 w = 0 then withSign64 (signBit32 w) infinity64 else quietNan64
  else if roundedInteger tie w p = 0 then withSign64 (signBit32 w) 0
  else withSign64 (signBit32 w) (rne64 (roundedInteger tie w p) (10 ^ p))

end Sys2Proof.Machine
end

