-- ==== Sys2Proof/Machine/Float.lean ====
section
/-!
DEFINITION. Machine/Float.lean: the float and double commands (42_float.md). Eight of them move a bit pattern unchanged
(rule R120); two read a binary32 and round it (rules R131, R132).
-/

namespace Sys2Proof.Machine

/-- The rounded read: take four bytes, and answer `RoundDec32` of the pattern they hold (rules R131, R132). -/
def getRounded (order : ByteOrder) (prec : Nat) (s : State) : Host.Outcome State Fault Refusal :=
  finish s (take 4 s) fun p =>
    p.2.respondOk (roundDec32 s.config.tieRule (fromOrder order 4 p.1) prec) []

/-- GET.F32.BE: read a big-endian binary32 pattern (rule R123). -/
def execGetF32Be (s : State) : Host.Outcome State Fault Refusal := getFix 4 .be false s

/-- GET.F32R.BE: read a big-endian binary32 and round it to `prec` decimal digits (rule R131). -/
def execGetF32rBe (prec : Nat) (s : State) : Host.Outcome State Fault Refusal := getRounded .be prec s

/-- GET.F32.LE: read a little-endian binary32 pattern (rule R124). -/
def execGetF32Le (s : State) : Host.Outcome State Fault Refusal := getFix 4 .le false s

/-- GET.F32R.LE: read a little-endian binary32 and round it to `prec` decimal digits (rule R132). -/
def execGetF32rLe (prec : Nat) (s : State) : Host.Outcome State Fault Refusal := getRounded .le prec s

/-- PUT.F32.BE: append a binary32 pattern, big-endian (rule R125). -/
def execPutF32Be (s : State) : Host.Outcome State Fault Refusal := putFix 4 .be s

/-- PUT.F32.LE: append a binary32 pattern, little-endian (rule R126). -/
def execPutF32Le (s : State) : Host.Outcome State Fault Refusal := putFix 4 .le s

/-- GET.F64.BE: read a big-endian binary64 pattern (rule R127). -/
def execGetF64Be (s : State) : Host.Outcome State Fault Refusal := getFix 8 .be false s

/-- GET.F64.LE: read a little-endian binary64 pattern (rule R128). -/
def execGetF64Le (s : State) : Host.Outcome State Fault Refusal := getFix 8 .le false s

/-- PUT.F64.BE: append a binary64 pattern, big-endian (rule R129). -/
def execPutF64Be (s : State) : Host.Outcome State Fault Refusal := putFix 8 .be s

/-- PUT.F64.LE: append a binary64 pattern, little-endian (rule R130). -/
def execPutF64Le (s : State) : Host.Outcome State Fault Refusal := putFix 8 .le s

end Sys2Proof.Machine
end

