-- ==== Sys2Proof/Machine/Stream.lean ====
section
/-!
DEFINITION. Machine/Stream.lean: the stream commands (44_stream.md).
-/

namespace Sys2Proof.Machine

/-- The checked part of GET.RAW (rule R160): the sign test first, a length of 0 touches nothing, then the bounds. -/
def takeRaw (s : State) : Except Stop (List Byte × State) :=
  if s.opndLength < 0 then .error (.raised .invalidArgument)
  else if s.opndLength = 0 then .ok ([], s)
  else if (s.remaining : Int) < s.opndLength then
    .error (.raised (.insufficientData s.opndLength.toNat s.remaining))
  else readAtCursor s.opndLength.toNat s

/-- GET.RAW: read a byte range of the length in OPND (rule R160). -/
def execGetRaw (s : State) : Host.Outcome State Fault Refusal :=
  finish s (takeRaw s) fun p => p.2.respondOk (count64 p.1.length) p.1

/-- PUT.RAW: append PAY (rule R161). -/
def execPutRaw (s : State) : Host.Outcome State Fault Refusal := putBytes s.pay s

/-- The checked part of GET.REM (rule R162): everything from the cursor to the end, an error when nothing is left. -/
def takeRemaining (s : State) : Except Stop (List Byte × State) :=
  if s.len.toNat ≤ s.off.toNat then .error (.raised (.insufficientData 1 0))
  else readAtCursor s.remaining s

/-- GET.REM: read everything from the cursor to the end (rule R162). -/
def execGetRem (s : State) : Host.Outcome State Fault Refusal :=
  finish s (takeRemaining s) fun p => p.2.respondOk (count64 p.1.length) p.1

/-- The checked part of CONSTRUCT (rule R163): BUF, LEN and OFF replaced by PAY, its length and the operand. -/
def loadBuffer (s : State) : Except Stop State :=
  if s.pay.length < s.opndOffset then .error (.raised .invalidArgument)
  else if s.config.bufcap.val < s.pay.length then .error (.raised .capacity)
  else .ok { s with
    buf := Memory.ofBytes s.pay
    len := BitVec.ofNat 32 s.pay.length
    off := BitVec.ofNat 32 s.opndOffset }

/-- CONSTRUCT: replace the buffer and set the cursor (rule R163). -/
def execConstruct (s : State) : Host.Outcome State Fault Refusal :=
  finish s (loadBuffer s) fun s1 => s1.respondOk 0 []

/-- REWIND: set the cursor to the start (rule R164). -/
def execRewind (s : State) : Host.Outcome State Fault Refusal := .next ({ s with off := 0 }.respondOk 0 [])

/-- The checked part of SETOFF (rule R165). The full 64-bit operand is compared with LEN (rule R207). -/
def moveCursor (s : State) : Except Stop State :=
  if s.len.toNat < s.opndOffset then .error (.raised .invalidArgument)
  else .ok { s with off := BitVec.ofNat 32 s.opndOffset }

/-- SETOFF: set the cursor (rule R165). -/
def execSetoff (s : State) : Host.Outcome State Fault Refusal :=
  finish s (moveCursor s) fun s1 => s1.respondOk 0 []

/-- GETOFF: read the cursor (rule R166). -/
def execGetoff (s : State) : Host.Outcome State Fault Refusal := .next (s.respondOk (zext64 s.off) [])

/-- GETBUF: read the whole buffer (rule R167). -/
def execGetbuf (s : State) : Host.Outcome State Fault Refusal :=
  finish s (memRead s 0 s.len.toNat) fun bs => s.respondOk (zext64 s.len) bs

/-- FEOF: test for end of buffer (rule R168). -/
def execFeof (s : State) : Host.Outcome State Fault Refusal :=
  .next (s.respondOk (if s.len.toNat ≤ s.off.toNat then 1 else 0) [])

end Sys2Proof.Machine
end

