-- ==== Sys2Proof/Machine/Varint.lean ====
section
/-!
DEFINITION. Machine/Varint.lean: the variable-length integer commands (43_varint.md). `w` is the domain width, 32 or 64,
and `maxB` the most bytes of a sequence, 5 or 10 (00_scope.md rule R7).
-/

namespace Sys2Proof.Machine

/-- `VarEnc_W` (rule R141): seven bits a byte, least-significant group first, bit 7 set on every byte but the last.
`groups` bounds the loop; MAXB(W) groups always suffice for a W-bit value (DEDUCED, assumption log 14). -/
def varEnc {w : Nat} : Nat → BitVec w → List Byte
  | 0, _ => []
  | groups + 1, u =>
    if u.toNat < 128 then [(0 : BitVec 1) ++ u.extractLsb' 0 7]
    else ((1 : BitVec 1) ++ u.extractLsb' 0 7) :: varEnc groups (u >>> 7)

/-- The loop of `VarDec_W` (rule R142) from its byte `i` on, `left` bytes before the limit: the accumulated value and the
number of bytes consumed. The accumulator has `a` = 7 * MAXB(W) bits. -/
def varDecLoop {a : Nat} (s : State) : Nat → Nat → BitVec a → Except Stop (BitVec a × Nat)
  | 0, _, _ => .error (.raised .malformedVarint)
  | left + 1, i, acc =>
    if s.len.toNat ≤ s.off.toNat + i then .error (.raised .malformedVarint)
    else
      match s.buf.read (s.off.toNat + i) with
      | none => .error (.faulted (.absentByte (s.off.toNat + i)))
      | some b =>
        if b.extractLsb' 7 1 = 0 then
          .ok (acc ||| (b.extractLsb' 0 7).setWidth a <<< (7 * i), i + 1)
        else varDecLoop s left (i + 1) (acc ||| (b.extractLsb' 0 7).setWidth a <<< (7 * i))

/-- `VarDec_W` (rule R142): the value, its bits W and above discarded (rule R143), and the state with OFF moved past the
bytes consumed. -/
def varDec (w maxB : Nat) (s : State) : Except Stop (BitVec w × State) :=
  match varDecLoop (a := 7 * maxB) s maxB 0 0 with
  | .error e => .error e
  | .ok (acc, k) => .ok (acc.setWidth w, { s with off := BitVec.ofNat 32 (s.off.toNat + k) })

/-- `ZigZagEnc_W` (rule R144): the sign mask is written out, as the rule asks. -/
def zigZagEnc {w : Nat} (v : BitVec w) : BitVec w := (v <<< 1) ^^^ (if v.msb then BitVec.allOnes w else 0#w)

/-- `ZigZagDec_W` (rule R145): the shift is the logical one. -/
def zigZagDec {w : Nat} (z : BitVec w) : BitVec w := (z >>> 1) ^^^ (if z.getLsbD 0 then BitVec.allOnes w else 0#w)

/-- The variable-length reads: decode at the cursor, and answer the value (rules R146, R150). -/
def getVarUnsigned (w maxB : Nat) (s : State) : Host.Outcome State Fault Refusal :=
  finish s (varDec w maxB s) fun p => p.2.respondOk (zext64 p.1) []

/-- The zigzag-signed variable-length reads (rules R147, R151). -/
def getVarSigned (w maxB : Nat) (s : State) : Host.Outcome State Fault Refusal :=
  finish s (varDec w maxB s) fun p => p.2.respondOk (sext64 (zigZagDec p.1)) []

/-- The variable-length writes: the low W bits of OPND as magnitude (rules R148, R152). -/
def putVarUnsigned (w maxB : Nat) (s : State) : Host.Outcome State Fault Refusal :=
  putBytes (varEnc maxB (s.opndLow w)) s

/-- The zigzag-signed variable-length writes: the low W bits of OPND as two's complement (rules R149, R153). -/
def putVarSigned (w maxB : Nat) (s : State) : Host.Outcome State Fault Refusal :=
  putBytes (varEnc maxB (zigZagEnc (s.opndLow w))) s

/-- GET.UV32: read an unsigned variable-length integer, 32-bit domain (rule R146). -/
def execGetUv32 (s : State) : Host.Outcome State Fault Refusal := getVarUnsigned 32 Config.var32Max s

/-- GET.SV32: read a zigzag-signed variable-length integer, 32-bit domain (rule R147). -/
def execGetSv32 (s : State) : Host.Outcome State Fault Refusal := getVarSigned 32 Config.var32Max s

/-- PUT.UV32: append an unsigned variable-length integer, 32-bit domain (rule R148). -/
def execPutUv32 (s : State) : Host.Outcome State Fault Refusal := putVarUnsigned 32 Config.var32Max s

/-- PUT.SV32: append a zigzag-signed variable-length integer, 32-bit domain (rule R149). -/
def execPutSv32 (s : State) : Host.Outcome State Fault Refusal := putVarSigned 32 Config.var32Max s

/-- GET.UV64: read an unsigned variable-length integer, 64-bit domain (rule R150). -/
def execGetUv64 (s : State) : Host.Outcome State Fault Refusal := getVarUnsigned 64 Config.var64Max s

/-- GET.SV64: read a zigzag-signed variable-length integer, 64-bit domain (rule R151). -/
def execGetSv64 (s : State) : Host.Outcome State Fault Refusal := getVarSigned 64 Config.var64Max s

/-- PUT.UV64: append an unsigned variable-length integer, 64-bit domain (rule R152). -/
def execPutUv64 (s : State) : Host.Outcome State Fault Refusal := putVarUnsigned 64 Config.var64Max s

/-- PUT.SV64: append a zigzag-signed variable-length integer, 64-bit domain (rule R153). -/
def execPutSv64 (s : State) : Host.Outcome State Fault Refusal := putVarSigned 64 Config.var64Max s

end Sys2Proof.Machine
end

