-- ==== Sys2Proof/Machine/Dispatch.lean ====
section
/-!
DEFINITION. Machine/Dispatch.lean: one arm per command of 30_encoding.md rule R73, each one call of its meaning.
-/

namespace Sys2Proof.Machine

def exec (i : Instr) (s : State) : Host.Outcome State Fault Refusal :=
  match i with
  -- ByteBool.lean
  | .getU8 => Sys2Proof.Machine.execGetU8 s
  | .put8 => Sys2Proof.Machine.execPut8 s
  | .getBool => Sys2Proof.Machine.execGetBool s
  | .putBool => Sys2Proof.Machine.execPutBool s
  -- FixedInt.lean
  | .getU16Be => Sys2Proof.Machine.execGetU16Be s
  | .getS16Be => Sys2Proof.Machine.execGetS16Be s
  | .getU16Le => Sys2Proof.Machine.execGetU16Le s
  | .getS16Le => Sys2Proof.Machine.execGetS16Le s
  | .put16Be => Sys2Proof.Machine.execPut16Be s
  | .put16Le => Sys2Proof.Machine.execPut16Le s
  | .getU24Be => Sys2Proof.Machine.execGetU24Be s
  | .getU24Le => Sys2Proof.Machine.execGetU24Le s
  | .put24Be => Sys2Proof.Machine.execPut24Be s
  | .put24Le => Sys2Proof.Machine.execPut24Le s
  | .getU32Be => Sys2Proof.Machine.execGetU32Be s
  | .getS32Be => Sys2Proof.Machine.execGetS32Be s
  | .getU32Le => Sys2Proof.Machine.execGetU32Le s
  | .getS32Le => Sys2Proof.Machine.execGetS32Le s
  | .put32Be => Sys2Proof.Machine.execPut32Be s
  | .put32Le => Sys2Proof.Machine.execPut32Le s
  | .getU64Be => Sys2Proof.Machine.execGetU64Be s
  | .getS64Be => Sys2Proof.Machine.execGetS64Be s
  | .getU64Le => Sys2Proof.Machine.execGetU64Le s
  | .getS64Le => Sys2Proof.Machine.execGetS64Le s
  | .put64Be => Sys2Proof.Machine.execPut64Be s
  | .put64Le => Sys2Proof.Machine.execPut64Le s
  -- Float.lean
  | .getF32Be => Sys2Proof.Machine.execGetF32Be s
  | .getF32rBe prec => Sys2Proof.Machine.execGetF32rBe prec s
  | .getF32Le => Sys2Proof.Machine.execGetF32Le s
  | .getF32rLe prec => Sys2Proof.Machine.execGetF32rLe prec s
  | .putF32Be => Sys2Proof.Machine.execPutF32Be s
  | .putF32Le => Sys2Proof.Machine.execPutF32Le s
  | .getF64Be => Sys2Proof.Machine.execGetF64Be s
  | .getF64Le => Sys2Proof.Machine.execGetF64Le s
  | .putF64Be => Sys2Proof.Machine.execPutF64Be s
  | .putF64Le => Sys2Proof.Machine.execPutF64Le s
  -- Varint.lean
  | .getUv32 => Sys2Proof.Machine.execGetUv32 s
  | .getSv32 => Sys2Proof.Machine.execGetSv32 s
  | .putUv32 => Sys2Proof.Machine.execPutUv32 s
  | .putSv32 => Sys2Proof.Machine.execPutSv32 s
  | .getUv64 => Sys2Proof.Machine.execGetUv64 s
  | .getSv64 => Sys2Proof.Machine.execGetSv64 s
  | .putUv64 => Sys2Proof.Machine.execPutUv64 s
  | .putSv64 => Sys2Proof.Machine.execPutSv64 s
  -- Stream.lean
  | .getRaw => Sys2Proof.Machine.execGetRaw s
  | .putRaw => Sys2Proof.Machine.execPutRaw s
  | .getRem => Sys2Proof.Machine.execGetRem s
  | .construct => Sys2Proof.Machine.execConstruct s
  | .rewind => Sys2Proof.Machine.execRewind s
  | .setoff => Sys2Proof.Machine.execSetoff s
  | .getoff => Sys2Proof.Machine.execGetoff s
  | .getbuf => Sys2Proof.Machine.execGetbuf s
  | .feof => Sys2Proof.Machine.execFeof s

end Sys2Proof.Machine
end

