-- ==== Sys2Proof/WellFormed.lean ====
section
/-!
DEFINITION. WellFormed.lean: which terms of `Instr` are commands of the unit.
-/

namespace Sys2Proof

/-- The precision fits the 8 bits of ARG: "0 to 255" (rule R68). -/
def Instr.precFits (prec : Nat) : Bool := prec < 256

/-- A command is well formed when its operands fit their fields. The only operand in a command word is the precision of
the two rounded reads (rule R68); a command without one is always well formed. -/
def Instr.wellFormed : Instr → Bool
  | .getF32rBe prec => Instr.precFits prec
  | .getF32rLe prec => Instr.precFits prec
  | .getU8 | .put8 | .getBool | .putBool
  | .getU16Be | .getS16Be | .getU16Le | .getS16Le | .put16Be | .put16Le
  | .getU24Be | .getU24Le | .put24Be | .put24Le
  | .getU32Be | .getS32Be | .getU32Le | .getS32Le | .put32Be | .put32Le
  | .getU64Be | .getS64Be | .getU64Le | .getS64Le | .put64Be | .put64Le
  | .getF32Be | .getF32Le | .putF32Be | .putF32Le
  | .getF64Be | .getF64Le | .putF64Be | .putF64Le
  | .getUv32 | .getSv32 | .putUv32 | .putSv32
  | .getUv64 | .getSv64 | .putUv64 | .putSv64
  | .getRaw | .putRaw | .getRem
  | .construct | .rewind | .setoff | .getoff | .getbuf | .feof => true

end Sys2Proof
end

