-- ==== Sys2Proof/Decode.lean ====
section
/-!
DEFINITION. Decode.lean: command words (30_encoding.md). The decoder is the table lookup of rules R70 and R73; the
encoder, after it, packs the fields of rules R64 to R66. A command word is a number handed over the interface and has
no byte order (rules R48, R63), so the decoder takes the 16-bit word itself.
-/

namespace Sys2Proof

/-! ### The fields of a command word (rules R64, R66) -/

/-- ARG, bits 15:8. -/
def argOf (cw : CmdWord) : BitVec 8 := cw.extractLsb' 8 8

/-- DIR, bit 7: 0 = GET, 1 = PUT. -/
def dirOf (cw : CmdWord) : BitVec 1 := cw.extractLsb' 7 1

/-- TYPE, bits 6:3 (rule R65). -/
def typeOf (cw : CmdWord) : BitVec 4 := cw.extractLsb' 3 4

/-- LE, bit 2: 0 = big-endian, 1 = little-endian. -/
def leOf (cw : CmdWord) : BitVec 1 := cw.extractLsb' 2 1

/-- SGN, bit 1. -/
def sgnOf (cw : CmdWord) : BitVec 1 := cw.extractLsb' 1 1

/-- RND, bit 0. -/
def rndOf (cw : CmdWord) : BitVec 1 := cw.extractLsb' 0 1

/-- FUNC of a control command, bits 2:0 (rule R66). -/
def funcOf (cw : CmdWord) : BitVec 3 := cw.extractLsb' 0 3

/-- PREC = uint(CW[15:8]), "not sign-extended, not scaled" (rule R68). -/
def precOf (cw : CmdWord) : Nat := (argOf cw).toNat

/-! ### The decoder -/

/-- Why a command word is reserved, in the order of rule R71's list. DESIGN CHOICE, safe: the names are the model's own;
every reserved word executes alike (assumption log 10). -/
inductive Reserved where
  /-- the low byte is a command's, or would be, and ARG is not 0 -/
  | argNotZero
  /-- TYPE is 12, 13 or 14 -/
  | reservedType
  /-- TYPE is 15 and FUNC is 6 or 7, or DIR is 1 -/
  | reservedControl
  /-- a legal TYPE with a combination of DIR, LE, SGN, RND outside rule R65 -/
  | illegalFlags
  deriving DecidableEq, Repr

/-- What the decoder answers: a command, or a rejection by name. -/
inductive Decoded where
  | instr (i : Instr)
  | reserved (why : Reserved)
  deriving DecidableEq, Repr

/-- One row of rule R73's opcode map: it selects its command for the words with `CW & mask = pattern`. -/
structure OpRow where
  mask : CmdWord
  pattern : CmdWord
  /-- the command, from the word's precision (rule R68; every row but two ignores it) -/
  make : Nat → Instr

/-- The word belongs to the row (rule R70). -/
def OpRow.hits (r : OpRow) (cw : CmdWord) : Bool := (cw &&& r.mask) == r.pattern

/-- Rows of rule R73: 40_byte_bool.md. -/
def tableByteBool : List OpRow := [
  ⟨0xFFFF#16, 0x0000#16, fun _ => .getU8⟩,
  ⟨0xFFFF#16, 0x0080#16, fun _ => .put8⟩,
  ⟨0xFFFF#16, 0x0008#16, fun _ => .getBool⟩,
  ⟨0xFFFF#16, 0x0088#16, fun _ => .putBool⟩]

/-- Rows of rule R73: 41_fixed_int.md, short and triad. -/
def tableShortTriad : List OpRow := [
  ⟨0xFFFF#16, 0x0010#16, fun _ => .getU16Be⟩,
  ⟨0xFFFF#16, 0x0012#16, fun _ => .getS16Be⟩,
  ⟨0xFFFF#16, 0x0014#16, fun _ => .getU16Le⟩,
  ⟨0xFFFF#16, 0x0016#16, fun _ => .getS16Le⟩,
  ⟨0xFFFF#16, 0x0090#16, fun _ => .put16Be⟩,
  ⟨0xFFFF#16, 0x0094#16, fun _ => .put16Le⟩,
  ⟨0xFFFF#16, 0x0018#16, fun _ => .getU24Be⟩,
  ⟨0xFFFF#16, 0x001C#16, fun _ => .getU24Le⟩,
  ⟨0xFFFF#16, 0x0098#16, fun _ => .put24Be⟩,
  ⟨0xFFFF#16, 0x009C#16, fun _ => .put24Le⟩]

/-- Rows of rule R73: 41_fixed_int.md, int. -/
def tableInt : List OpRow := [
  ⟨0xFFFF#16, 0x0020#16, fun _ => .getU32Be⟩,
  ⟨0xFFFF#16, 0x0022#16, fun _ => .getS32Be⟩,
  ⟨0xFFFF#16, 0x0024#16, fun _ => .getU32Le⟩,
  ⟨0xFFFF#16, 0x0026#16, fun _ => .getS32Le⟩,
  ⟨0xFFFF#16, 0x00A0#16, fun _ => .put32Be⟩,
  ⟨0xFFFF#16, 0x00A4#16, fun _ => .put32Le⟩]

/-- Rows of rule R73: 41_fixed_int.md, long. -/
def tableLong : List OpRow := [
  ⟨0xFFFF#16, 0x0028#16, fun _ => .getU64Be⟩,
  ⟨0xFFFF#16, 0x002A#16, fun _ => .getS64Be⟩,
  ⟨0xFFFF#16, 0x002C#16, fun _ => .getU64Le⟩,
  ⟨0xFFFF#16, 0x002E#16, fun _ => .getS64Le⟩,
  ⟨0xFFFF#16, 0x00A8#16, fun _ => .put64Be⟩,
  ⟨0xFFFF#16, 0x00AC#16, fun _ => .put64Le⟩]

/-- Rows of rule R73: 42_float.md. -/
def tableFloat : List OpRow := [
  ⟨0xFFFF#16, 0x0030#16, fun _ => .getF32Be⟩,
  ⟨0x00FF#16, 0x0031#16, .getF32rBe⟩,
  ⟨0xFFFF#16, 0x0034#16, fun _ => .getF32Le⟩,
  ⟨0x00FF#16, 0x0035#16, .getF32rLe⟩,
  ⟨0xFFFF#16, 0x00B0#16, fun _ => .putF32Be⟩,
  ⟨0xFFFF#16, 0x00B4#16, fun _ => .putF32Le⟩,
  ⟨0xFFFF#16, 0x0038#16, fun _ => .getF64Be⟩,
  ⟨0xFFFF#16, 0x003C#16, fun _ => .getF64Le⟩,
  ⟨0xFFFF#16, 0x00B8#16, fun _ => .putF64Be⟩,
  ⟨0xFFFF#16, 0x00BC#16, fun _ => .putF64Le⟩]

/-- Rows of rule R73: 43_varint.md. -/
def tableVarint : List OpRow := [
  ⟨0xFFFF#16, 0x0040#16, fun _ => .getUv32⟩,
  ⟨0xFFFF#16, 0x0042#16, fun _ => .getSv32⟩,
  ⟨0xFFFF#16, 0x00C0#16, fun _ => .putUv32⟩,
  ⟨0xFFFF#16, 0x00C2#16, fun _ => .putSv32⟩,
  ⟨0xFFFF#16, 0x0048#16, fun _ => .getUv64⟩,
  ⟨0xFFFF#16, 0x004A#16, fun _ => .getSv64⟩,
  ⟨0xFFFF#16, 0x00C8#16, fun _ => .putUv64⟩,
  ⟨0xFFFF#16, 0x00CA#16, fun _ => .putSv64⟩]

/-- Rows of rule R73: 44_stream.md. -/
def tableStream : List OpRow := [
  ⟨0xFFFF#16, 0x0050#16, fun _ => .getRaw⟩,
  ⟨0xFFFF#16, 0x00D0#16, fun _ => .putRaw⟩,
  ⟨0xFFFF#16, 0x0058#16, fun _ => .getRem⟩,
  ⟨0xFFFF#16, 0x0078#16, fun _ => .construct⟩,
  ⟨0xFFFF#16, 0x0079#16, fun _ => .rewind⟩,
  ⟨0xFFFF#16, 0x007A#16, fun _ => .setoff⟩,
  ⟨0xFFFF#16, 0x007B#16, fun _ => .getoff⟩,
  ⟨0xFFFF#16, 0x007C#16, fun _ => .getbuf⟩,
  ⟨0xFFFF#16, 0x007D#16, fun _ => .feof⟩]

/-- The opcode map, the 53 rows of rule R73. -/
def opTable : List OpRow :=
  tableByteBool ++ tableShortTriad ++ tableInt ++ tableLong ++ tableFloat ++ tableVarint ++ tableStream

/-- The name of the reason why a word that no row matches is reserved (rule R71). -/
def reservedWhy (cw : CmdWord) : Reserved :=
  if typeOf cw = 12 ∨ typeOf cw = 13 ∨ typeOf cw = 14 then .reservedType
  else if typeOf cw = 15 ∧ (dirOf cw = 1 ∨ funcOf cw = 6 ∨ funcOf cw = 7) then .reservedControl
  else if argOf cw ≠ 0 then .argNotZero
  else .illegalFlags

/-- Decoding: the command whose row matches the word; a word that no row matches is reserved (rules R70, R71). -/
def decode (cw : CmdWord) : Decoded :=
  match opTable.find? (fun r => r.hits cw) with
  | some r => .instr (r.make (precOf cw))
  | none => .reserved (reservedWhy cw)

/-- The command that the low `nbits` bits of `w` select, for the host's questions: bits above `nbits` are 0. -/
def tableCmdWord (nbits w : Nat) : CmdWord := BitVec.ofNat 16 (w % 2 ^ nbits)

/-- The command the decoder reads from an instruction whose bits are `w`, `none` where it refuses. -/
def decodeTableWord (nbits w : Nat) : Option Instr :=
  match decode (tableCmdWord nbits w) with
  | .instr i => some i
  | .reserved _ => none

/-! ### The encoder -/

/-- Format D (rule R64): ARG, DIR, TYPE, LE, SGN, RND from bit 15 down to bit 0. -/
def formatD (arg : Nat) (dir : BitVec 1) (type : BitVec 4) (le sgn rnd : BitVec 1) : CmdWord :=
  BitVec.ofNat 8 arg ++ (dir ++ (type ++ (le ++ (sgn ++ rnd))))

/-- Format C (rule R66): ARG = 0, DIR = 0, TYPE = 15, then FUNC. -/
def formatC (func : BitVec 3) : CmdWord :=
  (0 : BitVec 8) ++ ((0 : BitVec 1) ++ ((15 : BitVec 4) ++ func))

/-- The command word of a command, from the field columns of rule R73. -/
def encode : Instr → CmdWord
  | .getU8 => formatD 0 0 0 0 0 0
  | .put8 => formatD 0 1 0 0 0 0
  | .getBool => formatD 0 0 1 0 0 0
  | .putBool => formatD 0 1 1 0 0 0
  | .getU16Be => formatD 0 0 2 0 0 0
  | .getS16Be => formatD 0 0 2 0 1 0
  | .getU16Le => formatD 0 0 2 1 0 0
  | .getS16Le => formatD 0 0 2 1 1 0
  | .put16Be => formatD 0 1 2 0 0 0
  | .put16Le => formatD 0 1 2 1 0 0
  | .getU24Be => formatD 0 0 3 0 0 0
  | .getU24Le => formatD 0 0 3 1 0 0
  | .put24Be => formatD 0 1 3 0 0 0
  | .put24Le => formatD 0 1 3 1 0 0
  | .getU32Be => formatD 0 0 4 0 0 0
  | .getS32Be => formatD 0 0 4 0 1 0
  | .getU32Le => formatD 0 0 4 1 0 0
  | .getS32Le => formatD 0 0 4 1 1 0
  | .put32Be => formatD 0 1 4 0 0 0
  | .put32Le => formatD 0 1 4 1 0 0
  | .getU64Be => formatD 0 0 5 0 0 0
  | .getS64Be => formatD 0 0 5 0 1 0
  | .getU64Le => formatD 0 0 5 1 0 0
  | .getS64Le => formatD 0 0 5 1 1 0
  | .put64Be => formatD 0 1 5 0 0 0
  | .put64Le => formatD 0 1 5 1 0 0
  | .getF32Be => formatD 0 0 6 0 0 0
  | .getF32rBe prec => formatD prec 0 6 0 0 1
  | .getF32Le => formatD 0 0 6 1 0 0
  | .getF32rLe prec => formatD prec 0 6 1 0 1
  | .putF32Be => formatD 0 1 6 0 0 0
  | .putF32Le => formatD 0 1 6 1 0 0
  | .getF64Be => formatD 0 0 7 0 0 0
  | .getF64Le => formatD 0 0 7 1 0 0
  | .putF64Be => formatD 0 1 7 0 0 0
  | .putF64Le => formatD 0 1 7 1 0 0
  | .getUv32 => formatD 0 0 8 0 0 0
  | .getSv32 => formatD 0 0 8 0 1 0
  | .putUv32 => formatD 0 1 8 0 0 0
  | .putSv32 => formatD 0 1 8 0 1 0
  | .getUv64 => formatD 0 0 9 0 0 0
  | .getSv64 => formatD 0 0 9 0 1 0
  | .putUv64 => formatD 0 1 9 0 0 0
  | .putSv64 => formatD 0 1 9 0 1 0
  | .getRaw => formatD 0 0 10 0 0 0
  | .putRaw => formatD 0 1 10 0 0 0
  | .getRem => formatD 0 0 11 0 0 0
  | .construct => formatC 0
  | .rewind => formatC 1
  | .setoff => formatC 2
  | .getoff => formatC 3
  | .getbuf => formatC 4
  | .feof => formatC 5

end Sys2Proof
end

