-- ==== Sys2Proof/Machine/Transaction.lean ====
section
/-!
DEFINITION. Machine/Transaction.lean: what stands around a command's execution (00_scope.md rule R9): the command's inputs
at the interface, the response handed to the host, and reset (70_reset_and_hazards.md rule R200).
-/

namespace Sys2Proof.Machine

/-- The state in which a command is executed: its OPND and PAY stand at the interface and it is no longer pending
(rules R9, R25, R33). -/
def State.present (s : State) (c : Command) (rest : List HostEvent) : State :=
  { s with opnd := c.opnd, pay := c.pay, pending := rest }

/-- The response of the command just executed (rule R9). -/
def State.response (s : State) : Response :=
  { status := s.status, res := s.res, need := s.need, have_ := s.have_, dout := s.dout }

/-- The state after the response is handed to the host: it is recorded, and OPND, PAY and DOUT, which are no state
(rules R25, R33), are idle again. -/
def State.deliver (s : State) : State :=
  { s with opnd := 0, pay := [], dout := [], responses := s.responses ++ [s.response] }

/-- A command's outcome with its response delivered; a fault or a refusal stops the machine. -/
def answer (o : Host.Outcome State Fault Refusal) : Host.Outcome State Fault Refusal :=
  match o with
  | .next s => .next s.deliver
  | .fault f => .fault f
  | .refused r => .refused r

/-- Reset (rule R200): every element of the unit's state at its reset value. The unit's parameters are no state, and what
the host has pending and has been answered is the host's (assumption log 5). -/
def State.resetUnit (s : State) (rest : List HostEvent) : State :=
  { State.reset with config := s.config, pending := rest, responses := s.responses }

/-- The command the host presents to run one command word by itself: OPND = 0 and PAY empty (assumption log 1). -/
def tableCommand (nbits w : Nat) : Command := { cw := tableCmdWord nbits w, opnd := 0, pay := [] }

end Sys2Proof.Machine
end

