-- ==== Sys2Proof/Machine/Step.lean ====
section
/-!
DEFINITION. Machine/Step.lean: one step of the machine: one host event (00_scope.md rules R8, R9;
70_reset_and_hazards.md rules R208, R209).
-/

namespace Sys2Proof.Machine

/-- One step. The first pending event is taken: a command is decoded and executed and its response delivered, a reserved
word ends with InvalidArgument (rule R71), a reset puts the unit in its reset state (rule R200). With nothing pending the
unit waits (assumption log 4). -/
def step (s : State) : Host.Outcome State Fault Refusal :=
  match s.pending with
  | [] => .next s
  | .reset :: rest => .next (s.resetUnit rest)
  | .command c :: rest =>
    match decode c.cw with
    | .instr i => answer (exec i (s.present c rest))
    | .reserved _ => answer (execReserved (s.present c rest))

/-- The state in which the next step takes the command word `w` of `nbits` bits, before everything already pending. -/
def State.withFetchWord (s : State) (nbits w : Nat) : State :=
  { s with pending := .command (tableCommand nbits w) :: s.pending }

end Sys2Proof.Machine
end

