-- ==== Sys2Proof/Safety.lean ====
section
/-!
DEFINITION. Safety.lean: what a sound state is, and the terms in which the claims speak of a command's effect. Each term
names every field of the state, so a claim made with it says what the command changes and that it changes nothing else.
-/

namespace Sys2Proof.Machine

/-! ### Sound states -/

/-- BUF holds exactly the bytes 0 to LEN-1 (10_state.md rules R20, R21). -/
abbrev State.BufBacked (s : State) : Prop := s.buf.map Prod.fst = List.range s.len.toNat

/-- `0 <= OFF <= LEN <= BUFCAP` (rules R21, R22). -/
abbrev State.CursorInRange (s : State) : Prop := s.off.toNat ≤ s.len.toNat ∧ s.len.toNat ≤ s.config.bufcap.val

/-- The buffer and its two registers agree: all that a command needs to run to its response. -/
abbrev State.BufSound (s : State) : Prop := s.BufBacked ∧ s.CursorInRange

/-- A response the unit may give: a STATUS code that is written (rule R29), NEED and HAVE as rule R30 has them, and RES and
DOUT empty on failure (rules R26, R33). -/
abbrev Response.Legal (r : Response) : Prop :=
  (r.status = 0 ∨ r.status = 1 ∨ r.status = 2 ∨ r.status = 3 ∨ r.status = 5) ∧
  (r.status = 1 → r.have_.toNat < r.need.toNat) ∧
  (r.status ≠ 1 → r.need = 0 ∧ r.have_ = 0) ∧
  (r.status ≠ 0 → r.res = 0 ∧ r.dout = [])

/-- Nothing stands at the interface: OPND, PAY and DOUT are no state between commands (rules R25, R33). -/
abbrev State.Idle (s : State) : Prop := s.opnd = 0 ∧ s.pay = [] ∧ s.dout = []

/-- The invariant of the machine between two host events. -/
abbrev State.Inv (s : State) : Prop :=
  s.BufSound ∧ s.response.Legal ∧ s.Idle ∧ ∀ r ∈ s.responses, r.Legal

/-- The reset state of a unit with these parameters, at whose interface a command's OPND and PAY stand (rules R200, R201). -/
def State.resetWith (cfg : Config) (o : Word64) (p : List Byte) : State :=
  { State.reset with config := cfg, opnd := o, pay := p }

/-! ### A command's effect -/

/-- From address `a` on, BUF holds the byte string. -/
def BytesAt (m : Memory) (a : Nat) (bs : List Byte) : Prop := ∀ k, k < bs.length → m.read (a + k) = bs[k]?

/-- Every byte of BUF reads as before, and LEN is as before. -/
def SameBuffer (s t : State) : Prop := t.len = s.len ∧ ∀ a, t.buf.read a = s.buf.read a

/-- What no command touches: the parameters, the inputs, and what the host has pending and has been answered. -/
def SameInterface (s t : State) : Prop :=
  t.config = s.config ∧ t.opnd = s.opnd ∧ t.pay = s.pay ∧ t.pending = s.pending ∧ t.responses = s.responses

/-- The response is OK with this RES and this DOUT (60_exceptions.md rule R185). -/
def RespondsOk (t : State) (res : Word64) (dout : List Byte) : Prop :=
  t.status = 0 ∧ t.res = res ∧ t.need = 0 ∧ t.have_ = 0 ∧ t.dout = dout

/-- The command succeeded, moved OFF forward by `n`, answered RES and DOUT, and changed nothing else. -/
def ReadsForward (s t : State) (n : Nat) (res : Word64) (dout : List Byte) : Prop :=
  t.off.toNat = s.off.toNat + n ∧ RespondsOk t res dout ∧ SameBuffer s t ∧ SameInterface s t

/-- The command succeeded, appended the byte string at LEN, answered its length, and changed nothing else: every byte of
BUF outside the appended ones reads as before, and OFF is as before. -/
def Appends (s t : State) (bs : List Byte) : Prop :=
  t.len.toNat = s.len.toNat + bs.length ∧ BytesAt t.buf s.len.toNat bs ∧
  (∀ a, a < s.len.toNat ∨ s.len.toNat + bs.length ≤ a → t.buf.read a = s.buf.read a) ∧
  t.off = s.off ∧ RespondsOk t (BitVec.ofNat 64 bs.length) [] ∧ SameInterface s t

/-- The command ended with an error response of this STATUS, NEED and HAVE, and changed nothing else (rule R184). -/
def Fails (s t : State) (status : BitVec 3) (need available : Nat) : Prop :=
  t.status = status ∧ t.res = 0 ∧ t.need = BitVec.ofNat 64 need ∧ t.have_ = BitVec.ofNat 64 available ∧ t.dout = [] ∧
  t.off = s.off ∧ SameBuffer s t ∧ SameInterface s t

/-- A rule of a fixed-width read (rules R42, R90): its command word, the error when fewer than `n` bytes remain, and
otherwise the value of the `n` bytes at the cursor, with OFF moved past them. -/
def FixedReadRule (cw : CmdWord) (i : Instr) (n : Nat) (value : State → List Byte → Word64) : Prop :=
  decode cw = .instr i ∧ ∀ s : State, s.BufSound →
    (s.len.toNat - s.off.toNat < n →
      ∃ t, exec i s = .next t ∧ Fails s t 1 n (s.len.toNat - s.off.toNat)) ∧
    (n ≤ s.len.toNat - s.off.toNat →
      ∃ bs t, bs.length = n ∧ BytesAt s.buf s.off.toNat bs ∧ exec i s = .next t ∧ ReadsForward s t n (value s bs) [])

/-- A rule of a write (rules R44, R90): its command word, the error when the bytes do not fit, and otherwise the bytes
appended. -/
def WriteRule (cw : CmdWord) (i : Instr) (bytes : State → List Byte) : Prop :=
  decode cw = .instr i ∧ ∀ s : State, s.BufSound →
    (s.config.bufcap.val < s.len.toNat + (bytes s).length → ∃ t, exec i s = .next t ∧ Fails s t 5 0 0) ∧
    (s.len.toNat + (bytes s).length ≤ s.config.bufcap.val → ∃ t, exec i s = .next t ∧ Appends s t (bytes s))

/-! ### Command words (30_encoding.md) -/

/-- Rule R65's table of the legal LE, SGN and RND for a DIR and a TYPE. -/
def flagsLegal (cw : CmdWord) : Bool :=
  let put := dirOf cw == 1
  let le := leOf cw == 1
  let sgn := sgnOf cw == 1
  let rnd := rndOf cw == 1
  match (typeOf cw).toNat with
  | 0 | 1 | 10 => !le && !sgn && !rnd
  | 2 | 4 | 5 => !rnd && !(put && sgn)
  | 3 | 7 => !sgn && !rnd
  | 6 => !sgn && !(put && rnd)
  | 8 | 9 => !le && !rnd
  | 11 => !le && !sgn && !rnd && !put
  | _ => false

/-- Rule R71's list of the reserved words, in full. -/
def reservedByRule (cw : CmdWord) : Bool :=
  let low := cw.toNat % 256
  let type := (typeOf cw).toNat
  (cw.toNat / 256 != 0 && low != 0x31 && low != 0x35) ||
  (type == 12 || type == 13 || type == 14) ||
  (low == 0x7E || low == 0x7F || 0xF8 ≤ low) ||
  (type ≤ 11 && !flagsLegal cw)

/-! ### Variable-length integers (43_varint.md) -/

/-- The number whose seven-bit groups the bytes carry, least-significant group first (rule R140). -/
def groupsValue : List Byte → Nat
  | [] => 0
  | b :: bs => b.toNat % 128 + 128 * groupsValue bs

/-- The bytes are one terminated sequence: bit 7 set on every byte but the last, clear on the last (rule R140). -/
def Terminated (bs : List Byte) : Prop :=
  bs ≠ [] ∧ ∀ k (h : k < bs.length), bs[k].msb = decide (k + 1 < bs.length)

/-- The bytes are the shortest encoding of a number: terminated, carrying the number, with no trailing zero group
(rule R141). -/
def IsVarEncoding (u : Nat) (bs : List Byte) : Prop :=
  Terminated bs ∧ groupsValue bs = u ∧ (bs.length = 1 ∨ ∀ h : bs ≠ [], (bs.getLast h).toNat ≠ 0)

/-- The zigzag map on integers (rule R144). -/
def zigZagOfInt (v : Int) : Nat := if 0 ≤ v then (2 * v).toNat else (-2 * v - 1).toNat

/-- The inverse zigzag map on integers (rule R145). -/
def intOfZigZag (z : Nat) : Int := if z % 2 = 0 then (z / 2 : Nat) else -((z / 2 : Nat) : Int) - 1

/-- At the cursor stands a terminated sequence of `k + 1` bytes within LEN and the domain's limit of `maxB` bytes. -/
def SequenceAtCursor (s : State) (maxB k : Nat) : Prop :=
  k < maxB ∧ k < s.len.toNat - s.off.toNat ∧
  (∀ j, j < k → ∀ b, s.buf.read (s.off.toNat + j) = some b → b.msb = true) ∧
  ∀ b, s.buf.read (s.off.toNat + k) = some b → b.msb = false

/-- A rule of a variable-length read (rules R142, R143): its command word, the value of the terminated sequence at the
cursor, and MalformedVarint where there is none. -/
def VarReadRule (cw : CmdWord) (i : Instr) (maxB : Nat) (value : Nat → Word64) : Prop :=
  decode cw = .instr i ∧ ∀ s : State, s.BufSound →
    (∀ k, SequenceAtCursor s maxB k →
      ∃ bs t, bs.length = k + 1 ∧ BytesAt s.buf s.off.toNat bs ∧ exec i s = .next t ∧
        ReadsForward s t (k + 1) (value (groupsValue bs)) []) ∧
    ((∀ k, ¬ SequenceAtCursor s maxB k) → ∃ t, exec i s = .next t ∧ Fails s t 2 0 0)

/-- A rule of a variable-length write (rules R141, R148, R152): its command word, and the shortest encoding of the number
appended, or Capacity and nothing appended where it does not fit. -/
def VarWriteRule (cw : CmdWord) (i : Instr) (maxB : Nat) (number : State → Nat) : Prop :=
  decode cw = .instr i ∧ ∀ s : State, s.BufSound → ∃ bs, IsVarEncoding (number s) bs ∧ bs.length ≤ maxB ∧
    (s.config.bufcap.val < s.len.toNat + bs.length → ∃ t, exec i s = .next t ∧ Fails s t 5 0 0) ∧
    (s.len.toNat + bs.length ≤ s.config.bufcap.val → ∃ t, exec i s = .next t ∧ Appends s t bs)

/-! ### Which command does what -/

/-- An outcome with a change made to its next state, if it has one. -/
def mapNext (f : State → State) : Host.Outcome State Fault Refusal → Host.Outcome State Fault Refusal
  | .next t => .next (f t)
  | .fault x => .fault x
  | .refused x => .refused x

/-- The bytes that a fixed-width read moves, its canonical width (rule R67); 0 for every other command. -/
def fixedReadWidth : Instr → Nat
  | .getU8 | .getBool => 1
  | .getU16Be | .getS16Be | .getU16Le | .getS16Le => 2
  | .getU24Be | .getU24Le => 3
  | .getU32Be | .getS32Be | .getU32Le | .getS32Le | .getF32Be | .getF32Le | .getF32rBe _ | .getF32rLe _ => 4
  | .getU64Be | .getS64Be | .getU64Le | .getS64Le | .getF64Be | .getF64Le => 8
  | .put8 | .putBool | .put16Be | .put16Le | .put24Be | .put24Le | .put32Be | .put32Le | .put64Be | .put64Le
  | .putF32Be | .putF32Le | .putF64Be | .putF64Le
  | .getUv32 | .getSv32 | .putUv32 | .putSv32 | .getUv64 | .getSv64 | .putUv64 | .putSv64
  | .getRaw | .putRaw | .getRem | .construct | .rewind | .setoff | .getoff | .getbuf | .feof => 0

/-- The commands that append to BUF (rule R64: DIR = 1). -/
def isPut : Instr → Bool
  | .put8 | .putBool | .put16Be | .put16Le | .put24Be | .put24Le | .put32Be | .put32Le | .put64Be | .put64Le
  | .putF32Be | .putF32Le | .putF64Be | .putF64Le | .putUv32 | .putSv32 | .putUv64 | .putSv64 | .putRaw => true
  | .getU8 | .getBool | .getU16Be | .getS16Be | .getU16Le | .getS16Le | .getU24Be | .getU24Le
  | .getU32Be | .getS32Be | .getU32Le | .getS32Le | .getF32Be | .getF32Le | .getF32rBe _ | .getF32rLe _
  | .getU64Be | .getS64Be | .getU64Le | .getS64Le | .getF64Be | .getF64Le
  | .getUv32 | .getSv32 | .getUv64 | .getSv64
  | .getRaw | .getRem | .construct | .rewind | .setoff | .getoff | .getbuf | .feof => false

/-- The most bytes of a variable-length read (rule R7); 0 for every other command. -/
def varReadLimit : Instr → Nat
  | .getUv32 | .getSv32 => 5
  | .getUv64 | .getSv64 => 10
  | .getU8 | .getBool | .getU16Be | .getS16Be | .getU16Le | .getS16Le | .getU24Be | .getU24Le
  | .getU32Be | .getS32Be | .getU32Le | .getS32Le | .getF32Be | .getF32Le | .getF32rBe _ | .getF32rLe _
  | .getU64Be | .getS64Be | .getU64Le | .getS64Le | .getF64Be | .getF64Le
  | .put8 | .putBool | .put16Be | .put16Le | .put24Be | .put24Le | .put32Be | .put32Le | .put64Be | .put64Le
  | .putF32Be | .putF32Le | .putF64Be | .putF64Le | .putUv32 | .putSv32 | .putUv64 | .putSv64 | .putRaw
  | .getRaw | .getRem | .construct | .rewind | .setoff | .getoff | .getbuf | .feof => 0

/-- The number of bytes a read that can end in InsufficientData asks for (rules R30, R180). -/
def bytesAsked (i : Instr) (s : State) : Nat :=
  match i with
  | .getRaw => s.opnd.toNat
  | .getRem => 1
  | i => fixedReadWidth i

/-- The bits of OPND that a command reads (rule R25's table). -/
def opndMask : Instr → Word64
  | .put8 => 0xFF
  | .put16Be | .put16Le => 0xFFFF
  | .put24Be | .put24Le => 0xFFFFFF
  | .put32Be | .put32Le | .putF32Be | .putF32Le | .putUv32 | .putSv32 => 0xFFFFFFFF
  | .putBool | .put64Be | .put64Le | .putF64Be | .putF64Le | .putUv64 | .putSv64
  | .getRaw | .setoff | .construct => 0xFFFFFFFFFFFFFFFF
  | .getU8 | .getBool | .getU16Be | .getS16Be | .getU16Le | .getS16Le | .getU24Be | .getU24Le
  | .getU32Be | .getS32Be | .getU32Le | .getS32Le | .getF32Be | .getF32Le | .getF32rBe _ | .getF32rLe _
  | .getU64Be | .getS64Be | .getU64Le | .getS64Le | .getF64Be | .getF64Le
  | .getUv32 | .getSv32 | .getUv64 | .getSv64
  | .putRaw | .getRem | .rewind | .getoff | .getbuf | .feof => 0

/-- The bytes of the shortest encoding of a number: k where `2^(7(k-1)) <= u < 2^(7k)`, and 1 for 0 (rule R141). -/
def groupsNeeded (u : Nat) : Nat := Nat.log2 u / 7 + 1

/-- The number of bytes a PUT appends, its RES when it succeeds (rules R67, R141, R161); 0 for every other command. -/
def bytesPut (i : Instr) (s : State) : Nat :=
  match i with
  | .put8 | .putBool => 1
  | .put16Be | .put16Le => 2
  | .put24Be | .put24Le => 3
  | .put32Be | .put32Le | .putF32Be | .putF32Le => 4
  | .put64Be | .put64Le | .putF64Be | .putF64Le => 8
  | .putUv32 => groupsNeeded (s.opnd.toNat % 2 ^ 32)
  | .putSv32 => groupsNeeded (zigZagOfInt (s.opnd.setWidth 32).toInt)
  | .putUv64 => groupsNeeded s.opnd.toNat
  | .putSv64 => groupsNeeded (zigZagOfInt s.opnd.toInt)
  | .putRaw => s.pay.length
  | .getU8 | .getBool | .getU16Be | .getS16Be | .getU16Le | .getS16Le | .getU24Be | .getU24Le
  | .getU32Be | .getS32Be | .getU32Le | .getS32Le | .getF32Be | .getF32Le | .getF32rBe _ | .getF32rLe _
  | .getU64Be | .getS64Be | .getU64Le | .getS64Le | .getF64Be | .getF64Le
  | .getUv32 | .getSv32 | .getUv64 | .getSv64
  | .getRaw | .getRem | .construct | .rewind | .setoff | .getoff | .getbuf | .feof => 0

/-- How a successful command moves OFF (rule R23). -/
def movesOff (i : Instr) (s t : State) : Prop :=
  match i with
  | .getRaw => t.off.toNat = s.off.toNat + s.opnd.toNat
  | .getRem => t.off = s.len
  | .rewind => t.off = 0
  | .setoff | .construct => t.off.toNat = s.opnd.toNat
  | .getUv32 | .getSv32 | .getUv64 | .getSv64 =>
    ∃ k, 1 ≤ k ∧ k ≤ varReadLimit i ∧ t.off.toNat = s.off.toNat + k ∧
      ∃ bs, bs.length = k ∧ BytesAt s.buf s.off.toNat bs ∧ Terminated bs
  | i => t.off.toNat = s.off.toNat + fixedReadWidth i

/-! ### Floats (42_float.md) -/

/-- |x| of a finite binary32 pattern, as a rational number (rule R121's table). -/
def absValue32 (w : BitVec 32) : ℚ :=
  if (w.extractLsb' 23 8).toNat = 0 then ((w.extractLsb' 0 23).toNat : ℚ) * 2 ^ (-149 : ℤ)
  else (2 ^ 23 + ((w.extractLsb' 0 23).toNat : ℚ)) * 2 ^ (((w.extractLsb' 23 8).toNat : ℤ) - 150)

/-- |x| of a normal or zero binary64 pattern, as a rational number (rule R122). -/
def absValue64 (d : Word64) : ℚ :=
  if (d.extractLsb' 52 11).toNat = 0 then 0
  else (2 ^ 52 + ((d.extractLsb' 0 52).toNat : ℚ)) * 2 ^ (((d.extractLsb' 52 11).toNat : ℤ) - 1075)

/-- q is the integer that the tie rule rounds y to (rule R133). -/
def RoundsTo (tie : TieRule) (y : ℚ) (q : ℕ) : Prop :=
  match tie with
  | .away => (q : ℤ) = ⌊y + 1 / 2⌋
  | .even => |y - q| ≤ 1 / 2 ∧ (|y - q| = 1 / 2 → q % 2 = 0)

/-- d is the binary64 pattern that rule R134's lines make of r. -/
def IsRne64 (r : ℚ) (d : Word64) : Prop :=
  ∃ (e : ℤ) (n : ℤ), (2 : ℚ) ^ e ≤ r ∧ r < 2 ^ (e + 1) ∧
    n = ⌊r / 2 ^ (e - 52)⌋ + (if 1 / 2 < Int.fract (r / (2 : ℚ) ^ (e - 52)) ∨
      (Int.fract (r / (2 : ℚ) ^ (e - 52)) = 1 / 2 ∧ ⌊r / (2 : ℚ) ^ (e - 52)⌋ % 2 = 1) then 1 else 0) ∧
    d = if n = 2 ^ 53 then (0 : BitVec 1) ++ (BitVec.ofInt 11 (e + 1 + 1023) ++ (0 : BitVec 52))
        else (0 : BitVec 1) ++ (BitVec.ofInt 11 (e + 1023) ++ BitVec.ofInt 52 (n - 2 ^ 52))

end Sys2Proof.Machine
end

