-- ==== Sys2Proof/Certificates/Slice0/Obligations.lean ====
section
/-!
DEFINITION. Certificates/Slice0/Obligations.lean: the statements about the machine, one definition each. The docstring of
each names the rule of spec/ it formalises, or says that it rests on an inference of the spec or a choice of the model.
-/

open Sys2Proof Sys2Proof.Machine

/-! ### Reset and the whole machine -/

/-- 70_reset_and_hazards.md R200: reset leaves the listed values, and BUF, LEN and OFF are what CONSTRUCT of an empty
payload with offset 0 leaves. -/
def Obligations.ResetLeavesTheListedValues : Prop :=
  State.reset.buf = [] ∧ State.reset.len = 0 ∧ State.reset.off = 0 ∧ State.reset.status = 0 ∧ State.reset.res = 0 ∧
  State.reset.need = 0 ∧ State.reset.have_ = 0 ∧
  ∀ s : State, s.pay = [] → s.opnd = 0 →
    ∃ t, exec .construct s = .next t ∧ t.buf = State.reset.buf ∧ t.len = State.reset.len ∧ t.off = State.reset.off

/-- A reset that the host causes between two commands puts the unit in the reset state, from every state; it is no command
and has no response (70_reset_and_hazards.md section 1; its place in the host's queue, and that it keeps the parameters, the
queue and the record, are the model's choice, assumption log 5). -/
def Obligations.ResetEventLeavesTheResetState : Prop :=
  ∀ (s : State) (rest : List HostEvent), s.pending = .reset :: rest →
    ∃ t, step s = .next t ∧
      t = { State.reset with config := s.config, pending := rest, responses := s.responses } ∧ ∀ a, t.buf.read a = none

/-- The invariant holds at reset (rules R21, R22, R34; the idle interface values are the model's, assumption log 2). -/
def Obligations.ResetMeetsTheInvariant : Prop := State.reset.Inv

/-- Every step keeps the invariant, from every state that meets it (10_state.md rules R21, R22, R29, R30; the idle
interface is the model's form of rules R25 and R33, assumption log 2). -/
def Obligations.StepKeepsTheInvariant : Prop := ∀ s t : State, s.Inv → step s = .next t → t.Inv

/-- From every sound state a step answers a next state: no fault and no refusal (60_exceptions.md R186, the spec's own
inference: every command ends in `ok` or `raise`). -/
def Obligations.StepNeverStops : Prop := ∀ s : State, s.BufSound → ∃ t, step s = .next t

/-- 60_exceptions.md R187 with R184's writes: a command that ends in `raise` leaves BUF, LEN and OFF as it found them,
RES 0, DOUT empty, NEED and HAVE 0 but for InsufficientData, and touches nothing else. -/
def Obligations.FailedCommandChangesOnlyTheResponse : Prop :=
  ∀ (i : Instr) (s t : State), exec i s = .next t → t.status ≠ 0 →
    t.off = s.off ∧ SameBuffer s t ∧ SameInterface s t ∧ t.res = 0 ∧ t.dout = [] ∧
    (t.status ≠ 1 → t.need = 0 ∧ t.have_ = 0)

/-- 10_state.md R30: on InsufficientData NEED is the number of bytes asked for and HAVE the number that remained, with
HAVE below NEED; with every other STATUS both are 0. -/
def Obligations.NeedAndHaveCountTheBytes : Prop :=
  ∀ (i : Instr) (s t : State), s.CursorInRange → exec i s = .next t →
    (t.status = 1 → t.need.toNat = bytesAsked i s ∧ t.have_.toNat = s.len.toNat - s.off.toNat ∧
      t.have_.toNat < t.need.toNat) ∧
    (t.status ≠ 1 → t.need = 0 ∧ t.have_ = 0)

/-- No command reads RES, STATUS, NEED, HAVE or DOUT: the outcome is the same whatever they hold (10_state.md rules R26,
R29, R33). -/
def Obligations.ResponseRegistersAreNeverRead : Prop :=
  ∀ (i : Instr) (s : State) (status : BitVec 3) (res need available : Word64) (dout : List Byte),
    exec i { s with status := status, res := res, need := need, have_ := available, dout := dout } = exec i s

/-- A command's effect does not depend on the OPND bits that rule R25's table does not give it (10_state.md section 4),
nor, but for PUT.RAW and CONSTRUCT, on PAY (10_state.md section 6, rule R33; 30_encoding.md section 2, rule R69). -/
def Obligations.UnreadOperandsAreIgnored : Prop :=
  (∀ (i : Instr) (s : State) (o : Word64), o &&& opndMask i = s.opnd &&& opndMask i →
    exec i { s with opnd := o } = mapNext (fun t => { t with opnd := o }) (exec i s)) ∧
  (∀ (i : Instr) (s : State) (p : List Byte), i ≠ .putRaw → i ≠ .construct →
    exec i { s with pay := p } = mapNext (fun t => { t with pay := p }) (exec i s))

/-- No command touches the parameters, its inputs, or what the host has pending and has been answered; no step changes
the parameters (00_scope.md rules R7, R8; the fields are the model's, assumption log 1, 2, 3 and 8). -/
def Obligations.ParametersAndInterfaceAreKept : Prop :=
  (∀ (i : Instr) (s t : State), exec i s = .next t → SameInterface s t) ∧
  (∀ s t : State, step s = .next t → t.config = s.config)

/-- 10_state.md R20: a byte once in BUF keeps its value, and BUF does not shrink, until a CONSTRUCT or a reset. -/
def Obligations.BytesInTheBufferStay : Prop :=
  ∀ s t : State, s.BufSound → step s = .next t → (∀ rest, s.pending ≠ .reset :: rest) →
    (∀ c rest, s.pending = .command c :: rest → decode c.cw ≠ .instr .construct) →
    s.len.toNat ≤ t.len.toNat ∧ ∀ a b, s.buf.read a = some b → t.buf.read a = some b

/-- 10_state.md R23: how each command moves OFF, and that it never passes LEN. -/
def Obligations.CursorMovesAsListed : Prop :=
  ∀ (i : Instr) (s t : State), s.BufSound → exec i s = .next t →
    (t.status = 0 → movesOff i s t) ∧ (t.status ≠ 0 → t.off = s.off) ∧ t.off.toNat ≤ t.len.toNat

/-- 60_exceptions.md R182 and 10_state.md R29: no command writes STATUS 4, 6 or 7. -/
def Obligations.StatusIsNeverAReservedCode : Prop :=
  ∀ (i : Instr) (s t : State), exec i s = .next t →
    t.status = 0 ∨ t.status = 1 ∨ t.status = 2 ∨ t.status = 3 ∨ t.status = 5

/-- Which commands can end with which kind (60_exceptions.md section 1, the table of rule R180; the reserved words are in
`ReservedWordsAreThoseListed`). -/
def Obligations.KindsComeFromTheListedCommands : Prop :=
  ∀ (i : Instr) (s t : State), exec i s = .next t →
    (t.status = 1 → 0 < fixedReadWidth i ∨ i = .getRaw ∨ i = .getRem) ∧
    (t.status = 2 → 0 < varReadLimit i) ∧
    (t.status = 3 → i = .getRaw ∨ i = .setoff ∨ i = .construct) ∧
    (t.status = 5 → isPut i = true ∨ i = .construct)

/-- 70_reset_and_hazards.md R208: one step per command, one response per command, in the order of the commands. -/
def Obligations.OneResponsePerCommandInOrder : Prop :=
  ∀ (s : State) (c : Command) (rest : List HostEvent), s.BufSound → s.pending = .command c :: rest →
    ∃ t dout, step s = .next t ∧ t.pending = rest ∧
      t.responses = s.responses ++
        [{ status := t.status, res := t.res, need := t.need, have_ := t.have_, dout := dout }]

/-- A list of commands runs straight through, one step a command, errors or not, to a state that waits
(70_reset_and_hazards.md section 4; the queue and the record are the model's, assumption log 1, 3 and 4). -/
def Obligations.CommandListRunsStraightThrough : Prop :=
  ∀ (cs : List Command) (s : State), s.BufSound → s.pending = cs.map HostEvent.command →
    ∃ t, t.BufSound ∧ t.pending = [] ∧ s.responses <+: t.responses ∧
      t.responses.length = s.responses.length + cs.length ∧
      ∀ k, Host.Core.run Sys2Proof.core (cs.length + k) s = .next t

/-! ### Command words -/

/-- Decoding the word of a well-formed command gives the command back (30_encoding.md section 4). -/
def Obligations.DecodeOfEncodeIsTheCommand : Prop :=
  ∀ i : Instr, i.wellFormed = true → decode (encode i) = .instr i

/-- Each word has one meaning: a word that decodes to a command is that command's word, and the command is well formed
(30_encoding.md section 4). -/
def Obligations.EncodeOfDecodeIsTheWord : Prop :=
  ∀ (cw : CmdWord) (i : Instr), decode cw = .instr i → i.wellFormed = true ∧ encode i = cw

/-- Whatever the order of the rows, a word with `CW & mask = match` of a row selects that row's command, with
PREC = uint(CW[15:8]) (30_encoding.md section 3; that the rows do not overlap is the spec's own inference in rule R70). -/
def Obligations.EveryRowSelectsItsCommand : Prop :=
  ∀ (cw : CmdWord) (r : OpRow), r ∈ opTable → cw &&& r.mask = r.pattern →
    decode cw = .instr (r.make (cw.toNat / 256))

/-- 30_encoding.md R71: the reserved words are exactly those of the rule's list, and a reserved word executes as
`raise InvalidArgument()`, with BUF, LEN and OFF unchanged, STATUS 3, RES, NEED and HAVE 0 and DOUT empty. -/
def Obligations.ReservedWordsAreThoseListed : Prop :=
  (∀ cw : CmdWord, (∃ why, decode cw = .reserved why) ↔ reservedByRule cw = true) ∧
  ∀ s : State, ∃ t, execReserved s = .next t ∧ Fails s t 3 0 0

/-- A few command words, written out from the opcode map (30_encoding.md section 4), decode to the commands they stand for,
and 0x001A, the signed triad that does not exist, is reserved (30_encoding.md section 3). The name of its reason,
`illegalFlags`, is the model's choice (assumption log 10). -/
def Obligations.SampleWordsDecode : Prop :=
  decode 0b0000000000000000 = .instr .getU8 ∧ decode 0b0000000010010100 = .instr .put16Le ∧
  decode 0b0000001100110001 = .instr (.getF32rBe 3) ∧ decode 0b0000000001001010 = .instr .getSv64 ∧
  decode 0b0000000001111100 = .instr .getbuf ∧ decode 0b0000000000011010 = .reserved .illegalFlags

/-- A step runs the decoded command: when the first pending event is a command whose word decodes to `i`, the step is
`exec i` on the state with the command's OPND and PAY at the interface, the response recorded, and OPND, PAY and DOUT idle
again; a fault of `exec i` is the step's; no command is refused (00_scope.md section 5; the queue and the record are the
model's, assumption log 1, 2 and 3). -/
def Obligations.StepRunsTheDecodedCommand : Prop :=
  ∀ (s : State) (c : Command) (rest : List HostEvent) (i : Instr), s.pending = .command c :: rest →
    decode c.cw = .instr i →
    (∀ t, exec i { s with opnd := c.opnd, pay := c.pay, pending := rest } = .next t →
      step s = .next { t with
        opnd := 0, pay := [], dout := []
        responses := t.responses ++
          [{ status := t.status, res := t.res, need := t.need, have_ := t.have_, dout := t.dout }] }) ∧
    (∀ f, exec i { s with opnd := c.opnd, pay := c.pay, pending := rest } = .fault f → step s = .fault f) ∧
    (∀ r, exec i { s with opnd := c.opnd, pay := c.pay, pending := rest } ≠ .refused r ∧ step s ≠ .refused r)

/-- A step takes a reserved word as `execReserved` does and delivers the response: when the first pending event is a command
whose word is reserved, the step leaves BUF, LEN, OFF and the parameters, and answers InvalidArgument (30_encoding.md
section 3; the queue, the idle interface and the record are the model's choice, assumption log 1, 2 and 3). -/
def Obligations.StepAnswersAReservedWord : Prop :=
  ∀ (s : State) (c : Command) (rest : List HostEvent), s.pending = .command c :: rest → reservedByRule c.cw = true →
    step s = .next { s with
      status := 3, res := 0, need := 0, have_ := 0
      opnd := 0, pay := [], dout := []
      pending := rest
      responses := s.responses ++ [{ status := 3, res := 0, need := 0, have_ := 0, dout := [] }] }

/-! ### Bytes, booleans and fixed-width integers -/

/-- 40_byte_bool.md R80 (GET.U8) and R82 (GET.BOOL). -/
def Obligations.ByteReadsFollowTheirRules : Prop :=
  FixedReadRule 0x0000 .getU8 1 (fun _ bs => match bs with | [b] => b.setWidth 64 | _ => 0) ∧
  FixedReadRule 0x0008 .getBool 1 (fun _ bs => if bs = [0x00] then 0 else 1)

/-- 40_byte_bool.md R81 (PUT.8) and R83 (PUT.BOOL). -/
def Obligations.ByteWritesFollowTheirRules : Prop :=
  WriteRule 0x0080 .put8 (fun s => [s.opnd.extractLsb' 0 8]) ∧
  WriteRule 0x0088 .putBool (fun s => if s.opnd = 0 then [0x00] else [0x01])

/-- 41_fixed_int.md R91 to R94: the four 16-bit reads. -/
def Obligations.ShortReadsFollowTheirRules : Prop :=
  FixedReadRule 0x0010 .getU16Be 2
    (fun _ bs => match bs with | [b0, b1] => (b0 ++ b1 : BitVec 16).setWidth 64 | _ => 0) ∧
  FixedReadRule 0x0012 .getS16Be 2
    (fun _ bs => match bs with | [b0, b1] => (b0 ++ b1 : BitVec 16).signExtend 64 | _ => 0) ∧
  FixedReadRule 0x0014 .getU16Le 2
    (fun _ bs => match bs with | [b0, b1] => (b1 ++ b0 : BitVec 16).setWidth 64 | _ => 0) ∧
  FixedReadRule 0x0016 .getS16Le 2
    (fun _ bs => match bs with | [b0, b1] => (b1 ++ b0 : BitVec 16).signExtend 64 | _ => 0)

/-- 41_fixed_int.md R95 and R96: the two 16-bit writes. -/
def Obligations.ShortWritesFollowTheirRules : Prop :=
  WriteRule 0x0090 .put16Be (fun s => [s.opnd.extractLsb' 8 8, s.opnd.extractLsb' 0 8]) ∧
  WriteRule 0x0094 .put16Le (fun s => [s.opnd.extractLsb' 0 8, s.opnd.extractLsb' 8 8])

/-- 41_fixed_int.md R97 and R98: the two 24-bit reads. -/
def Obligations.TriadReadsFollowTheirRules : Prop :=
  FixedReadRule 0x0018 .getU24Be 3
    (fun _ bs => match bs with | [b0, b1, b2] => (b0 ++ b1 ++ b2 : BitVec 24).setWidth 64 | _ => 0) ∧
  FixedReadRule 0x001C .getU24Le 3
    (fun _ bs => match bs with | [b0, b1, b2] => (b2 ++ b1 ++ b0 : BitVec 24).setWidth 64 | _ => 0)

/-- 41_fixed_int.md R99 and R100: the two 24-bit writes. -/
def Obligations.TriadWritesFollowTheirRules : Prop :=
  WriteRule 0x0098 .put24Be (fun s => [s.opnd.extractLsb' 16 8, s.opnd.extractLsb' 8 8, s.opnd.extractLsb' 0 8]) ∧
  WriteRule 0x009C .put24Le (fun s => [s.opnd.extractLsb' 0 8, s.opnd.extractLsb' 8 8, s.opnd.extractLsb' 16 8])

/-- 41_fixed_int.md R101 to R104: the four 32-bit reads. -/
def Obligations.IntReadsFollowTheirRules : Prop :=
  FixedReadRule 0x0020 .getU32Be 4
    (fun _ bs => match bs with | [b0, b1, b2, b3] => (b0 ++ b1 ++ b2 ++ b3 : BitVec 32).setWidth 64 | _ => 0) ∧
  FixedReadRule 0x0022 .getS32Be 4
    (fun _ bs => match bs with | [b0, b1, b2, b3] => (b0 ++ b1 ++ b2 ++ b3 : BitVec 32).signExtend 64 | _ => 0) ∧
  FixedReadRule 0x0024 .getU32Le 4
    (fun _ bs => match bs with | [b0, b1, b2, b3] => (b3 ++ b2 ++ b1 ++ b0 : BitVec 32).setWidth 64 | _ => 0) ∧
  FixedReadRule 0x0026 .getS32Le 4
    (fun _ bs => match bs with | [b0, b1, b2, b3] => (b3 ++ b2 ++ b1 ++ b0 : BitVec 32).signExtend 64 | _ => 0)

/-- 41_fixed_int.md R105 and R106: the two 32-bit writes. -/
def Obligations.IntWritesFollowTheirRules : Prop :=
  WriteRule 0x00A0 .put32Be (fun s =>
    [s.opnd.extractLsb' 24 8, s.opnd.extractLsb' 16 8, s.opnd.extractLsb' 8 8, s.opnd.extractLsb' 0 8]) ∧
  WriteRule 0x00A4 .put32Le (fun s =>
    [s.opnd.extractLsb' 0 8, s.opnd.extractLsb' 8 8, s.opnd.extractLsb' 16 8, s.opnd.extractLsb' 24 8])

/-- 41_fixed_int.md R107 to R110: the four 64-bit reads; the signed and the unsigned read leave the same 64 bits. -/
def Obligations.LongReadsFollowTheirRules : Prop :=
  FixedReadRule 0x0028 .getU64Be 8 (fun _ bs => match bs with
    | [b0, b1, b2, b3, b4, b5, b6, b7] => (b0 ++ b1 ++ b2 ++ b3 ++ b4 ++ b5 ++ b6 ++ b7 : BitVec 64) | _ => 0) ∧
  FixedReadRule 0x002A .getS64Be 8 (fun _ bs => match bs with
    | [b0, b1, b2, b3, b4, b5, b6, b7] => (b0 ++ b1 ++ b2 ++ b3 ++ b4 ++ b5 ++ b6 ++ b7 : BitVec 64) | _ => 0) ∧
  FixedReadRule 0x002C .getU64Le 8 (fun _ bs => match bs with
    | [b0, b1, b2, b3, b4, b5, b6, b7] => (b7 ++ b6 ++ b5 ++ b4 ++ b3 ++ b2 ++ b1 ++ b0 : BitVec 64) | _ => 0) ∧
  FixedReadRule 0x002E .getS64Le 8 (fun _ bs => match bs with
    | [b0, b1, b2, b3, b4, b5, b6, b7] => (b7 ++ b6 ++ b5 ++ b4 ++ b3 ++ b2 ++ b1 ++ b0 : BitVec 64) | _ => 0)

/-- 41_fixed_int.md R111 and R112: the two 64-bit writes. -/
def Obligations.LongWritesFollowTheirRules : Prop :=
  WriteRule 0x00A8 .put64Be (fun s =>
    [s.opnd.extractLsb' 56 8, s.opnd.extractLsb' 48 8, s.opnd.extractLsb' 40 8, s.opnd.extractLsb' 32 8,
      s.opnd.extractLsb' 24 8, s.opnd.extractLsb' 16 8, s.opnd.extractLsb' 8 8, s.opnd.extractLsb' 0 8]) ∧
  WriteRule 0x00AC .put64Le (fun s =>
    [s.opnd.extractLsb' 0 8, s.opnd.extractLsb' 8 8, s.opnd.extractLsb' 16 8, s.opnd.extractLsb' 24 8,
      s.opnd.extractLsb' 32 8, s.opnd.extractLsb' 40 8, s.opnd.extractLsb' 48 8, s.opnd.extractLsb' 56 8])

/-! ### Floats -/

/-- 42_float.md R123, R124, R127, R128: the plain reads give the bit pattern as read. -/
def Obligations.FloatReadsKeepThePattern : Prop :=
  FixedReadRule 0x0030 .getF32Be 4
    (fun _ bs => match bs with | [b0, b1, b2, b3] => (b0 ++ b1 ++ b2 ++ b3 : BitVec 32).setWidth 64 | _ => 0) ∧
  FixedReadRule 0x0034 .getF32Le 4
    (fun _ bs => match bs with | [b0, b1, b2, b3] => (b3 ++ b2 ++ b1 ++ b0 : BitVec 32).setWidth 64 | _ => 0) ∧
  FixedReadRule 0x0038 .getF64Be 8 (fun _ bs => match bs with
    | [b0, b1, b2, b3, b4, b5, b6, b7] => (b0 ++ b1 ++ b2 ++ b3 ++ b4 ++ b5 ++ b6 ++ b7 : BitVec 64) | _ => 0) ∧
  FixedReadRule 0x003C .getF64Le 8 (fun _ bs => match bs with
    | [b0, b1, b2, b3, b4, b5, b6, b7] => (b7 ++ b6 ++ b5 ++ b4 ++ b3 ++ b2 ++ b1 ++ b0 : BitVec 64) | _ => 0)

/-- 42_float.md R125, R126, R129, R130: the writes append the bit pattern as given. -/
def Obligations.FloatWritesKeepThePattern : Prop :=
  WriteRule 0x00B0 .putF32Be (fun s =>
    [s.opnd.extractLsb' 24 8, s.opnd.extractLsb' 16 8, s.opnd.extractLsb' 8 8, s.opnd.extractLsb' 0 8]) ∧
  WriteRule 0x00B4 .putF32Le (fun s =>
    [s.opnd.extractLsb' 0 8, s.opnd.extractLsb' 8 8, s.opnd.extractLsb' 16 8, s.opnd.extractLsb' 24 8]) ∧
  WriteRule 0x00B8 .putF64Be (fun s =>
    [s.opnd.extractLsb' 56 8, s.opnd.extractLsb' 48 8, s.opnd.extractLsb' 40 8, s.opnd.extractLsb' 32 8,
      s.opnd.extractLsb' 24 8, s.opnd.extractLsb' 16 8, s.opnd.extractLsb' 8 8, s.opnd.extractLsb' 0 8]) ∧
  WriteRule 0x00BC .putF64Le (fun s =>
    [s.opnd.extractLsb' 0 8, s.opnd.extractLsb' 8 8, s.opnd.extractLsb' 16 8, s.opnd.extractLsb' 24 8,
      s.opnd.extractLsb' 32 8, s.opnd.extractLsb' 40 8, s.opnd.extractLsb' 48 8, s.opnd.extractLsb' 56 8])

/-- 42_float.md R131 and R132: the rounded reads give `RoundDec32` of the pattern, for every precision. -/
def Obligations.RoundedReadsFollowTheirRules : Prop :=
  ∀ prec, prec < 256 →
    FixedReadRule (BitVec.ofNat 16 (prec * 256 + 0x31)) (.getF32rBe prec) 4 (fun s bs => match bs with
      | [b0, b1, b2, b3] => roundDec32 s.config.tieRule (b0 ++ b1 ++ b2 ++ b3 : BitVec 32) prec | _ => 0) ∧
    FixedReadRule (BitVec.ofNat 16 (prec * 256 + 0x35)) (.getF32rLe prec) 4 (fun s bs => match bs with
      | [b0, b1, b2, b3] => roundDec32 s.config.tieRule (b3 ++ b2 ++ b1 ++ b0 : BitVec 32) prec | _ => 0)

/-- 42_float.md R133: `RoundDec32` over exact rationals: NaN, infinity, and otherwise the magnitude times 10^p rounded to
an integer under the tie rule, divided by 10^p and rounded once to binary64, under the sign of the pattern. -/
def Obligations.RoundDec32FollowsItsRule : Prop :=
  ∀ (tie : TieRule) (w : BitVec 32) (p : Nat), p < 256 →
    ((w.extractLsb' 23 8).toNat = 255 → w.extractLsb' 0 23 ≠ 0 → roundDec32 tie w p = 0x7FF8000000000000) ∧
    ((w.extractLsb' 23 8).toNat = 255 → w.extractLsb' 0 23 = 0 →
      roundDec32 tie w p = w.extractLsb' 31 1 ++ (0x7FF0000000000000 : Word64).extractLsb' 0 63) ∧
    ((w.extractLsb' 23 8).toNat ≠ 255 → ∃ q : ℕ, RoundsTo tie (absValue32 w * 10 ^ p) q ∧
      (q = 0 → roundDec32 tie w p = w.extractLsb' 31 1 ++ (0 : BitVec 63)) ∧
      (q ≠ 0 → ∃ d : Word64, IsRne64 ((q : ℚ) / 10 ^ p) d ∧
        roundDec32 tie w p = w.extractLsb' 31 1 ++ d.extractLsb' 0 63))

/-- 42_float.md R134: `RNE64` of a positive rational in the normal range of binary64. -/
def Obligations.Rne64FollowsItsRule : Prop :=
  ∀ num den : Nat, 0 < num → 0 < den → (2 : ℚ) ^ (-1022 : ℤ) ≤ (num : ℚ) / den →
    (num : ℚ) / den ≤ (2 - 2 ^ (-52 : ℤ)) * 2 ^ (1023 : ℤ) → IsRne64 ((num : ℚ) / den) (rne64 num den)

/-- The rounded read's result has the sign bit of its input, but for a NaN, whose result has sign bit 0 (42_float.md
section 4, the spec's own inference in rule R135). -/
def Obligations.RoundedReadKeepsTheSign : Prop :=
  ∀ (tie : TieRule) (w : BitVec 32) (p : Nat),
    (roundDec32 tie w p).msb =
      (w.msb && !(decide ((w.extractLsb' 23 8).toNat = 255) && decide (w.extractLsb' 0 23 ≠ 0)))

/-- If x * 10^p is an integer the rounded read's result is x exactly, widened to binary64; that is so for every p from 149,
and for p = 0 at magnitude 2^23 or more (42_float.md section 4, the spec's own inference in rule R135). -/
def Obligations.RoundedReadIsExactOnIntegers : Prop :=
  ∀ (tie : TieRule) (w : BitVec 32) (p : Nat), p < 256 → (w.extractLsb' 23 8).toNat ≠ 255 →
    ((∃ k : ℕ, absValue32 w * 10 ^ p = k) → absValue64 (roundDec32 tie w p) = absValue32 w) ∧
    (149 ≤ p ∨ (p = 0 ∧ 2 ^ 23 ≤ absValue32 w) → ∃ k : ℕ, absValue32 w * 10 ^ p = k)

/-- The rounded read of a finite value is zero or a normal binary64: its exponent field lies between 1 and 2046
(42_float.md section 4, the spec's own inference in rule R134). -/
def Obligations.RoundedReadIsZeroOrNormal : Prop :=
  ∀ (tie : TieRule) (w : BitVec 32) (p : Nat), p < 256 → (w.extractLsb' 23 8).toNat ≠ 255 →
    (roundDec32 tie w p).extractLsb' 0 63 = 0 ∨
    (1 ≤ ((roundDec32 tie w p).extractLsb' 52 11).toNat ∧ ((roundDec32 tie w p).extractLsb' 52 11).toNat ≤ 2046)

/-! ### Variable-length integers -/

/-- 43_varint.md R146 (GET.UV32) and R150 (GET.UV64): the value of the sequence modulo 2^W, or MalformedVarint. -/
def Obligations.UnsignedVarReadsFollowTheirRules : Prop :=
  VarReadRule 0x0040 .getUv32 5 (fun g => BitVec.ofNat 64 (g % 2 ^ 32)) ∧
  VarReadRule 0x0048 .getUv64 10 (fun g => BitVec.ofNat 64 (g % 2 ^ 64))

/-- 43_varint.md R147 (GET.SV32) and R151 (GET.SV64): the zigzag-decoded value, sign-extended, or MalformedVarint. -/
def Obligations.SignedVarReadsFollowTheirRules : Prop :=
  VarReadRule 0x0042 .getSv32 5 (fun g => BitVec.ofInt 64 (intOfZigZag (g % 2 ^ 32))) ∧
  VarReadRule 0x004A .getSv64 10 (fun g => BitVec.ofInt 64 (intOfZigZag (g % 2 ^ 64)))

/-- 43_varint.md R148 (PUT.UV32) and R152 (PUT.UV64): the shortest encoding of OPND's low W bits. -/
def Obligations.UnsignedVarWritesFollowTheirRules : Prop :=
  VarWriteRule 0x00C0 .putUv32 5 (fun s => s.opnd.toNat % 2 ^ 32) ∧
  VarWriteRule 0x00C8 .putUv64 10 (fun s => s.opnd.toNat)

/-- 43_varint.md R149 (PUT.SV32) and R153 (PUT.SV64): the shortest encoding of the zigzag image of OPND's low W bits read
as two's complement. -/
def Obligations.SignedVarWritesFollowTheirRules : Prop :=
  VarWriteRule 0x00C2 .putSv32 5 (fun s => zigZagOfInt (s.opnd.setWidth 32).toInt) ∧
  VarWriteRule 0x00CA .putSv64 10 (fun s => zigZagOfInt s.opnd.toInt)

/-- 43_varint.md R144: the zigzag map is 2v for v >= 0 and -2v - 1 for v < 0, and is the shift and the sign mask. -/
def Obligations.ZigZagIsTheIntegerMap : Prop :=
  (∀ v : BitVec 32, (zigZagEnc v).toNat = zigZagOfInt v.toInt ∧
    zigZagEnc v = (v <<< 1) ^^^ (if v.getLsbD 31 then 0xFFFFFFFF else 0)) ∧
  (∀ v : BitVec 64, (zigZagEnc v).toNat = zigZagOfInt v.toInt ∧
    zigZagEnc v = (v <<< 1) ^^^ (if v.getLsbD 63 then 0xFFFFFFFFFFFFFFFF else 0))

/-- The zigzag map is a bijection, and its inverse gives the signed integer (43_varint.md section 2, the spec's own
inference in rule R145). -/
def Obligations.ZigZagIsABijection : Prop :=
  (∀ v : BitVec 32, zigZagDec (zigZagEnc v) = v ∧ zigZagEnc (zigZagDec v) = v ∧
    (zigZagDec v).toInt = intOfZigZag v.toNat) ∧
  (∀ v : BitVec 64, zigZagDec (zigZagEnc v) = v ∧ zigZagEnc (zigZagDec v) = v ∧
    (zigZagDec v).toInt = intOfZigZag v.toNat)

/-- The encoding is the shortest terminated sequence that carries the number, with a byte for each seven bits begun
(43_varint.md section 2, the spec's own inference in rule R141). -/
def Obligations.VarEncodingIsTheShortest : Prop :=
  (∀ u : BitVec 32, IsVarEncoding u.toNat (varEnc 5 u) ∧
    (∀ bs, Terminated bs → groupsValue bs = u.toNat → (varEnc 5 u).length ≤ bs.length) ∧
    ∀ k, 1 < k → ((varEnc 5 u).length = k ↔ 2 ^ (7 * (k - 1)) ≤ u.toNat ∧ u.toNat < 2 ^ (7 * k))) ∧
  (∀ u : BitVec 64, IsVarEncoding u.toNat (varEnc 10 u) ∧
    (∀ bs, Terminated bs → groupsValue bs = u.toNat → (varEnc 10 u).length ≤ bs.length) ∧
    ∀ k, 1 < k → ((varEnc 10 u).length = k ↔ 2 ^ (7 * (k - 1)) ≤ u.toNat ∧ u.toNat < 2 ^ (7 * k)))

/-! ### Stream commands -/

/-- 44_stream.md R160: GET.RAW. The sign test comes first; a length of 0 succeeds and moves nothing. -/
def Obligations.GetRawFollowsItsRule : Prop :=
  decode 0x0050 = .instr .getRaw ∧ ∀ s : State, s.BufSound →
    (s.opnd.toInt < 0 → ∃ t, exec .getRaw s = .next t ∧ Fails s t 3 0 0) ∧
    (s.opnd.toInt = 0 → ∃ t, exec .getRaw s = .next t ∧ ReadsForward s t 0 0 []) ∧
    (0 < s.opnd.toInt → s.len.toNat - s.off.toNat < s.opnd.toNat →
      ∃ t, exec .getRaw s = .next t ∧ Fails s t 1 s.opnd.toNat (s.len.toNat - s.off.toNat)) ∧
    (0 < s.opnd.toInt → s.opnd.toNat ≤ s.len.toNat - s.off.toNat →
      ∃ bs t, bs.length = s.opnd.toNat ∧ BytesAt s.buf s.off.toNat bs ∧ exec .getRaw s = .next t ∧
        ReadsForward s t s.opnd.toNat s.opnd bs)

/-- 44_stream.md R161: PUT.RAW. -/
def Obligations.PutRawFollowsItsRule : Prop := WriteRule 0x00D0 .putRaw (fun s => s.pay)

/-- 44_stream.md R162: GET.REM. -/
def Obligations.GetRemFollowsItsRule : Prop :=
  decode 0x0058 = .instr .getRem ∧ ∀ s : State, s.BufSound →
    (s.len.toNat ≤ s.off.toNat → ∃ t, exec .getRem s = .next t ∧ Fails s t 1 1 0) ∧
    (s.off.toNat < s.len.toNat →
      ∃ bs t, bs.length = s.len.toNat - s.off.toNat ∧ BytesAt s.buf s.off.toNat bs ∧ exec .getRem s = .next t ∧
        ReadsForward s t bs.length (BitVec.ofNat 64 bs.length) bs ∧ t.off = s.len)

/-- 44_stream.md R163: CONSTRUCT, for every state: the offset test, then the capacity test, then BUF, LEN and OFF
replaced. -/
def Obligations.ConstructFollowsItsRule : Prop :=
  decode 0x0078 = .instr .construct ∧ ∀ s : State,
    (s.pay.length < s.opnd.toNat → ∃ t, exec .construct s = .next t ∧ Fails s t 3 0 0) ∧
    (s.opnd.toNat ≤ s.pay.length → s.config.bufcap.val < s.pay.length →
      ∃ t, exec .construct s = .next t ∧ Fails s t 5 0 0) ∧
    (s.opnd.toNat ≤ s.pay.length → s.pay.length ≤ s.config.bufcap.val →
      ∃ t, exec .construct s = .next t ∧ t.len.toNat = s.pay.length ∧ t.off.toNat = s.opnd.toNat ∧
        BytesAt t.buf 0 s.pay ∧ (∀ a, s.pay.length ≤ a → t.buf.read a = none) ∧ RespondsOk t 0 [] ∧ SameInterface s t)

/-- 44_stream.md R164 (REWIND) and R165 (SETOFF), for every state. -/
def Obligations.CursorCommandsFollowTheirRules : Prop :=
  decode 0x0079 = .instr .rewind ∧ decode 0x007A = .instr .setoff ∧ ∀ s : State,
    (∃ t, exec .rewind s = .next t ∧ t.off = 0 ∧ RespondsOk t 0 [] ∧ SameBuffer s t ∧ SameInterface s t) ∧
    (s.len.toNat < s.opnd.toNat → ∃ t, exec .setoff s = .next t ∧ Fails s t 3 0 0) ∧
    (s.opnd.toNat ≤ s.len.toNat → ∃ t, exec .setoff s = .next t ∧ t.off.toNat = s.opnd.toNat ∧
      RespondsOk t 0 [] ∧ SameBuffer s t ∧ SameInterface s t)

/-- 44_stream.md R166 (GETOFF), R167 (GETBUF) and R168 (FEOF): they answer and change nothing. -/
def Obligations.InspectingCommandsFollowTheirRules : Prop :=
  decode 0x007B = .instr .getoff ∧ decode 0x007C = .instr .getbuf ∧ decode 0x007D = .instr .feof ∧
  ∀ s : State,
    (∃ t, exec .getoff s = .next t ∧ ReadsForward s t 0 (s.off.setWidth 64) []) ∧
    (s.BufBacked → ∃ bs t, bs.length = s.len.toNat ∧ BytesAt s.buf 0 bs ∧ exec .getbuf s = .next t ∧
      ReadsForward s t 0 (s.len.setWidth 64) bs) ∧
    (∃ t, exec .feof s = .next t ∧ ReadsForward s t 0 (if s.len.toNat ≤ s.off.toNat then 1 else 0) [])

/-- The relations between the stream commands (44_stream.md rule R169's list, the spec's own inference). -/
def Obligations.StreamCommandsRelate : Prop :=
  ∀ s : State, s.BufSound →
    ((∃ t, exec .feof s = .next t ∧ t.res = 1) ↔ ∃ t, exec .getRem s = .next t ∧ t.status ≠ 0) ∧
    ((∃ t, exec .feof s = .next t ∧ t.res = 1) ↔ ∃ t, exec .getU8 s = .next t ∧ t.status ≠ 0) ∧
    ((∃ t, exec .feof s = .next t ∧ t.res = 1) ↔
      ∃ t, exec .getRaw { s with opnd := 1 } = .next t ∧ t.status ≠ 0) ∧
    (∀ (i : Instr) (t u : State), 0 < fixedReadWidth i → exec i s = .next t →
      exec .getRaw { s with opnd := BitVec.ofNat 64 (fixedReadWidth i) } = .next u →
      u.status = t.status ∧ u.need = t.need ∧ u.have_ = t.have_ ∧ u.off = t.off) ∧
    (s.off.toNat < s.len.toNat →
      exec .getRem { s with opnd := BitVec.ofNat 64 (s.len.toNat - s.off.toNat) } =
        exec .getRaw { s with opnd := BitVec.ofNat 64 (s.len.toNat - s.off.toNat) }) ∧
    exec .rewind { s with opnd := 0 } = exec .setoff { s with opnd := 0 } ∧
    (0 < s.len.toNat → ∃ t u v, exec .getbuf s = .next t ∧ exec .rewind s = .next u ∧ exec .getRem u = .next v ∧
      v.dout = t.dout ∧ t.off = s.off)

/-! ### Retry, round trips, start-up -/

/-- 20_memory.md R53: a failed read leaves BUF, LEN and OFF as they were, and the same read repeated succeeds once the
missing bytes are appended: enough bytes after InsufficientData, a terminated sequence after MalformedVarint. -/
def Obligations.RetryAfterAppendSucceeds : Prop :=
  ∀ (i : Instr) (s t : State), s.BufSound → s.len.toNat + s.pay.length ≤ s.config.bufcap.val → exec i s = .next t →
    (t.status = 1 → t.off = s.off ∧ SameBuffer s t ∧
      (bytesAsked i s ≤ s.len.toNat - s.off.toNat + s.pay.length →
        ∃ u v, exec .putRaw t = .next u ∧ u.status = 0 ∧ exec i u = .next v ∧ v.status = 0 ∧
          (i ≠ .getRem → v.off.toNat = s.off.toNat + bytesAsked i s))) ∧
    (t.status = 2 → t.off = s.off ∧ SameBuffer s t ∧
      ∃ u, exec .putRaw t = .next u ∧ u.status = 0 ∧
        ∀ k, SequenceAtCursor u (varReadLimit i) k →
          ∃ v, exec i u = .next v ∧ v.status = 0 ∧ v.off.toNat = s.off.toNat + (k + 1))

/-- A failed command repeated at once fails again in the very same way (70_reset_and_hazards.md section 2, the spec's own
inference in rule R206). -/
def Obligations.RepeatedFailureIsTheSame : Prop :=
  ∀ (i : Instr) (s t : State), exec i s = .next t → t.status ≠ 0 → exec i t = .next t

/-- From a cursor at the end of BUF, what a fixed-width PUT appends, the GET of the same width and order reads back,
truncated to the width and extended as the GET says (the spec's own inferences in rules R84, R113, R114 and R136). -/
def Obligations.FixedWidthRoundTrip : Prop :=
  ∀ x ∈ ([(.put8, .getU8, fun v => (v.setWidth 8).setWidth 64), (.putBool, .getBool, fun v => if v = 0 then 0 else 1),
      (.put16Be, .getU16Be, fun v => (v.setWidth 16).setWidth 64), (.put16Be, .getS16Be, fun v => (v.setWidth 16).signExtend 64),
      (.put16Le, .getU16Le, fun v => (v.setWidth 16).setWidth 64), (.put16Le, .getS16Le, fun v => (v.setWidth 16).signExtend 64),
      (.put24Be, .getU24Be, fun v => (v.setWidth 24).setWidth 64), (.put24Le, .getU24Le, fun v => (v.setWidth 24).setWidth 64),
      (.put32Be, .getU32Be, fun v => (v.setWidth 32).setWidth 64), (.put32Be, .getS32Be, fun v => (v.setWidth 32).signExtend 64),
      (.put32Le, .getU32Le, fun v => (v.setWidth 32).setWidth 64), (.put32Le, .getS32Le, fun v => (v.setWidth 32).signExtend 64),
      (.put64Be, .getU64Be, fun v => v), (.put64Be, .getS64Be, fun v => v),
      (.put64Le, .getU64Le, fun v => v), (.put64Le, .getS64Le, fun v => v),
      (.putF32Be, .getF32Be, fun v => (v.setWidth 32).setWidth 64), (.putF32Le, .getF32Le, fun v => (v.setWidth 32).setWidth 64),
      (.putF64Be, .getF64Be, fun v => v), (.putF64Le, .getF64Le, fun v => v)] : List (Instr × Instr × (Word64 → Word64))),
    ∀ s : State, s.BufSound → s.off = s.len → s.len.toNat + fixedReadWidth x.2.1 ≤ s.config.bufcap.val →
      ∃ t u, exec x.1 s = .next t ∧ t.status = 0 ∧ exec x.2.1 t = .next u ∧ u.status = 0 ∧
        u.res = x.2.2 s.opnd ∧ u.off = u.len ∧ u.len = t.len

/-- With the cursor at the bytes that a variable-length PUT appended, the GET of the same domain reads the value back and
consumes exactly those bytes (the spec's own inference in rule R154). Across the domains (its inference in rule R155): what
the 32-bit domain writes, the 64-bit domain reads; PUT.UV64 read by GET.UV32 is truncated to 32 bits where it has at most
five bytes, and malformed where it has more; PUT.SV64 read by GET.SV32 is the same value from -2^31 to 2^31 - 1. -/
def Obligations.VarintRoundTrip : Prop :=
  (∀ x ∈ ([(.putUv32, .getUv32, fun v => (v.setWidth 32).setWidth 64), (.putSv32, .getSv32, fun v => (v.setWidth 32).signExtend 64),
      (.putUv64, .getUv64, fun v => v), (.putSv64, .getSv64, fun v => v),
      (.putUv32, .getUv64, fun v => (v.setWidth 32).setWidth 64),
      (.putSv32, .getSv64, fun v => (v.setWidth 32).signExtend 64)] : List (Instr × Instr × (Word64 → Word64))),
    ∀ s : State, s.BufSound → s.len.toNat + bytesPut x.1 s ≤ s.config.bufcap.val →
      ∃ t u, exec x.1 s = .next t ∧ t.status = 0 ∧ exec x.2.1 { t with off := s.len } = .next u ∧ u.status = 0 ∧
        u.res = x.2.2 s.opnd ∧ u.off = u.len ∧ u.len = t.len) ∧
  (∀ s : State, s.BufSound → s.len.toNat + bytesPut .putUv64 s ≤ s.config.bufcap.val →
    ∃ t u, exec .putUv64 s = .next t ∧ t.status = 0 ∧ exec .getUv32 { t with off := s.len } = .next u ∧
      (bytesPut .putUv64 s ≤ 5 → u.status = 0 ∧ u.res = (s.opnd.setWidth 32).setWidth 64 ∧ u.off = u.len ∧ u.len = t.len) ∧
      (5 < bytesPut .putUv64 s → Fails { t with off := s.len } u 2 0 0)) ∧
  (∀ s : State, s.BufSound → s.len.toNat + bytesPut .putSv64 s ≤ s.config.bufcap.val →
    -2 ^ 31 ≤ s.opnd.toInt → s.opnd.toInt < 2 ^ 31 →
    ∃ t u, exec .putSv64 s = .next t ∧ t.status = 0 ∧ exec .getSv32 { t with off := s.len } = .next u ∧ u.status = 0 ∧
      u.res = s.opnd ∧ u.off = u.len ∧ u.len = t.len)

/-- The unit is usable from reset: what every command answers on the reset state, for every parameter, operand and payload
(70_reset_and_hazards.md section 1, rule R201's list; CONSTRUCT, GET.RAW with a negative length, SETOFF with a non-zero
operand and a PUT that BUFCAP does not allow are added from 44_stream.md and 60_exceptions.md). -/
def Obligations.EveryCommandRunsFromReset : Prop :=
  ∀ (cfg : Config) (o : Word64) (p : List Byte),
    (∀ i, 0 < fixedReadWidth i ∨ i = .getRem ∨ (i = .getRaw ∧ 0 < o.toInt) →
      ∃ t, exec i (State.resetWith cfg o p) = .next t ∧
        Fails (State.resetWith cfg o p) t 1 (bytesAsked i (State.resetWith cfg o p)) 0) ∧
    (∀ i, 0 < varReadLimit i →
      ∃ t, exec i (State.resetWith cfg o p) = .next t ∧ Fails (State.resetWith cfg o p) t 2 0 0) ∧
    (∀ i, (i = .getRaw ∨ i = .setoff) ∧ o = 0 →
      ∃ t, exec i (State.resetWith cfg o p) = .next t ∧ ReadsForward (State.resetWith cfg o p) t 0 0 []) ∧
    (∀ i, (i = .getRaw ∧ o.toInt < 0) ∨ (i = .setoff ∧ o ≠ 0) ∨ (i = .construct ∧ p.length < o.toNat) →
      ∃ t, exec i (State.resetWith cfg o p) = .next t ∧ Fails (State.resetWith cfg o p) t 3 0 0) ∧
    (∀ x ∈ ([(.getoff, 0), (.getbuf, 0), (.feof, 1), (.rewind, 0)] : List (Instr × Word64)),
      ∃ t, exec x.1 (State.resetWith cfg o p) = .next t ∧ ReadsForward (State.resetWith cfg o p) t 0 x.2 []) ∧
    (∀ i, isPut i = true → bytesPut i (State.resetWith cfg o p) ≤ cfg.bufcap.val →
      ∃ t bs, exec i (State.resetWith cfg o p) = .next t ∧ bs.length = bytesPut i (State.resetWith cfg o p) ∧
        Appends (State.resetWith cfg o p) t bs) ∧
    (∀ i, (isPut i = true ∧ cfg.bufcap.val < bytesPut i (State.resetWith cfg o p)) ∨
        (i = .construct ∧ o.toNat ≤ p.length ∧ cfg.bufcap.val < p.length) →
      ∃ t, exec i (State.resetWith cfg o p) = .next t ∧ Fails (State.resetWith cfg o p) t 5 0 0) ∧
    (o.toNat ≤ p.length → p.length ≤ cfg.bufcap.val →
      ∃ t, exec .construct (State.resetWith cfg o p) = .next t ∧ t.len.toNat = p.length ∧ t.off.toNat = o.toNat ∧
        BytesAt t.buf 0 p ∧ RespondsOk t 0 [] ∧ SameInterface (State.resetWith cfg o p) t)
end

