-- ==== Sys2Proof/Laws/Memory.lean ====
section
/-!
SUPPORT. Laws/Memory.lean: the laws of BUF as cells: a read after a write, the canonical form is kept, a string written is
the string read, and BUF stays the cells 0 to LEN-1 under an append.
-/

namespace Sys2Proof.Machine

/-! ### Reading one byte -/

@[simp] theorem Memory.read_nil (a : Nat) : Memory.read [] a = none := rfl

theorem Memory.read_cons (k : Nat) (b : Byte) (m : Memory) (a : Nat) :
    Memory.read ((k, b) :: m) a = if a = k then some b else Memory.read m a := rfl

theorem Memory.read_write_same (m : Memory) (a : Nat) (b : Byte) : (m.write a b).read a = some b := by
  induction m with
  | nil => simp [Memory.write, Memory.read_cons]
  | cons c m ih =>
    obtain ⟨k, x⟩ := c
    unfold Memory.write
    split
    · simp [Memory.read_cons]
    · split
      · simp [Memory.read_cons]
      · rename_i h; simp [Memory.read_cons, h, ih]

theorem Memory.read_write_other (m : Memory) (a c : Nat) (b : Byte) (h : c ≠ a) :
    (m.write a b).read c = m.read c := by
  induction m with
  | nil => simp [Memory.write, Memory.read_cons, h]
  | cons d m ih =>
    obtain ⟨k, x⟩ := d
    unfold Memory.write
    split
    · simp [Memory.read_cons, h]
    · split
      · rename_i hk; subst hk; simp [Memory.read_cons, h]
      · simp [Memory.read_cons, ih]

/-! ### The canonical form -/

theorem Memory.mem_keys_write (m : Memory) (a : Nat) (b : Byte) (k : Nat) :
    k ∈ (m.write a b).map Prod.fst ↔ k = a ∨ k ∈ m.map Prod.fst := by
  induction m with
  | nil => simp [Memory.write]
  | cons c m ih =>
    obtain ⟨x, y⟩ := c
    unfold Memory.write
    split
    · simp
    · split
      · rename_i h; subst h; simp
      · simp only [List.map_cons, List.mem_cons, ih]; tauto

theorem Memory.write_wf (m : Memory) (a : Nat) (b : Byte) (h : m.wf) : (m.write a b).wf := by
  induction m with
  | nil => simp [Memory.write, Memory.wf]
  | cons c m ih =>
    obtain ⟨k, x⟩ := c
    simp only [Memory.wf, List.map_cons, List.pairwise_cons] at h
    unfold Memory.write
    split
    · rename_i hlt
      simp only [Memory.wf, List.map_cons, List.pairwise_cons, List.mem_cons]
      refine ⟨?_, h⟩
      rintro c (rfl | hc)
      · exact hlt
      · exact hlt.trans (h.1 c hc)
    · split
      · rename_i hk; subst hk
        simpa only [Memory.wf, List.map_cons, List.pairwise_cons] using h
      · simp only [Memory.wf, List.map_cons, List.pairwise_cons]
        refine ⟨fun c hc => ?_, ih h.2⟩
        rcases (Memory.mem_keys_write m a b c).1 hc with rfl | hc
        · omega
        · exact h.1 c hc

theorem Memory.writeBytes_wf (m : Memory) (a : Nat) (bs : List Byte) (h : m.wf) : (m.writeBytes a bs).wf := by
  induction bs generalizing m a with
  | nil => exact h
  | cons b bs ih => exact ih _ _ (Memory.write_wf m a b h)

theorem Memory.ofBytes_wf (bs : List Byte) : (Memory.ofBytes bs).wf :=
  Memory.writeBytes_wf [] 0 bs List.Pairwise.nil

theorem reset_buf_wf : State.reset.buf.wf := List.Pairwise.nil

/-! ### Byte strings -/

theorem Memory.read_writeBytes_outside (m : Memory) (a c : Nat) (bs : List Byte)
    (h : c < a ∨ a + bs.length ≤ c) : (m.writeBytes a bs).read c = m.read c := by
  induction bs generalizing m a with
  | nil => rfl
  | cons b bs ih =>
    simp only [List.length_cons] at h
    rw [Memory.writeBytes, ih _ _ (by omega), Memory.read_write_other _ _ _ _ (by omega)]

theorem Memory.read_writeBytes_inside (m : Memory) (a k : Nat) (bs : List Byte) (h : k < bs.length) :
    (m.writeBytes a bs).read (a + k) = bs[k]? := by
  induction bs generalizing m a k with
  | nil => simp at h
  | cons b bs ih =>
    rw [Memory.writeBytes]
    cases k with
    | zero =>
      rw [Memory.read_writeBytes_outside _ _ _ _ (by omega)]
      simp [Memory.read_write_same]
    | succ k =>
      have := ih (m.write a b) (a + 1) k (by simpa using h)
      simpa [Nat.add_assoc, Nat.add_comm 1 k] using this

/-- A string written stands at its address. -/
theorem Memory.bytesAt_writeBytes (m : Memory) (a : Nat) (bs : List Byte) : BytesAt (m.writeBytes a bs) a bs :=
  fun k h => Memory.read_writeBytes_inside m a k bs h

/-- What MemRead answers: exactly the bytes that stand there, as many as asked for. -/
theorem Memory.readBytes_eq_ok (m : Memory) (a n : Nat) (bs : List Byte) :
    m.readBytes a n = .ok bs ↔ bs.length = n ∧ BytesAt m a bs := by
  induction n generalizing a bs with
  | zero =>
    constructor
    · rintro h
      have : bs = [] := by simpa [Memory.readBytes] using h.symm
      subst this; simp [BytesAt]
    · rintro ⟨h, -⟩; rw [List.length_eq_zero_iff.1 h]; rfl
  | succ n ih =>
    unfold Memory.readBytes
    cases hr : m.read a with
    | none =>
      simp only [reduceCtorEq, false_iff]
      rintro ⟨hl, hb⟩
      have := hb 0 (by omega)
      rw [Nat.add_zero, hr] at this
      have h0 : 0 < bs.length := by omega
      simp [h0] at this
    | some b =>
      cases hm : m.readBytes (a + 1) n with
      | error f =>
        simp only [reduceCtorEq, false_iff]
        rintro ⟨hl, hb⟩
        cases bs with
        | nil => simp at hl
        | cons c bs =>
          have : m.readBytes (a + 1) n = .ok bs := by
            rw [ih]
            refine ⟨by simpa using hl, fun k hk => ?_⟩
            have := hb (k + 1) (by simpa using hk)
            simpa [Nat.add_assoc, Nat.add_comm 1 k] using this
          rw [hm] at this; cases this
      | ok cs =>
        have hcs := (ih (a + 1) cs).1 hm
        simp only [Except.ok.injEq]
        constructor
        · rintro rfl
          refine ⟨by simp [hcs.1], fun k hk => ?_⟩
          cases k with
          | zero => simpa using hr
          | succ k =>
            have := hcs.2 k (by simpa using hk)
            simpa [Nat.add_assoc, Nat.add_comm 1 k] using this
        · rintro ⟨hl, hb⟩
          cases bs with
          | nil => simp at hl
          | cons c bs =>
            have h0 := hb 0 (by simp)
            rw [Nat.add_zero, hr] at h0
            have hbs : m.readBytes (a + 1) n = .ok bs := by
              rw [ih]
              refine ⟨by simpa using hl, fun k hk => ?_⟩
              have := hb (k + 1) (by simpa using hk)
              simpa [Nat.add_assoc, Nat.add_comm 1 k] using this
            rw [hm] at hbs
            simp only [Except.ok.injEq] at hbs
            simp at h0
            rw [hbs, h0]

/-- MemRead faults only where some byte asked for is absent. -/
theorem Memory.readBytes_total (m : Memory) (a n : Nat) (h : ∀ k, k < n → (m.read (a + k)).isSome) :
    ∃ bs, m.readBytes a n = .ok bs := by
  induction n generalizing a with
  | zero => exact ⟨[], rfl⟩
  | succ n ih =>
    obtain ⟨bs, hbs⟩ := ih (a + 1) fun k hk => by
      have := h (k + 1) (by omega)
      simpa [Nat.add_assoc, Nat.add_comm 1 k] using this
    obtain ⟨b, hb⟩ := Option.isSome_iff_exists.1 (h 0 (by omega))
    refine ⟨b :: bs, ?_⟩
    unfold Memory.readBytes
    rw [Nat.add_zero] at hb
    simp [hb, hbs]

/-! ### BUF as the cells 0 to LEN-1 -/

theorem Memory.read_isSome_iff (m : Memory) (a : Nat) : (m.read a).isSome ↔ a ∈ m.map Prod.fst := by
  induction m with
  | nil => simp
  | cons c m ih =>
    obtain ⟨k, b⟩ := c
    rw [Memory.read_cons]
    split
    · rename_i h; subst h; simp
    · rename_i h; simp [ih, h]

/-- A buffer with the cells 0 to n-1 is in canonical form. -/
theorem Memory.wf_of_range (m : Memory) (n : Nat) (h : m.map Prod.fst = List.range n) : m.wf := by
  rw [Memory.wf, h]; exact List.pairwise_lt_range

theorem Memory.isSome_of_range (m : Memory) (n a : Nat) (h : m.map Prod.fst = List.range n) :
    (m.read a).isSome ↔ a < n := by
  rw [Memory.read_isSome_iff, h, List.mem_range]

/-- An append at the end of a buffer with the cells 0 to n-1 leaves a buffer with the cells up to its new end. -/
theorem Memory.range_write (m : Memory) (n : Nat) (b : Byte) (h : m.map Prod.fst = List.range n) :
    (m.write n b).map Prod.fst = List.range (n + 1) := by
  have key : ∀ m : Memory, (∀ k ∈ m.map Prod.fst, k < n) → (m.write n b).map Prod.fst = m.map Prod.fst ++ [n] := by
    intro m
    induction m with
    | nil => intro _; rfl
    | cons c m ih =>
      obtain ⟨k, x⟩ := c
      intro hm
      have hk : k < n := hm k (by simp)
      unfold Memory.write
      rw [if_neg (by omega), if_neg (by omega), List.map_cons, ih fun j hj => hm j (by simp [hj])]
      rfl
  rw [key m (by rw [h]; simp), h, List.range_succ]

theorem Memory.range_writeBytes (m : Memory) (n : Nat) (bs : List Byte) (h : m.map Prod.fst = List.range n) :
    (m.writeBytes n bs).map Prod.fst = List.range (n + bs.length) := by
  induction bs generalizing m n with
  | nil => exact h
  | cons b bs ih =>
    rw [Memory.writeBytes, ih _ _ (Memory.range_write m n b h), List.length_cons]
    congr 1; omega

theorem Memory.range_ofBytes (bs : List Byte) : (Memory.ofBytes bs).map Prod.fst = List.range bs.length := by
  simpa [Memory.ofBytes] using Memory.range_writeBytes [] 0 bs rfl

/-- In a sound buffer MemRead inside LEN always answers. -/
theorem readBytes_of_backed (s : State) (h : s.BufBacked) (a n : Nat) (hn : a + n ≤ s.len.toNat) :
    ∃ bs, s.buf.readBytes a n = .ok bs ∧ bs.length = n ∧ BytesAt s.buf a bs := by
  obtain ⟨bs, hbs⟩ := Memory.readBytes_total s.buf a n fun k hk => by
    rw [Memory.isSome_of_range s.buf _ _ h]; omega
  exact ⟨bs, hbs, (Memory.readBytes_eq_ok _ _ _ _).1 hbs⟩

end Sys2Proof.Machine
end

