-- ==== Sys2Proof/Laws/State.lean ====
section
/-!
SUPPORT. Laws/State.lean: one lemma per field of the state per update, so that no later proof unfolds an update.
-/

namespace Sys2Proof.Machine

/-! ### `ok(r, d)` (rule R185) -/

@[simp] theorem State.respondOk_config (s : State) (r : Word64) (d : List Byte) : (s.respondOk r d).config = s.config := rfl
@[simp] theorem State.respondOk_buf (s : State) (r : Word64) (d : List Byte) : (s.respondOk r d).buf = s.buf := rfl
@[simp] theorem State.respondOk_len (s : State) (r : Word64) (d : List Byte) : (s.respondOk r d).len = s.len := rfl
@[simp] theorem State.respondOk_off (s : State) (r : Word64) (d : List Byte) : (s.respondOk r d).off = s.off := rfl
@[simp] theorem State.respondOk_status (s : State) (r : Word64) (d : List Byte) : (s.respondOk r d).status = 0 := rfl
@[simp] theorem State.respondOk_res (s : State) (r : Word64) (d : List Byte) : (s.respondOk r d).res = r := rfl
@[simp] theorem State.respondOk_need (s : State) (r : Word64) (d : List Byte) : (s.respondOk r d).need = 0 := rfl
@[simp] theorem State.respondOk_have_ (s : State) (r : Word64) (d : List Byte) : (s.respondOk r d).have_ = 0 := rfl
@[simp] theorem State.respondOk_opnd (s : State) (r : Word64) (d : List Byte) : (s.respondOk r d).opnd = s.opnd := rfl
@[simp] theorem State.respondOk_pay (s : State) (r : Word64) (d : List Byte) : (s.respondOk r d).pay = s.pay := rfl
@[simp] theorem State.respondOk_dout (s : State) (r : Word64) (d : List Byte) : (s.respondOk r d).dout = d := rfl
@[simp] theorem State.respondOk_pending (s : State) (r : Word64) (d : List Byte) : (s.respondOk r d).pending = s.pending := rfl
@[simp] theorem State.respondOk_responses (s : State) (r : Word64) (d : List Byte) : (s.respondOk r d).responses = s.responses := rfl

/-! ### `raise K` (rule R184) -/

@[simp] theorem State.respondRaise_config (s : State) (k : Kind) : (s.respondRaise k).config = s.config := rfl
@[simp] theorem State.respondRaise_buf (s : State) (k : Kind) : (s.respondRaise k).buf = s.buf := rfl
@[simp] theorem State.respondRaise_len (s : State) (k : Kind) : (s.respondRaise k).len = s.len := rfl
@[simp] theorem State.respondRaise_off (s : State) (k : Kind) : (s.respondRaise k).off = s.off := rfl
@[simp] theorem State.respondRaise_status (s : State) (k : Kind) : (s.respondRaise k).status = k.code := rfl
@[simp] theorem State.respondRaise_res (s : State) (k : Kind) : (s.respondRaise k).res = 0 := rfl
@[simp] theorem State.respondRaise_need (s : State) (k : Kind) : (s.respondRaise k).need = k.needValue := rfl
@[simp] theorem State.respondRaise_have_ (s : State) (k : Kind) : (s.respondRaise k).have_ = k.haveValue := rfl
@[simp] theorem State.respondRaise_opnd (s : State) (k : Kind) : (s.respondRaise k).opnd = s.opnd := rfl
@[simp] theorem State.respondRaise_pay (s : State) (k : Kind) : (s.respondRaise k).pay = s.pay := rfl
@[simp] theorem State.respondRaise_dout (s : State) (k : Kind) : (s.respondRaise k).dout = [] := rfl
@[simp] theorem State.respondRaise_pending (s : State) (k : Kind) : (s.respondRaise k).pending = s.pending := rfl
@[simp] theorem State.respondRaise_responses (s : State) (k : Kind) : (s.respondRaise k).responses = s.responses := rfl

/-! ### A command presented (rule R9) -/

@[simp] theorem State.present_config (s : State) (c : Command) (rest : List HostEvent) : (s.present c rest).config = s.config := rfl
@[simp] theorem State.present_buf (s : State) (c : Command) (rest : List HostEvent) : (s.present c rest).buf = s.buf := rfl
@[simp] theorem State.present_len (s : State) (c : Command) (rest : List HostEvent) : (s.present c rest).len = s.len := rfl
@[simp] theorem State.present_off (s : State) (c : Command) (rest : List HostEvent) : (s.present c rest).off = s.off := rfl
@[simp] theorem State.present_status (s : State) (c : Command) (rest : List HostEvent) : (s.present c rest).status = s.status := rfl
@[simp] theorem State.present_res (s : State) (c : Command) (rest : List HostEvent) : (s.present c rest).res = s.res := rfl
@[simp] theorem State.present_need (s : State) (c : Command) (rest : List HostEvent) : (s.present c rest).need = s.need := rfl
@[simp] theorem State.present_have_ (s : State) (c : Command) (rest : List HostEvent) : (s.present c rest).have_ = s.have_ := rfl
@[simp] theorem State.present_opnd (s : State) (c : Command) (rest : List HostEvent) : (s.present c rest).opnd = c.opnd := rfl
@[simp] theorem State.present_pay (s : State) (c : Command) (rest : List HostEvent) : (s.present c rest).pay = c.pay := rfl
@[simp] theorem State.present_dout (s : State) (c : Command) (rest : List HostEvent) : (s.present c rest).dout = s.dout := rfl
@[simp] theorem State.present_pending (s : State) (c : Command) (rest : List HostEvent) : (s.present c rest).pending = rest := rfl
@[simp] theorem State.present_responses (s : State) (c : Command) (rest : List HostEvent) : (s.present c rest).responses = s.responses := rfl

/-! ### A response delivered (rule R9) -/

@[simp] theorem State.deliver_config (s : State) : (s.deliver).config = s.config := rfl
@[simp] theorem State.deliver_buf (s : State) : (s.deliver).buf = s.buf := rfl
@[simp] theorem State.deliver_len (s : State) : (s.deliver).len = s.len := rfl
@[simp] theorem State.deliver_off (s : State) : (s.deliver).off = s.off := rfl
@[simp] theorem State.deliver_status (s : State) : (s.deliver).status = s.status := rfl
@[simp] theorem State.deliver_res (s : State) : (s.deliver).res = s.res := rfl
@[simp] theorem State.deliver_need (s : State) : (s.deliver).need = s.need := rfl
@[simp] theorem State.deliver_have_ (s : State) : (s.deliver).have_ = s.have_ := rfl
@[simp] theorem State.deliver_opnd (s : State) : (s.deliver).opnd = 0 := rfl
@[simp] theorem State.deliver_pay (s : State) : (s.deliver).pay = [] := rfl
@[simp] theorem State.deliver_dout (s : State) : (s.deliver).dout = [] := rfl
@[simp] theorem State.deliver_pending (s : State) : (s.deliver).pending = s.pending := rfl
@[simp] theorem State.deliver_responses (s : State) : (s.deliver).responses = s.responses ++ [s.response] := rfl

/-! ### Reset (rule R200) -/

@[simp] theorem State.resetUnit_config (s : State) (rest : List HostEvent) : (s.resetUnit rest).config = s.config := rfl
@[simp] theorem State.resetUnit_buf (s : State) (rest : List HostEvent) : (s.resetUnit rest).buf = [] := rfl
@[simp] theorem State.resetUnit_len (s : State) (rest : List HostEvent) : (s.resetUnit rest).len = 0 := rfl
@[simp] theorem State.resetUnit_off (s : State) (rest : List HostEvent) : (s.resetUnit rest).off = 0 := rfl
@[simp] theorem State.resetUnit_status (s : State) (rest : List HostEvent) : (s.resetUnit rest).status = 0 := rfl
@[simp] theorem State.resetUnit_res (s : State) (rest : List HostEvent) : (s.resetUnit rest).res = 0 := rfl
@[simp] theorem State.resetUnit_need (s : State) (rest : List HostEvent) : (s.resetUnit rest).need = 0 := rfl
@[simp] theorem State.resetUnit_have_ (s : State) (rest : List HostEvent) : (s.resetUnit rest).have_ = 0 := rfl
@[simp] theorem State.resetUnit_opnd (s : State) (rest : List HostEvent) : (s.resetUnit rest).opnd = 0 := rfl
@[simp] theorem State.resetUnit_pay (s : State) (rest : List HostEvent) : (s.resetUnit rest).pay = [] := rfl
@[simp] theorem State.resetUnit_dout (s : State) (rest : List HostEvent) : (s.resetUnit rest).dout = [] := rfl
@[simp] theorem State.resetUnit_pending (s : State) (rest : List HostEvent) : (s.resetUnit rest).pending = rest := rfl
@[simp] theorem State.resetUnit_responses (s : State) (rest : List HostEvent) : (s.resetUnit rest).responses = s.responses := rfl

/-! ### A command word put where the next step takes it -/

@[simp] theorem State.withFetchWord_config (s : State) (nbits w : Nat) : (s.withFetchWord nbits w).config = s.config := rfl
@[simp] theorem State.withFetchWord_buf (s : State) (nbits w : Nat) : (s.withFetchWord nbits w).buf = s.buf := rfl
@[simp] theorem State.withFetchWord_len (s : State) (nbits w : Nat) : (s.withFetchWord nbits w).len = s.len := rfl
@[simp] theorem State.withFetchWord_off (s : State) (nbits w : Nat) : (s.withFetchWord nbits w).off = s.off := rfl
@[simp] theorem State.withFetchWord_status (s : State) (nbits w : Nat) : (s.withFetchWord nbits w).status = s.status := rfl
@[simp] theorem State.withFetchWord_res (s : State) (nbits w : Nat) : (s.withFetchWord nbits w).res = s.res := rfl
@[simp] theorem State.withFetchWord_need (s : State) (nbits w : Nat) : (s.withFetchWord nbits w).need = s.need := rfl
@[simp] theorem State.withFetchWord_have_ (s : State) (nbits w : Nat) : (s.withFetchWord nbits w).have_ = s.have_ := rfl
@[simp] theorem State.withFetchWord_opnd (s : State) (nbits w : Nat) : (s.withFetchWord nbits w).opnd = s.opnd := rfl
@[simp] theorem State.withFetchWord_pay (s : State) (nbits w : Nat) : (s.withFetchWord nbits w).pay = s.pay := rfl
@[simp] theorem State.withFetchWord_dout (s : State) (nbits w : Nat) : (s.withFetchWord nbits w).dout = s.dout := rfl
@[simp] theorem State.withFetchWord_pending (s : State) (nbits w : Nat) : (s.withFetchWord nbits w).pending = .command (tableCommand nbits w) :: s.pending := rfl
@[simp] theorem State.withFetchWord_responses (s : State) (nbits w : Nat) : (s.withFetchWord nbits w).responses = s.responses := rfl

/-! ### The response of a state -/

@[simp] theorem State.response_respondOk (s : State) (r : Word64) (d : List Byte) :
    (s.respondOk r d).response = { status := 0, res := r, need := 0, have_ := 0, dout := d } := rfl

@[simp] theorem State.response_respondRaise (s : State) (k : Kind) :
    (s.respondRaise k).response =
      { status := k.code, res := 0, need := k.needValue, have_ := k.haveValue, dout := [] } := rfl

end Sys2Proof.Machine
end

