-- ==== Sys2Proof/Laws/Ops.lean ====
section
/-!
SUPPORT. Laws/Ops.lean: for each shared operation, once, everything it can do. Later proofs cite these and do not unfold the
operations.
-/

namespace Sys2Proof.Machine

/-! ### How a command ends (rules R184 to R187) -/

@[simp] theorem finish_ok {α : Type} (s : State) (a : α) (k : α → State) : finish s (.ok a) k = .next (k a) := rfl

@[simp] theorem finish_raised {α : Type} (s : State) (e : Kind) (k : α → State) :
    finish s (.error (.raised e)) k = .next (s.respondRaise e) := rfl

@[simp] theorem finish_faulted {α : Type} (s : State) (f : Fault) (k : α → State) :
    finish s (.error (.faulted f)) k = .fault f := rfl

/-- If a command answers next, its checks let it through, or it raised on the state it started in. -/
theorem finish_next {α : Type} {s t : State} {r : Except Stop α} {k : α → State} (h : finish s r k = .next t) :
    (∃ a, r = .ok a ∧ t = k a) ∨ ∃ e, r = .error (.raised e) ∧ t = s.respondRaise e := by
  match r with
  | .ok a => exact .inl ⟨a, rfl, by simpa using h.symm⟩
  | .error (.raised e) => exact .inr ⟨e, rfl, by simpa using h.symm⟩
  | .error (.faulted f) => simp at h

/-- A command is never refused once it runs. -/
theorem finish_ne_refused {α : Type} (s : State) (r : Except Stop α) (k : α → State) (x : Refusal) :
    finish s r k ≠ .refused x := by
  match r with
  | .ok _ => simp
  | .error (.raised _) => simp
  | .error (.faulted _) => simp

/-- Two commands on one state that check alike and continue alike end alike. -/
theorem finish_congr {α : Type} {s : State} {r r' : Except Stop α} {k k' : α → State} (hr : r = r')
    (hk : ∀ a, r = .ok a → k a = k' a) : finish s r k = finish s r' k' := by
  subst hr
  match r, hk with
  | .ok a, hk => simp [hk a rfl]
  | .error (.raised _), _ => rfl
  | .error (.faulted _), _ => rfl

/-- A response delivered: an outcome is next after delivery exactly when it was next before. -/
theorem answer_next {o : Host.Outcome State Fault Refusal} {t : State} (h : answer o = .next t) :
    ∃ u, o = .next u ∧ t = u.deliver := by
  match o with
  | .next u => exact ⟨u, rfl, by simpa [answer] using h.symm⟩
  | .fault _ => simp [answer] at h
  | .refused _ => simp [answer] at h

/-! ### Reading (rules R13, R42) -/

/-- If MemRead answers, it answers the bytes that stand at the address. -/
theorem memRead_ok {s : State} {a n : Nat} {bs : List Byte} (h : memRead s a n = .ok bs) :
    bs.length = n ∧ BytesAt s.buf a bs := by
  unfold memRead at h
  split at h
  · rename_i cs hcs
    simp only [Except.ok.injEq] at h
    subst h
    exact (Memory.readBytes_eq_ok _ _ _ _).1 hcs
  · simp at h

/-- MemRead never raises an error response. -/
theorem memRead_ne_raised (s : State) (a n : Nat) (e : Kind) : memRead s a n ≠ .error (.raised e) := by
  unfold memRead; split <;> simp

/-- In a sound buffer MemRead inside LEN answers. -/
theorem memRead_of_backed {s : State} (h : s.BufBacked) {a n : Nat} (hn : a + n ≤ s.len.toNat) :
    ∃ bs, memRead s a n = .ok bs ∧ bs.length = n ∧ BytesAt s.buf a bs := by
  obtain ⟨bs, hbs, hl, hb⟩ := readBytes_of_backed s h a n hn
  exact ⟨bs, by simp [memRead, hbs], hl, hb⟩

/-- If the read at the cursor answers, it answers the bytes at the cursor and has moved nothing but OFF. -/
theorem readAtCursor_ok {n : Nat} {s : State} {p : List Byte × State} (h : readAtCursor n s = .ok p) :
    p.1.length = n ∧ BytesAt s.buf s.off.toNat p.1 ∧
      p.2 = { s with off := BitVec.ofNat 32 (s.off.toNat + n) } := by
  unfold readAtCursor at h
  split at h
  · simp at h
  · rename_i bs hbs
    simp only [Except.ok.injEq] at h
    subst h
    exact ⟨(memRead_ok hbs).1, (memRead_ok hbs).2, rfl⟩

/-- The read at the cursor never raises an error response. -/
theorem readAtCursor_ne_raised (n : Nat) (s : State) (e : Kind) : readAtCursor n s ≠ .error (.raised e) := by
  unfold readAtCursor
  split
  · rename_i f hf
    intro h
    simp only [Except.error.injEq] at h
    subst h
    exact memRead_ne_raised _ _ _ _ hf
  · simp

/-- In a sound buffer the read at the cursor inside LEN answers. -/
theorem readAtCursor_of_backed {s : State} (h : s.BufBacked) {n : Nat} (hn : s.off.toNat + n ≤ s.len.toNat) :
    ∃ bs, readAtCursor n s = .ok (bs, { s with off := BitVec.ofNat 32 (s.off.toNat + n) }) ∧
      bs.length = n ∧ BytesAt s.buf s.off.toNat bs := by
  obtain ⟨bs, hbs, hl, hb⟩ := memRead_of_backed h hn
  exact ⟨bs, by simp [readAtCursor, hbs], hl, hb⟩

/-- `Take` below its bound raises InsufficientData with the two counts. -/
theorem take_short {n : Nat} {s : State} (h : s.remaining < n) :
    take n s = .error (.raised (.insufficientData n s.remaining)) := by simp [take, h]

/-- `Take` inside its bound, in a sound state, answers the bytes at the cursor and moves OFF past them. -/
theorem take_enough {n : Nat} {s : State} (hs : s.BufSound) (h : n ≤ s.remaining) :
    ∃ bs, take n s = .ok (bs, { s with off := BitVec.ofNat 32 (s.off.toNat + n) }) ∧
      bs.length = n ∧ BytesAt s.buf s.off.toNat bs := by
  have hoff := hs.2.1
  have hn : s.off.toNat + n ≤ s.len.toNat := by simp only [State.remaining] at h; omega
  obtain ⟨bs, hbs, hl, hb⟩ := readAtCursor_of_backed hs.1 hn
  exact ⟨bs, by rw [take, if_neg (by omega), hbs], hl, hb⟩

/-- If `Take` answers, enough bytes remained, and it answers the bytes at the cursor and has moved nothing but OFF. -/
theorem take_ok {n : Nat} {s : State} {p : List Byte × State} (h : take n s = .ok p) :
    n ≤ s.remaining ∧ p.1.length = n ∧ BytesAt s.buf s.off.toNat p.1 ∧
      p.2 = { s with off := BitVec.ofNat 32 (s.off.toNat + n) } := by
  unfold take at h
  split at h
  · simp at h
  · exact ⟨by omega, readAtCursor_ok h⟩

/-- If `Take` raises, it is InsufficientData, and fewer bytes remained than asked for. -/
theorem take_raised {n : Nat} {s : State} {e : Kind} (h : take n s = .error (.raised e)) :
    s.remaining < n ∧ e = .insufficientData n s.remaining := by
  unfold take at h
  split at h
  · rename_i hlt
    simp only [Except.error.injEq, Stop.raised.injEq] at h
    exact ⟨hlt, h.symm⟩
  · exact absurd h (readAtCursor_ne_raised _ _ _)

/-! ### Writing (rule R44) -/

/-- `Append` over BUFCAP raises Capacity. -/
theorem append_full {bs : List Byte} {s : State} (h : s.config.bufcap.val < s.len.toNat + bs.length) :
    append bs s = .error (.raised .capacity) := by simp [append, h]

/-- `Append` within BUFCAP writes the bytes at LEN and moves LEN past them. -/
theorem append_fits {bs : List Byte} {s : State} (h : s.len.toNat + bs.length ≤ s.config.bufcap.val) :
    append bs s = .ok { s with
      buf := s.buf.writeBytes s.len.toNat bs
      len := BitVec.ofNat 32 (s.len.toNat + bs.length) } := by
  rw [append, if_neg (by omega)]

/-- If `Append` answers, the bytes fitted, and it changed nothing but BUF and LEN. -/
theorem append_ok {bs : List Byte} {s s1 : State} (h : append bs s = .ok s1) :
    s.len.toNat + bs.length ≤ s.config.bufcap.val ∧
    s1 = { s with
      buf := s.buf.writeBytes s.len.toNat bs
      len := BitVec.ofNat 32 (s.len.toNat + bs.length) } := by
  unfold append at h
  split at h
  · simp at h
  · simp only [Except.ok.injEq] at h
    exact ⟨by omega, h.symm⟩

/-- If `Append` stops, it raises Capacity. -/
theorem append_error {bs : List Byte} {s : State} {x : Stop} (h : append bs s = .error x) : x = .raised .capacity := by
  unfold append at h
  split at h
  · simpa using h.symm
  · simp at h

/-- LEN after an append that fits is the mathematical sum: it does not wrap. -/
theorem append_len_toNat {s : State} {n : Nat} (h : s.len.toNat + n ≤ s.config.bufcap.val) :
    (BitVec.ofNat 32 (s.len.toNat + n)).toNat = s.len.toNat + n := by
  rw [BitVec.toNat_ofNat, Nat.mod_eq_of_lt]
  have := s.config.bufcap.isLt
  omega

/-- OFF after a read inside LEN is the mathematical sum: it does not wrap. -/
theorem cursor_toNat {s : State} {n : Nat} (h : s.off.toNat + n ≤ s.len.toNat) :
    (BitVec.ofNat 32 (s.off.toNat + n)).toNat = s.off.toNat + n := by
  rw [BitVec.toNat_ofNat, Nat.mod_eq_of_lt]
  have := s.len.isLt
  omega

/-- The common end of the writes: the bytes appended and their number answered, or Capacity and nothing changed. -/
theorem putBytes_cases (bs : List Byte) (s : State) :
    (s.len.toNat + bs.length ≤ s.config.bufcap.val ∧
      putBytes bs s = .next ({ s with
        buf := s.buf.writeBytes s.len.toNat bs
        len := BitVec.ofNat 32 (s.len.toNat + bs.length) }.respondOk (count64 bs.length) [])) ∨
    (s.config.bufcap.val < s.len.toNat + bs.length ∧ putBytes bs s = .next (s.respondRaise .capacity)) := by
  rcases Nat.lt_or_ge s.config.bufcap.val (s.len.toNat + bs.length) with h | h
  · exact .inr ⟨h, by simp [putBytes, append_full h]⟩
  · exact .inl ⟨h, by simp [putBytes, append_fits h]⟩

/-! ### The stream commands' checked parts (44_stream.md) -/

/-- If GET.RAW's checks let it through, the length is no negative number and at most the bytes remaining, and it moved
nothing but OFF. -/
theorem takeRaw_ok {s : State} {p : List Byte × State} (h : takeRaw s = .ok p) :
    (s.opndLength = 0 ∧ p = ([], s)) ∨
    (0 < s.opndLength ∧ s.opndLength ≤ s.remaining ∧ p.1.length = s.opndLength.toNat ∧
      BytesAt s.buf s.off.toNat p.1 ∧
      p.2 = { s with off := BitVec.ofNat 32 (s.off.toNat + s.opndLength.toNat) }) := by
  unfold takeRaw at h
  split at h
  · simp at h
  · split at h
    · rename_i h0
      simp only [Except.ok.injEq] at h
      exact .inl ⟨h0, h.symm⟩
    · split at h
      · simp at h
      · exact .inr ⟨by omega, by omega, readAtCursor_ok h⟩

/-- If GET.RAW raises, the length is negative, or more than the bytes remaining. -/
theorem takeRaw_raised {s : State} {e : Kind} (h : takeRaw s = .error (.raised e)) :
    (s.opndLength < 0 ∧ e = .invalidArgument) ∨
    ((s.remaining : Int) < s.opndLength ∧ e = .insufficientData s.opndLength.toNat s.remaining) := by
  unfold takeRaw at h
  split at h
  · rename_i hneg
    simp only [Except.error.injEq, Stop.raised.injEq] at h
    exact .inl ⟨hneg, h.symm⟩
  · split at h
    · simp at h
    · split at h
      · rename_i hlt
        simp only [Except.error.injEq, Stop.raised.injEq] at h
        exact .inr ⟨hlt, h.symm⟩
      · exact absurd h (readAtCursor_ne_raised _ _ _)

/-- If GET.REM's check lets it through, some byte remained, and it moved nothing but OFF. -/
theorem takeRemaining_ok {s : State} {p : List Byte × State} (h : takeRemaining s = .ok p) :
    s.off.toNat < s.len.toNat ∧ p.1.length = s.remaining ∧ BytesAt s.buf s.off.toNat p.1 ∧
      p.2 = { s with off := BitVec.ofNat 32 (s.off.toNat + s.remaining) } := by
  unfold takeRemaining at h
  split at h
  · simp at h
  · exact ⟨by omega, readAtCursor_ok h⟩

/-- If GET.REM raises, the cursor is at the end, and it is InsufficientData(1, 0). -/
theorem takeRemaining_raised {s : State} {e : Kind} (h : takeRemaining s = .error (.raised e)) :
    s.len.toNat ≤ s.off.toNat ∧ e = .insufficientData 1 0 := by
  unfold takeRemaining at h
  split at h
  · rename_i hle
    simp only [Except.error.injEq, Stop.raised.injEq] at h
    exact ⟨hle, h.symm⟩
  · exact absurd h (readAtCursor_ne_raised _ _ _)

/-- If CONSTRUCT's checks let it through, the offset lies in PAY and PAY in BUFCAP, and BUF, LEN and OFF are PAY, its
length and the offset. -/
theorem loadBuffer_ok {s s1 : State} (h : loadBuffer s = .ok s1) :
    s.opndOffset ≤ s.pay.length ∧ s.pay.length ≤ s.config.bufcap.val ∧
    s1 = { s with
      buf := Memory.ofBytes s.pay
      len := BitVec.ofNat 32 s.pay.length
      off := BitVec.ofNat 32 s.opndOffset } := by
  unfold loadBuffer at h
  split at h
  · simp at h
  · split at h
    · simp at h
    · simp only [Except.ok.injEq] at h
      exact ⟨by omega, by omega, h.symm⟩

/-- If CONSTRUCT stops, the offset is beyond PAY, which is tested first, or PAY does not fit. -/
theorem loadBuffer_error {s : State} {x : Stop} (h : loadBuffer s = .error x) :
    (s.pay.length < s.opndOffset ∧ x = .raised .invalidArgument) ∨
    (s.opndOffset ≤ s.pay.length ∧ s.config.bufcap.val < s.pay.length ∧ x = .raised .capacity) := by
  unfold loadBuffer at h
  split at h
  · rename_i hlt; exact .inl ⟨hlt, by simpa using h.symm⟩
  · split at h
    · rename_i hge hlt; exact .inr ⟨by omega, hlt, by simpa using h.symm⟩
    · simp at h

/-- If SETOFF's check lets it through, the offset lies within LEN and OFF is the offset. -/
theorem moveCursor_ok {s s1 : State} (h : moveCursor s = .ok s1) :
    s.opndOffset ≤ s.len.toNat ∧ s1 = { s with off := BitVec.ofNat 32 s.opndOffset } := by
  unfold moveCursor at h
  split at h
  · simp at h
  · simp only [Except.ok.injEq] at h; exact ⟨by omega, h.symm⟩

/-- If SETOFF stops, the offset is beyond LEN. -/
theorem moveCursor_error {s : State} {x : Stop} (h : moveCursor s = .error x) :
    s.len.toNat < s.opndOffset ∧ x = .raised .invalidArgument := by
  unfold moveCursor at h
  split at h
  · rename_i hlt; exact ⟨hlt, by simpa using h.symm⟩
  · simp at h

/-! ### The variable-length decode (rule R142) -/

/-- If the decode loop answers from byte `i` on, it has consumed the bytes up to its count, all inside LEN and the limit. -/
theorem varDecLoop_ok {a : Nat} {s : State} {left i : Nat} {acc : BitVec a} {p : BitVec a × Nat}
    (h : varDecLoop s left i acc = .ok p) :
    i < p.2 ∧ p.2 ≤ i + left ∧ s.off.toNat + p.2 ≤ s.len.toNat := by
  induction left generalizing i acc with
  | zero => simp [varDecLoop] at h
  | succ left ih =>
    unfold varDecLoop at h
    split at h
    · simp at h
    · split at h
      · simp at h
      · split at h
        · simp only [Except.ok.injEq] at h
          subst h
          exact ⟨by simp, by simp, by simp; omega⟩
        · have := ih h; omega

/-- If the decode loop raises, it is MalformedVarint. -/
theorem varDecLoop_raised {a : Nat} {s : State} {left i : Nat} {acc : BitVec a} {e : Kind}
    (h : varDecLoop s left i acc = .error (.raised e)) : e = .malformedVarint := by
  induction left generalizing i acc with
  | zero => simpa [varDecLoop] using h.symm
  | succ left ih =>
    unfold varDecLoop at h
    split at h
    · simpa using h.symm
    · split at h
      · simp at h
      · split at h
        · simp at h
        · exact ih h

/-- In a sound buffer the decode loop never faults. -/
theorem varDecLoop_ne_fault {a : Nat} {s : State} (hs : s.BufBacked) (left i : Nat) (acc : BitVec a) (f : Fault) :
    varDecLoop s left i acc ≠ .error (.faulted f) := by
  induction left generalizing i acc with
  | zero => simp [varDecLoop]
  | succ left ih =>
    unfold varDecLoop
    split
    · simp
    · rename_i hlt
      have : (s.buf.read (s.off.toNat + i)).isSome := by
        rw [Memory.isSome_of_range s.buf _ _ hs]; omega
      obtain ⟨b, hb⟩ := Option.isSome_iff_exists.1 this
      simp only [hb]
      split
      · simp
      · exact ih _ _

/-- If `VarDec_W` answers, it has moved nothing but OFF, forward by 1 to MAXB bytes and within LEN. -/
theorem varDec_ok {w maxB : Nat} {s : State} {p : BitVec w × State} (h : varDec w maxB s = .ok p) :
    ∃ k, 0 < k ∧ k ≤ maxB ∧ s.off.toNat + k ≤ s.len.toNat ∧
      p.2 = { s with off := BitVec.ofNat 32 (s.off.toNat + k) } := by
  unfold varDec at h
  split at h
  · simp at h
  · rename_i acc k hk
    simp only [Except.ok.injEq] at h
    subst h
    have := varDecLoop_ok hk
    exact ⟨k, by omega, by simpa using this.2.1, this.2.2, rfl⟩

/-- If `VarDec_W` raises, it is MalformedVarint. -/
theorem varDec_raised {w maxB : Nat} {s : State} {e : Kind} (h : varDec w maxB s = .error (.raised e)) :
    e = .malformedVarint := by
  unfold varDec at h
  split at h
  · rename_i x hx
    simp only [Except.error.injEq] at h
    subst h
    exact varDecLoop_raised hx
  · simp at h

/-- In a sound buffer `VarDec_W` never faults. -/
theorem varDec_ne_fault {w maxB : Nat} {s : State} (hs : s.BufBacked) (f : Fault) :
    varDec w maxB s ≠ .error (.faulted f) := by
  unfold varDec
  split
  · rename_i x hx
    intro h
    simp only [Except.error.injEq] at h
    subst h
    exact varDecLoop_ne_fault hs _ _ _ _ hx
  · simp

/-! ### Lengths -/

@[simp] theorem toBe_length (n : Nat) (v : BitVec (8 * n)) : (toBe n v).length = n := by simp [toBe]

@[simp] theorem toLe_length (n : Nat) (v : BitVec (8 * n)) : (toLe n v).length = n := by simp [toLe]

@[simp] theorem toOrder_length (order : ByteOrder) (n : Nat) (v : BitVec (8 * n)) : (toOrder order n v).length = n := by
  cases order <;> simp [toOrder]

/-- Seven bits less need one group less. -/
theorem groupsNeeded_shift {u : Nat} (h : 128 ≤ u) : groupsNeeded u = groupsNeeded (u / 128) + 1 := by
  have hne : u / 128 ≠ 0 := by omega
  have hu : Nat.log2 u = Nat.log2 (u / 128) + 7 := by
    rw [Nat.log2_eq_iff (by omega)]
    have h1 := Nat.log2_self_le hne
    have h2 := Nat.lt_log2_self (n := u / 128)
    have h3 : 2 ^ (Nat.log2 (u / 128) + 7) = 2 ^ Nat.log2 (u / 128) * 128 := pow_add 2 _ 7
    have h4 : 2 ^ (Nat.log2 (u / 128) + 7 + 1) = 2 ^ (Nat.log2 (u / 128) + 1) * 128 := pow_add 2 (Nat.log2 (u / 128) + 1) 7
    omega
  unfold groupsNeeded
  omega

/-- `VarEnc_W` makes the bytes that the number needs, whenever its bound on the groups leaves room for them. -/
theorem varEnc_length {w : Nat} (groups : Nat) (u : BitVec w) (h0 : 0 < groups) (h : u.toNat < 2 ^ (7 * groups)) :
    (varEnc groups u).length = groupsNeeded u.toNat := by
  induction groups generalizing u with
  | zero => omega
  | succ n ih =>
    unfold varEnc
    split
    · rename_i hu
      have : Nat.log2 u.toNat < 7 := by
        rw [Nat.log2_eq_log_two]
        exact Nat.log_lt_of_lt_pow' (by omega) (by omega)
      simp [groupsNeeded]
      omega
    · rename_i hu
      have hn : 0 < n := by
        rcases Nat.eq_zero_or_pos n with rfl | hn
        · omega
        · exact hn
      have hs : (u >>> 7).toNat = u.toNat / 128 := by simp [Nat.shiftRight_eq_div_pow]
      have hlt : (u >>> 7).toNat < 2 ^ (7 * n) := by
        rw [hs]
        have hp : 2 ^ (7 * (n + 1)) = 2 ^ (7 * n) * 128 := by rw [Nat.mul_succ, pow_add]; rfl
        omega
      rw [List.length_cons, ih _ hn hlt, hs, groupsNeeded_shift (u := u.toNat) (by omega)]

end Sys2Proof.Machine
end

