-- ==== Sys2Proof/Laws/Exec.lean ====
section
/-!
SUPPORT. Laws/Exec.lean: once, what executing any command can do, and what one step can do. Claims over all commands start
from these inversion lemmas.
-/

namespace Sys2Proof.Machine

/-- The state a successful command hands to its `ok`: the state as it was, OFF moved within LEN (never by a PUT), bytes
appended (by a PUT alone), or a new buffer loaded (by CONSTRUCT alone). -/
inductive Moved (i : Instr) (s : State) : State → Prop
  | same : Moved i s s
  | cursor (o : Nat) (hi : isPut i = false) (ho : o ≤ s.len.toNat ∨ o = 0) :
    Moved i s { s with off := BitVec.ofNat 32 o }
  | appended (bs : List Byte) (s1 : State) (hi : isPut i = true) (h : append bs s = .ok s1) : Moved i s s1
  | loaded (s1 : State) (hi : i = .construct) (h : loadBuffer s = .ok s1) : Moved i s s1

/-- The two ends of a command on a state (rules R184, R185). -/
def Ended (i : Instr) (s t : State) : Prop :=
  (∃ k : Kind, t = s.respondRaise k) ∨ ∃ s1 r d, Moved i s s1 ∧ t = s1.respondOk r d

/-- A command that checks, then answers from a moved state, ends as every command does. -/
theorem ended_of_finish {α : Type} {i : Instr} {s t : State} {r : Except Stop α} {k : α → State}
    (hk : ∀ a, r = .ok a → ∃ s1 x d, Moved i s s1 ∧ k a = s1.respondOk x d) (h : finish s r k = .next t) :
    Ended i s t := by
  rcases finish_next h with ⟨a, ha, rfl⟩ | ⟨e, -, rfl⟩
  · obtain ⟨s1, x, d, hm, hx⟩ := hk a ha
    exact .inr ⟨s1, x, d, hm, hx⟩
  · exact .inl ⟨e, rfl⟩

/-- A read moves nothing but OFF, within LEN. -/
theorem moved_of_take {i : Instr} {n : Nat} {s : State} {p : List Byte × State} (hi : isPut i = false) (hn : 0 < n)
    (h : take n s = .ok p) : Moved i s p.2 := by
  obtain ⟨hle, -, -, hp⟩ := take_ok h
  rw [hp]
  refine .cursor _ hi (.inl ?_)
  simp only [State.remaining] at hle
  omega

theorem getFix_ended {i : Instr} {n : Nat} {o : ByteOrder} {g : Bool} {s t : State} (hi : isPut i = false) (hn : 0 < n)
    (h : getFix n o g s = .next t) : Ended i s t :=
  ended_of_finish (fun _ hp => ⟨_, _, _, moved_of_take hi hn hp, rfl⟩) h

theorem putBytes_ended {i : Instr} {bs : List Byte} {s t : State} (hi : isPut i = true)
    (h : putBytes bs s = .next t) : Ended i s t :=
  ended_of_finish (fun _ hp => ⟨_, _, _, .appended bs _ hi hp, rfl⟩) h

theorem getRounded_ended {i : Instr} {o : ByteOrder} {p : Nat} {s t : State} (hi : isPut i = false)
    (h : getRounded o p s = .next t) : Ended i s t :=
  ended_of_finish (fun _ hp => ⟨_, _, _, moved_of_take hi (by decide) hp, rfl⟩) h

theorem moved_of_varDec {i : Instr} {w maxB : Nat} {s : State} {p : BitVec w × State} (hi : isPut i = false)
    (h : varDec w maxB s = .ok p) : Moved i s p.2 := by
  obtain ⟨k, -, -, hk, hp⟩ := varDec_ok h
  rw [hp]; exact .cursor _ hi (.inl hk)

theorem getVarUnsigned_ended {i : Instr} {w m : Nat} {s t : State} (hi : isPut i = false)
    (h : getVarUnsigned w m s = .next t) : Ended i s t :=
  ended_of_finish (fun _ hp => ⟨_, _, _, moved_of_varDec hi hp, rfl⟩) h

theorem getVarSigned_ended {i : Instr} {w m : Nat} {s t : State} (hi : isPut i = false)
    (h : getVarSigned w m s = .next t) : Ended i s t :=
  ended_of_finish (fun _ hp => ⟨_, _, _, moved_of_varDec hi hp, rfl⟩) h

theorem execGetRaw_ended {s t : State} (h : execGetRaw s = .next t) : Ended .getRaw s t :=
  ended_of_finish (fun p hp => by
    rcases takeRaw_ok hp with ⟨-, rfl⟩ | ⟨hpos, hle, -, -, hp⟩
    · exact ⟨s, _, _, .same, rfl⟩
    · refine ⟨p.2, _, _, ?_, rfl⟩
      rw [hp]
      refine .cursor _ rfl (.inl ?_)
      simp only [State.remaining] at hle
      omega) h

theorem execGetRem_ended {s t : State} (h : execGetRem s = .next t) : Ended .getRem s t :=
  ended_of_finish (fun p hp => by
    obtain ⟨hlt, -, -, hp⟩ := takeRemaining_ok hp
    refine ⟨p.2, _, _, ?_, rfl⟩
    rw [hp]
    refine .cursor _ rfl (.inl ?_)
    simp only [State.remaining]
    omega) h

theorem execSetoff_ended {s t : State} (h : execSetoff s = .next t) : Ended .setoff s t :=
  ended_of_finish (fun a ha => by
    obtain ⟨hle, rfl⟩ := moveCursor_ok ha
    exact ⟨_, _, _, .cursor _ rfl (.inl hle), rfl⟩) h

/-- Everything any command can do: it ends with an error response on the state it started in, or with OK on a state in
which only OFF has moved, bytes are appended, or a new buffer is loaded. -/
theorem exec_next {i : Instr} {s t : State} (h : exec i s = .next t) : Ended i s t := by
  cases i
  case getU8 => exact ended_of_finish (fun _ hp => ⟨_, _, _, moved_of_take rfl (by decide) hp, rfl⟩) h
  case getBool => exact ended_of_finish (fun _ hp => ⟨_, _, _, moved_of_take rfl (by decide) hp, rfl⟩) h
  case getF32rBe => exact getRounded_ended rfl h
  case getF32rLe => exact getRounded_ended rfl h
  case getUv32 => exact getVarUnsigned_ended rfl h
  case getUv64 => exact getVarUnsigned_ended rfl h
  case getSv32 => exact getVarSigned_ended rfl h
  case getSv64 => exact getVarSigned_ended rfl h
  case getRaw => exact execGetRaw_ended h
  case getRem => exact execGetRem_ended h
  case setoff => exact execSetoff_ended h
  case construct => exact ended_of_finish (fun _ hp => ⟨_, _, _, .loaded _ rfl hp, rfl⟩) h
  case getbuf => exact ended_of_finish (fun _ _ => ⟨_, _, _, .same, rfl⟩) h
  case rewind =>
    simp only [exec, execRewind, Host.Outcome.next.injEq] at h
    exact .inr ⟨_, _, _, .cursor 0 rfl (.inr rfl), h.symm⟩
  case getoff =>
    simp only [exec, execGetoff, Host.Outcome.next.injEq] at h
    exact .inr ⟨_, _, _, .same, h.symm⟩
  case feof =>
    simp only [exec, execFeof, Host.Outcome.next.injEq] at h
    exact .inr ⟨_, _, _, .same, h.symm⟩
  all_goals first | exact getFix_ended rfl (by decide) h | exact putBytes_ended rfl h

/-- No command is refused. -/
theorem exec_ne_refused (i : Instr) (s : State) (x : Refusal) : exec i s ≠ .refused x := by
  cases i
  case rewind => simp [exec, execRewind]
  case getoff => simp [exec, execGetoff]
  case feof => simp [exec, execFeof]
  all_goals exact finish_ne_refused _ _ _ _

/-- Everything one step can do: it waits, resets, or delivers the response of the first pending command, decoded and
executed, or of a reserved word. -/
theorem step_next {s t : State} (h : step s = .next t) :
    (s.pending = [] ∧ t = s) ∨
    (∃ rest, s.pending = .reset :: rest ∧ t = s.resetUnit rest) ∨
    (∃ c rest i u, s.pending = .command c :: rest ∧ decode c.cw = .instr i ∧
      exec i (s.present c rest) = .next u ∧ t = u.deliver) ∨
    (∃ c rest why, s.pending = .command c :: rest ∧ decode c.cw = .reserved why ∧
      t = ((s.present c rest).respondRaise .invalidArgument).deliver) := by
  unfold step at h
  split at h
  · rename_i hp
    exact .inl ⟨hp, by simpa using h.symm⟩
  · rename_i rest hp
    exact .inr (.inl ⟨rest, hp, by simpa using h.symm⟩)
  · rename_i c rest hp
    split at h
    · rename_i i hi
      obtain ⟨u, hu, ht⟩ := answer_next h
      exact .inr (.inr (.inl ⟨c, rest, i, u, hp, hi, hu, ht⟩))
    · rename_i why hw
      obtain ⟨u, hu, ht⟩ := answer_next h
      simp only [execReserved, Host.Outcome.next.injEq] at hu
      subst hu
      exact .inr (.inr (.inr ⟨c, rest, why, hp, hw, ht⟩))

end Sys2Proof.Machine
end

