-- ==== Sys2Proof/Laws/PerInstr.lean ====
section
/-!
SUPPORT. Laws/PerInstr.lean: the one family of statements made command by command: a well-formed command's word is none of
the words that 30_encoding.md rule R71 lists as reserved.
-/

namespace Sys2Proof.Laws.LegalWord

open Sys2Proof Sys2Proof.Machine

/-- The word of a well-formed command is not on rule R71's list. -/
def Statement (i : Instr) : Prop := i.wellFormed = true → reservedByRule (encode i) = false

theorem roundedBe_legal {prec : Nat} (h : prec < 256) : reservedByRule (encode (.getF32rBe prec)) = false := by
  revert prec; decide +kernel

theorem roundedLe_legal {prec : Nat} (h : prec < 256) : reservedByRule (encode (.getF32rLe prec)) = false := by
  revert prec; decide +kernel

theorem getU8 : Statement .getU8 := fun _ => by decide

theorem put8 : Statement .put8 := fun _ => by decide

theorem getBool : Statement .getBool := fun _ => by decide

theorem putBool : Statement .putBool := fun _ => by decide

theorem getU16Be : Statement .getU16Be := fun _ => by decide

theorem getS16Be : Statement .getS16Be := fun _ => by decide

theorem getU16Le : Statement .getU16Le := fun _ => by decide

theorem getS16Le : Statement .getS16Le := fun _ => by decide

theorem put16Be : Statement .put16Be := fun _ => by decide

theorem put16Le : Statement .put16Le := fun _ => by decide

theorem getU24Be : Statement .getU24Be := fun _ => by decide

theorem getU24Le : Statement .getU24Le := fun _ => by decide

theorem put24Be : Statement .put24Be := fun _ => by decide

theorem put24Le : Statement .put24Le := fun _ => by decide

theorem getU32Be : Statement .getU32Be := fun _ => by decide

theorem getS32Be : Statement .getS32Be := fun _ => by decide

theorem getU32Le : Statement .getU32Le := fun _ => by decide

theorem getS32Le : Statement .getS32Le := fun _ => by decide

theorem put32Be : Statement .put32Be := fun _ => by decide

theorem put32Le : Statement .put32Le := fun _ => by decide

theorem getU64Be : Statement .getU64Be := fun _ => by decide

theorem getS64Be : Statement .getS64Be := fun _ => by decide

theorem getU64Le : Statement .getU64Le := fun _ => by decide

theorem getS64Le : Statement .getS64Le := fun _ => by decide

theorem put64Be : Statement .put64Be := fun _ => by decide

theorem put64Le : Statement .put64Le := fun _ => by decide

theorem getF32Be : Statement .getF32Be := fun _ => by decide

theorem getF32rBe (prec : Nat) : Statement (.getF32rBe prec) := fun h => roundedBe_legal (by simpa [Instr.wellFormed, Instr.precFits] using h)

theorem getF32Le : Statement .getF32Le := fun _ => by decide

theorem getF32rLe (prec : Nat) : Statement (.getF32rLe prec) := fun h => roundedLe_legal (by simpa [Instr.wellFormed, Instr.precFits] using h)

theorem putF32Be : Statement .putF32Be := fun _ => by decide

theorem putF32Le : Statement .putF32Le := fun _ => by decide

theorem getF64Be : Statement .getF64Be := fun _ => by decide

theorem getF64Le : Statement .getF64Le := fun _ => by decide

theorem putF64Be : Statement .putF64Be := fun _ => by decide

theorem putF64Le : Statement .putF64Le := fun _ => by decide

theorem getUv32 : Statement .getUv32 := fun _ => by decide

theorem getSv32 : Statement .getSv32 := fun _ => by decide

theorem putUv32 : Statement .putUv32 := fun _ => by decide

theorem putSv32 : Statement .putSv32 := fun _ => by decide

theorem getUv64 : Statement .getUv64 := fun _ => by decide

theorem getSv64 : Statement .getSv64 := fun _ => by decide

theorem putUv64 : Statement .putUv64 := fun _ => by decide

theorem putSv64 : Statement .putSv64 := fun _ => by decide

theorem getRaw : Statement .getRaw := fun _ => by decide

theorem putRaw : Statement .putRaw := fun _ => by decide

theorem getRem : Statement .getRem := fun _ => by decide

theorem construct : Statement .construct := fun _ => by decide

theorem rewind : Statement .rewind := fun _ => by decide

theorem setoff : Statement .setoff := fun _ => by decide

theorem getoff : Statement .getoff := fun _ => by decide

theorem getbuf : Statement .getbuf := fun _ => by decide

theorem feof : Statement .feof := fun _ => by decide

end Sys2Proof.Laws.LegalWord
end

