-- ==== Sys2Proof/Tests/Slice0.lean ====
section
/-!
SUPPORT. Tests/Slice0.lean: small checks of the model. The words of the decode tests are written out from 30_encoding.md
rules R64 to R66 and R73; the expected results of the one-step tests are rows of 95_test_vectors.md, which the spec derives
from its rules by hand; the witnesses show for each obligation with hypotheses that states and operands meet them.
-/

namespace Sys2Proof.Tests

open Sys2Proof Sys2Proof.Machine

/-! ### Helpers -/

/-- A byte string from numbers. -/
def bytes (l : List Nat) : List Byte := l.map (BitVec.ofNat 8)

/-- This hardware's unit with a buffer, a cursor, an operand and a payload. -/
def before (buf : List Nat) (off opnd : Nat) (pay : List Nat) : State :=
  { State.reset with
    buf := Memory.ofBytes (bytes buf)
    len := BitVec.ofNat 32 buf.length
    off := BitVec.ofNat 32 off
    opnd := BitVec.ofNat 64 opnd
    pay := bytes pay }

/-- A unit of four bytes. -/
def smallConfig : Config := { bufcap := 4, tieRule := .away }

/-- A unit of ten bytes. -/
def tenConfig : Config := { bufcap := 10, tieRule := .away }

/-- The right half of a row of 95_test_vectors.md, in its order. -/
structure Row where
  (status res need available : Nat)
  (dout buf : List Nat)
  off : Nat
  deriving DecidableEq

/-- What a vector row shows of a next state: STATUS, RES, NEED, HAVE, DOUT, BUF and OFF. -/
def after : Host.Outcome State Fault Refusal → Option Row
  | .next t => some ⟨t.status.toNat, t.res.toNat, t.need.toNat, t.have_.toNat, t.dout.map (·.toNat),
      t.buf.map (·.2.toNat), t.off.toNat⟩
  | .fault _ => none
  | .refused _ => none

/-- The fault an outcome ends in, if it does. -/
def faultOf : Host.Outcome State Fault Refusal → Option Fault
  | .next _ => none
  | .fault f => some f
  | .refused _ => none

/-! ### Well-formed commands (rule R68: the precision is 0 to 255) -/

theorem test_wellFormed_refuses_precision_be : (Instr.getF32rBe 256).wellFormed = false := by decide

theorem test_wellFormed_refuses_precision_le : (Instr.getF32rLe 256).wellFormed = false := by decide

theorem test_wellFormed_takes_the_last_precision :
    (Instr.getF32rBe 255).wellFormed = true ∧ (Instr.getF32rLe 255).wellFormed = true := by decide

/-! ### Decoding (rule R73: ARG, DIR, TYPE, LE, SGN, RND or FUNC, from bit 15 down) -/

theorem test_decode_byte_bool :
    decode 0b0000000000000000 = .instr .getU8 ∧
    decode 0b0000000010000000 = .instr .put8 ∧
    decode 0b0000000000001000 = .instr .getBool ∧
    decode 0b0000000010001000 = .instr .putBool := by decide

theorem test_decode_short_triad :
    decode 0b0000000000010000 = .instr .getU16Be ∧
    decode 0b0000000000010010 = .instr .getS16Be ∧
    decode 0b0000000000010100 = .instr .getU16Le ∧
    decode 0b0000000000010110 = .instr .getS16Le ∧
    decode 0b0000000010010000 = .instr .put16Be ∧
    decode 0b0000000010010100 = .instr .put16Le ∧
    decode 0b0000000000011000 = .instr .getU24Be ∧
    decode 0b0000000000011100 = .instr .getU24Le ∧
    decode 0b0000000010011000 = .instr .put24Be ∧
    decode 0b0000000010011100 = .instr .put24Le := by decide

theorem test_decode_int :
    decode 0b0000000000100000 = .instr .getU32Be ∧
    decode 0b0000000000100010 = .instr .getS32Be ∧
    decode 0b0000000000100100 = .instr .getU32Le ∧
    decode 0b0000000000100110 = .instr .getS32Le ∧
    decode 0b0000000010100000 = .instr .put32Be ∧
    decode 0b0000000010100100 = .instr .put32Le := by decide

theorem test_decode_long :
    decode 0b0000000000101000 = .instr .getU64Be ∧
    decode 0b0000000000101010 = .instr .getS64Be ∧
    decode 0b0000000000101100 = .instr .getU64Le ∧
    decode 0b0000000000101110 = .instr .getS64Le ∧
    decode 0b0000000010101000 = .instr .put64Be ∧
    decode 0b0000000010101100 = .instr .put64Le := by decide

theorem test_decode_float :
    decode 0b0000000000110000 = .instr .getF32Be ∧
    decode 0b1010010100110001 = .instr (.getF32rBe 165) ∧
    decode 0b0000000000110100 = .instr .getF32Le ∧
    decode 0b1111111100110101 = .instr (.getF32rLe 255) ∧
    decode 0b0000000010110000 = .instr .putF32Be ∧
    decode 0b0000000010110100 = .instr .putF32Le ∧
    decode 0b0000000000111000 = .instr .getF64Be ∧
    decode 0b0000000000111100 = .instr .getF64Le ∧
    decode 0b0000000010111000 = .instr .putF64Be ∧
    decode 0b0000000010111100 = .instr .putF64Le := by decide

theorem test_decode_varint :
    decode 0b0000000001000000 = .instr .getUv32 ∧
    decode 0b0000000001000010 = .instr .getSv32 ∧
    decode 0b0000000011000000 = .instr .putUv32 ∧
    decode 0b0000000011000010 = .instr .putSv32 ∧
    decode 0b0000000001001000 = .instr .getUv64 ∧
    decode 0b0000000001001010 = .instr .getSv64 ∧
    decode 0b0000000011001000 = .instr .putUv64 ∧
    decode 0b0000000011001010 = .instr .putSv64 := by decide

theorem test_decode_stream :
    decode 0b0000000001010000 = .instr .getRaw ∧
    decode 0b0000000011010000 = .instr .putRaw ∧
    decode 0b0000000001011000 = .instr .getRem ∧
    decode 0b0000000001111000 = .instr .construct ∧
    decode 0b0000000001111001 = .instr .rewind ∧
    decode 0b0000000001111010 = .instr .setoff ∧
    decode 0b0000000001111011 = .instr .getoff ∧
    decode 0b0000000001111100 = .instr .getbuf ∧
    decode 0b0000000001111101 = .instr .feof := by decide

/-- 95_test_vectors.md section 7: a reserved word of each reason. -/
theorem test_decode_reserved :
    decode 0b0000000100000000 = .reserved .argNotZero ∧ decode 0b0000000100110000 = .reserved .argNotZero ∧
    decode 0b0000000001100000 = .reserved .reservedType ∧ decode 0b0000000001111110 = .reserved .reservedControl ∧
    decode 0b0000000011111000 = .reserved .reservedControl ∧ decode 0b0000000000111001 = .reserved .illegalFlags ∧
    decode 0b0000000010010010 = .reserved .illegalFlags ∧ decode 0b0000000000011010 = .reserved .illegalFlags := by decide

theorem test_decodeTableWord :
    decodeTableWord 16 0x0231 = some (.getF32rBe 2) ∧ decodeTableWord 16 0x007E = none := by decide

/-- A word placed where the next step takes it is the command that runs. -/
theorem test_withFetchWord :
    after (step (State.reset.withFetchWord 16 0x0080)) = some ⟨0, 1, 0, 0, [], [0], 0⟩ := by decide

/-- A reserved word answers InvalidArgument and changes nothing (rule R71). -/
theorem test_reserved_word_step :
    after (step ((before [1, 2] 1 0 []).withFetchWord 16 0x0039)) = some ⟨3, 0, 0, 0, [], [1, 2], 1⟩ := by decide

/-- The unit waits when nothing is pending. -/
theorem test_idle_step : after (step (before [1, 2] 1 0 [])) = some ⟨0, 0, 0, 0, [], [1, 2], 1⟩ := by decide

/-- A reset empties the buffer (rule R200). -/
theorem test_reset_step : after (step { before [1, 2] 1 0 [] with pending := [.reset] }) = some ⟨0, 0, 0, 0, [], [], 0⟩ := by
  decide

/-! ### BUF -/

theorem test_write_keeps_addresses_rising :
    Memory.write [(1, 7), (4, 9)] 2 5 = [(1, 7), (2, 5), (4, 9)] ∧
    Memory.write [(1, 7), (4, 9)] 4 5 = [(1, 7), (4, 5)] := by decide

theorem test_read_of_an_absent_byte_faults :
    faultOf (exec .getbuf { State.reset with len := 1 }) = some (.absentByte 0) := by decide

/-! ### One command each -/

/-! 95_test_vectors.md section 2 -/

theorem test_getU8 : after (exec .getU8 (before [0x00, 0x7F] 1 0 [])) =
    some ⟨0, 0x7f, 0, 0, [], [0x00, 0x7F], 2⟩ := by decide

theorem test_getU8_short : after (exec .getU8 (before [0xAA] 1 0 [])) =
    some ⟨1, 0, 1, 0, [], [0xAA], 1⟩ := by decide

theorem test_put8 : after (exec .put8 (before [] 0 0x12c [])) =
    some ⟨0, 1, 0, 0, [], [0x2C], 0⟩ := by decide

theorem test_getBool : after (exec .getBool (before [0x02] 0 0 [])) =
    some ⟨0, 1, 0, 0, [], [0x02], 1⟩ := by decide

theorem test_putBool : after (exec .putBool (before [] 0 0x8000000000000000 [])) =
    some ⟨0, 1, 0, 0, [], [0x01], 0⟩ := by decide

/-! 95_test_vectors.md section 3, 16 and 24 bits -/

theorem test_getU16Be : after (exec .getU16Be (before [0x80, 0x01] 0 0 [])) =
    some ⟨0, 0x8001, 0, 0, [], [0x80, 0x01], 2⟩ := by decide

theorem test_getS16Be : after (exec .getS16Be (before [0x80, 0x01] 0 0 [])) =
    some ⟨0, 0xffffffffffff8001, 0, 0, [], [0x80, 0x01], 2⟩ := by decide

theorem test_getU16Le : after (exec .getU16Le (before [0x80, 0x01] 0 0 [])) =
    some ⟨0, 0x180, 0, 0, [], [0x80, 0x01], 2⟩ := by decide

theorem test_getS16Le : after (exec .getS16Le (before [0x00, 0x80] 0 0 [])) =
    some ⟨0, 0xffffffffffff8000, 0, 0, [], [0x00, 0x80], 2⟩ := by decide

theorem test_getU16Be_short : after (exec .getU16Be (before [0x12] 0 0 [])) =
    some ⟨1, 0, 2, 1, [], [0x12], 0⟩ := by decide

theorem test_getS16Le_again : after (exec .getS16Le (before [0xAA, 0x12, 0x34] 1 0 [])) =
    some ⟨0, 0x3412, 0, 0, [], [0xAA, 0x12, 0x34], 3⟩ := by decide

theorem test_put16Be : after (exec .put16Be (before [] 0 0x12345 [])) =
    some ⟨0, 2, 0, 0, [], [0x23, 0x45], 0⟩ := by decide

theorem test_put16Le : after (exec .put16Le (before [] 0 0x8001 [])) =
    some ⟨0, 2, 0, 0, [], [0x01, 0x80], 0⟩ := by decide

theorem test_getU24Be : after (exec .getU24Be (before [0x01, 0x02, 0x03] 0 0 [])) =
    some ⟨0, 0x10203, 0, 0, [], [0x01, 0x02, 0x03], 3⟩ := by decide

theorem test_getU24Le : after (exec .getU24Le (before [0x01, 0x02, 0x03] 0 0 [])) =
    some ⟨0, 0x30201, 0, 0, [], [0x01, 0x02, 0x03], 3⟩ := by decide

theorem test_getU24Le_short : after (exec .getU24Le (before [0x01, 0x02] 0 0 [])) =
    some ⟨1, 0, 3, 2, [], [0x01, 0x02], 0⟩ := by decide

theorem test_put24Be : after (exec .put24Be (before [] 0 0x1abcdef [])) =
    some ⟨0, 3, 0, 0, [], [0xAB, 0xCD, 0xEF], 0⟩ := by decide

theorem test_put24Le : after (exec .put24Le (before [] 0 0x1abcdef [])) =
    some ⟨0, 3, 0, 0, [], [0xEF, 0xCD, 0xAB], 0⟩ := by decide

/-! 95_test_vectors.md section 3, 32 bits -/

theorem test_getU32Be : after (exec .getU32Be (before [0x80, 0x00, 0x00, 0x01] 0 0 [])) =
    some ⟨0, 0x80000001, 0, 0, [], [0x80, 0x00, 0x00, 0x01], 4⟩ := by decide

theorem test_getS32Be : after (exec .getS32Be (before [0x80, 0x00, 0x00, 0x01] 0 0 [])) =
    some ⟨0, 0xffffffff80000001, 0, 0, [], [0x80, 0x00, 0x00, 0x01], 4⟩ := by decide

theorem test_getU32Le : after (exec .getU32Le (before [0x78, 0x56, 0x34, 0x12] 0 0 [])) =
    some ⟨0, 0x12345678, 0, 0, [], [0x78, 0x56, 0x34, 0x12], 4⟩ := by decide

theorem test_getS32Le : after (exec .getS32Le (before [0xFF, 0xFF, 0xFF, 0xFF] 0 0 [])) =
    some ⟨0, 0xffffffffffffffff, 0, 0, [], [0xFF, 0xFF, 0xFF, 0xFF], 4⟩ := by decide

theorem test_getS32Be_short : after (exec .getS32Be (before [0x01, 0x02, 0x03] 0 0 [])) =
    some ⟨1, 0, 4, 3, [], [0x01, 0x02, 0x03], 0⟩ := by decide

theorem test_put32Be : after (exec .put32Be (before [] 0 0x12345678 [])) =
    some ⟨0, 4, 0, 0, [], [0x12, 0x34, 0x56, 0x78], 0⟩ := by decide

theorem test_put32Le : after (exec .put32Le (before [] 0 0x12345678 [])) =
    some ⟨0, 4, 0, 0, [], [0x78, 0x56, 0x34, 0x12], 0⟩ := by decide

/-! 95_test_vectors.md section 3, 64 bits -/

theorem test_getU64Be : after (exec .getU64Be (before [0x01, 0x02, 0x03, 0x04, 0x05, 0x06, 0x07, 0x08] 0 0 [])) =
    some ⟨0, 0x102030405060708, 0, 0, [], [0x01, 0x02, 0x03, 0x04, 0x05, 0x06, 0x07, 0x08], 8⟩ := by decide

theorem test_getS64Be : after (exec .getS64Be (before [0x80, 0x00, 0x00, 0x00, 0x00, 0x00, 0x00, 0x01] 0 0 [])) =
    some ⟨0, 0x8000000000000001, 0, 0, [], [0x80, 0x00, 0x00, 0x00, 0x00, 0x00, 0x00, 0x01], 8⟩ := by decide

theorem test_getU64Le : after (exec .getU64Le (before [0x01, 0x02, 0x03, 0x04, 0x05, 0x06, 0x07, 0x08] 0 0 [])) =
    some ⟨0, 0x807060504030201, 0, 0, [], [0x01, 0x02, 0x03, 0x04, 0x05, 0x06, 0x07, 0x08], 8⟩ := by decide

theorem test_getS64Le : after (exec .getS64Le (before [0x80, 0x00, 0x00, 0x00, 0x00, 0x00, 0x00, 0x01] 0 0 [])) =
    some ⟨0, 0x100000000000080, 0, 0, [], [0x80, 0x00, 0x00, 0x00, 0x00, 0x00, 0x00, 0x01], 8⟩ := by decide

theorem test_getS64Le_short : after (exec .getS64Le (before [0x01, 0x02, 0x03, 0x04, 0x05, 0x06, 0x07] 0 0 [])) =
    some ⟨1, 0, 8, 7, [], [0x01, 0x02, 0x03, 0x04, 0x05, 0x06, 0x07], 0⟩ := by decide

theorem test_put64Be : after (exec .put64Be (before [] 0 0x102030405060708 [])) =
    some ⟨0, 8, 0, 0, [], [0x01, 0x02, 0x03, 0x04, 0x05, 0x06, 0x07, 0x08], 0⟩ := by decide

theorem test_put64Le : after (exec .put64Le (before [] 0 0x102030405060708 [])) =
    some ⟨0, 8, 0, 0, [], [0x08, 0x07, 0x06, 0x05, 0x04, 0x03, 0x02, 0x01], 0⟩ := by decide

/-! 95_test_vectors.md section 4 -/

theorem test_getF32Be : after (exec .getF32Be (before [0x7F, 0xA0, 0x00, 0x01] 0 0 [])) =
    some ⟨0, 0x7fa00001, 0, 0, [], [0x7F, 0xA0, 0x00, 0x01], 4⟩ := by decide

theorem test_getF32Le : after (exec .getF32Le (before [0x01, 0x00, 0xA0, 0xFF] 0 0 [])) =
    some ⟨0, 0xffa00001, 0, 0, [], [0x01, 0x00, 0xA0, 0xFF], 4⟩ := by decide

theorem test_getF32Le_short : after (exec .getF32Le (before [0x00, 0x00, 0x80] 0 0 [])) =
    some ⟨1, 0, 4, 3, [], [0x00, 0x00, 0x80], 0⟩ := by decide

theorem test_putF32Be : after (exec .putF32Be (before [] 0 0x7fa00001 [])) =
    some ⟨0, 4, 0, 0, [], [0x7F, 0xA0, 0x00, 0x01], 0⟩ := by decide

theorem test_putF32Le : after (exec .putF32Le (before [] 0 0xffffffff80000000 [])) =
    some ⟨0, 4, 0, 0, [], [0x00, 0x00, 0x00, 0x80], 0⟩ := by decide

theorem test_getF64Be : after (exec .getF64Be (before [0x3F, 0xF8, 0x00, 0x00, 0x00, 0x00, 0x00, 0x00] 0 0 [])) =
    some ⟨0, 0x3ff8000000000000, 0, 0, [], [0x3F, 0xF8, 0x00, 0x00, 0x00, 0x00, 0x00, 0x00], 8⟩ := by decide

theorem test_getF64Le : after (exec .getF64Le (before [0x00, 0x00, 0x00, 0x00, 0x00, 0x00, 0xF8, 0x3F] 0 0 [])) =
    some ⟨0, 0x3ff8000000000000, 0, 0, [], [0x00, 0x00, 0x00, 0x00, 0x00, 0x00, 0xF8, 0x3F], 8⟩ := by decide

theorem test_putF64Be : after (exec .putF64Be (before [] 0 0x3fb999999999999a [])) =
    some ⟨0, 8, 0, 0, [], [0x3F, 0xB9, 0x99, 0x99, 0x99, 0x99, 0x99, 0x9A], 0⟩ := by decide

theorem test_putF64Le : after (exec .putF64Le (before [] 0 0x7ff0000000000001 [])) =
    some ⟨0, 8, 0, 0, [], [0x01, 0x00, 0x00, 0x00, 0x00, 0x00, 0xF0, 0x7F], 0⟩ := by decide

theorem test_getF32rBe : after (exec (.getF32rBe 0) (before [0x40, 0x20, 0x00, 0x00] 0 0 [])) =
    some ⟨0, 0x4008000000000000, 0, 0, [], [0x40, 0x20, 0x00, 0x00], 4⟩ := by decide

theorem test_getF32rLe : after (exec (.getF32rLe 1) (before [0xCD, 0xCC, 0xCC, 0x3D] 0 0 [])) =
    some ⟨0, 0x3fb999999999999a, 0, 0, [], [0xCD, 0xCC, 0xCC, 0x3D], 4⟩ := by decide

theorem test_getF32rBe_again : after (exec (.getF32rBe 2) (before [0x40, 0x49, 0x0F, 0xDB] 0 0 [])) =
    some ⟨0, 0x40091eb851eb851f, 0, 0, [], [0x40, 0x49, 0x0F, 0xDB], 4⟩ := by decide

/-! 95_test_vectors.md section 5 -/

theorem test_getUv32 : after (exec .getUv32 (before [0xFF, 0xFF, 0xFF, 0xFF, 0x7F] 0 0 [])) =
    some ⟨0, 0xffffffff, 0, 0, [], [0xFF, 0xFF, 0xFF, 0xFF, 0x7F], 5⟩ := by decide

theorem test_getUv32_malformed : after (exec .getUv32 (before [0x80, 0x80, 0x80, 0x80, 0x80] 0 0 [])) =
    some ⟨2, 0, 0, 0, [], [0x80, 0x80, 0x80, 0x80, 0x80], 0⟩ := by decide

theorem test_getSv32 : after (exec .getSv32 (before [0xFF, 0xFF, 0xFF, 0xFF, 0x7F] 0 0 [])) =
    some ⟨0, 0xffffffff80000000, 0, 0, [], [0xFF, 0xFF, 0xFF, 0xFF, 0x7F], 5⟩ := by decide

theorem test_putUv32 : after (exec .putUv32 (before [] 0 0x10000012c [])) =
    some ⟨0, 2, 0, 0, [], [0xAC, 0x02], 0⟩ := by decide

theorem test_putSv32 : after (exec .putSv32 (before [] 0 0x80000000 [])) =
    some ⟨0, 5, 0, 0, [], [0xFF, 0xFF, 0xFF, 0xFF, 0x0F], 0⟩ := by decide

theorem test_putUv64 : after (exec .putUv64 (before [] 0 0xffffffffffffffff [])) =
    some ⟨0, 0xa, 0, 0, [], [0xFF, 0xFF, 0xFF, 0xFF, 0xFF, 0xFF, 0xFF, 0xFF, 0xFF, 0x01], 0⟩ := by decide

theorem test_putSv64 : after (exec .putSv64 (before [] 0 0x8000000000000000 [])) =
    some ⟨0, 0xa, 0, 0, [], [0xFF, 0xFF, 0xFF, 0xFF, 0xFF, 0xFF, 0xFF, 0xFF, 0xFF, 0x01], 0⟩ := by decide

theorem test_getUv64 : after (exec .getUv64 (before [0x80, 0x80, 0x80, 0x80, 0x80, 0x80, 0x80, 0x80, 0x80, 0x02] 0 0 [])) =
    some ⟨0, 0, 0, 0, [], [0x80, 0x80, 0x80, 0x80, 0x80, 0x80, 0x80, 0x80, 0x80, 0x02], 10⟩ := by decide

theorem test_getUv64_malformed : after (exec .getUv64 (before [0x80, 0x80, 0x80, 0x80, 0x80, 0x80, 0x80, 0x80, 0x80, 0x80, 0x00] 0 0 [])) =
    some ⟨2, 0, 0, 0, [], [0x80, 0x80, 0x80, 0x80, 0x80, 0x80, 0x80, 0x80, 0x80, 0x80, 0x00], 0⟩ := by decide

theorem test_getSv64 : after (exec .getSv64 (before [0xFF, 0xFF, 0xFF, 0xFF, 0xFF, 0xFF, 0xFF, 0xFF, 0xFF, 0x01] 0 0 [])) =
    some ⟨0, 0x8000000000000000, 0, 0, [], [0xFF, 0xFF, 0xFF, 0xFF, 0xFF, 0xFF, 0xFF, 0xFF, 0xFF, 0x01], 10⟩ := by decide

theorem test_putSv32_again : after (exec .putSv32 (before [] 0 0x100000001 [])) =
    some ⟨0, 1, 0, 0, [], [0x02], 0⟩ := by decide

/-! 95_test_vectors.md section 6 -/

theorem test_getRaw : after (exec .getRaw (before [0x01, 0x02, 0x03, 0x04] 2 2 [])) =
    some ⟨0, 2, 0, 0, [0x03, 0x04], [0x01, 0x02, 0x03, 0x04], 4⟩ := by decide

theorem test_getRaw_argument : after (exec .getRaw (before [0x01, 0x02, 0x03, 0x04] 2 0xffffffffffffffff [])) =
    some ⟨3, 0, 0, 0, [], [0x01, 0x02, 0x03, 0x04], 2⟩ := by decide

theorem test_putRaw : after (exec .putRaw (before [0x01, 0x02, 0x03, 0x04] 4 0 [0x09, 0x08])) =
    some ⟨0, 2, 0, 0, [], [0x01, 0x02, 0x03, 0x04, 0x09, 0x08], 4⟩ := by decide

theorem test_getRem : after (exec .getRem (before [0x01, 0x02, 0x03, 0x04] 0 0 [])) =
    some ⟨0, 4, 0, 0, [0x01, 0x02, 0x03, 0x04], [0x01, 0x02, 0x03, 0x04], 4⟩ := by decide

theorem test_getRem_short : after (exec .getRem (before [0x01, 0x02, 0x03, 0x04] 4 0 [])) =
    some ⟨1, 0, 1, 0, [], [0x01, 0x02, 0x03, 0x04], 4⟩ := by decide

theorem test_construct : after (exec .construct (before [0x01, 0x02, 0x03, 0x04, 0x09, 0x08] 6 2 [0xAA, 0xBB])) =
    some ⟨0, 0, 0, 0, [], [0xAA, 0xBB], 2⟩ := by decide

theorem test_rewind : after (exec .rewind (before [0x01, 0x02, 0x03, 0x04] 4 0 [])) =
    some ⟨0, 0, 0, 0, [], [0x01, 0x02, 0x03, 0x04], 0⟩ := by decide

theorem test_setoff : after (exec .setoff (before [0x01, 0x02, 0x03, 0x04, 0x09, 0x08] 4 6 [])) =
    some ⟨0, 0, 0, 0, [], [0x01, 0x02, 0x03, 0x04, 0x09, 0x08], 6⟩ := by decide

theorem test_setoff_argument : after (exec .setoff (before [0x01, 0x02, 0x03, 0x04, 0x09, 0x08] 6 0x8000000000000000 [])) =
    some ⟨3, 0, 0, 0, [], [0x01, 0x02, 0x03, 0x04, 0x09, 0x08], 6⟩ := by decide

theorem test_getoff : after (exec .getoff (before [0x01, 0x02, 0x03, 0x04, 0x09, 0x08] 6 0 [])) =
    some ⟨0, 6, 0, 0, [], [0x01, 0x02, 0x03, 0x04, 0x09, 0x08], 6⟩ := by decide

theorem test_getbuf : after (exec .getbuf (before [0x01, 0x02, 0x03, 0x04, 0x09, 0x08] 4 0 [])) =
    some ⟨0, 6, 0, 0, [0x01, 0x02, 0x03, 0x04, 0x09, 0x08], [0x01, 0x02, 0x03, 0x04, 0x09, 0x08], 4⟩ := by decide

theorem test_feof : after (exec .feof (before [0x01, 0x02, 0x03, 0x04] 0 0 [])) =
    some ⟨0, 0, 0, 0, [], [0x01, 0x02, 0x03, 0x04], 0⟩ := by decide

theorem test_feof_again : after (exec .feof (before [0x01, 0x02, 0x03, 0x04] 4 0 [])) =
    some ⟨0, 1, 0, 0, [], [0x01, 0x02, 0x03, 0x04], 4⟩ := by decide

theorem test_construct_argument : after (exec .construct (before [0x01, 0x02, 0x03, 0x04, 0x09, 0x08] 6 3 [0xAA, 0xBB])) =
    some ⟨3, 0, 0, 0, [], [0x01, 0x02, 0x03, 0x04, 0x09, 0x08], 6⟩ := by decide

/-! 95_test_vectors.md section 6, BUFCAP = 4 -/

theorem test_put8_full : after (exec .put8 { before [0x00, 0x00, 0x00, 0x01] 0 1 [] with config := smallConfig }) =
    some ⟨5, 0, 0, 0, [], [0x00, 0x00, 0x00, 0x01], 0⟩ := by decide

/-- The two tie rules on 2.5 and -2.5, and the one quiet NaN (42_float.md rule R133). -/
theorem test_roundDec32_ties :
    roundDec32 .away 0x40200000 0 = 0x4008000000000000 ∧ roundDec32 .even 0x40200000 0 = 0x4000000000000000 ∧
    roundDec32 .away 0xC0200000 0 = 0xC008000000000000 ∧ roundDec32 .even 0xFFC00001 7 = 0x7FF8000000000000 := by decide

/-! ### Witnesses: states and operands that meet the hypotheses of each obligation, at the edges of their clauses -/

/-- Four bytes, two of them unread, room for six more; OPND = 2 and a payload of two bytes. -/
def half : State := { before [1, 2, 3, 4] 2 2 [9, 8] with config := tenConfig }

/-- A full buffer of ten bytes with the cursor at its end. -/
def full : State := { before [1, 2, 3, 4, 5, 6, 7, 8, 9, 10] 10 1 [1] with config := tenConfig }

/-- Nine unread bytes, room for one more. -/
def nine : State := { before [1, 2, 3, 4, 5, 6, 7, 8, 9] 0 0x12C [] with config := tenConfig }

/-- A command GET.U8 as the host presents it. -/
def getU8Command : Command := { cw := 0x0000, opnd := 0, pay := [] }

theorem witness_sound_states : half.BufSound ∧ full.BufSound ∧ nine.BufSound ∧ State.reset.BufSound := by decide

theorem witness_ResetLeavesTheListedValues : { full with opnd := 0, pay := [] }.opnd = 0 ∧
    { full with opnd := 0, pay := [] }.pay = [] := by decide

theorem witness_ResetEventLeavesTheResetState :
    { half with pending := [.reset] }.pending = .reset :: [] := by decide

theorem witness_StepKeepsTheInvariant :
    { State.reset with pending := [.command getU8Command] }.Inv ∧
    ∃ t, step { State.reset with pending := [.command getU8Command] } = .next t := ⟨by decide, _, rfl⟩

theorem witness_StepNeverStops : { half with pending := [.command getU8Command] }.BufSound := by decide

theorem witness_FailedCommandChangesOnlyTheResponse :
    (∃ t, exec .getU8 State.reset = .next t ∧ t.status ≠ 0) ∧
    ∃ t, exec .put8 full = .next t ∧ t.status ≠ 0 ∧ t.status ≠ 1 :=
  ⟨⟨_, rfl, by decide⟩, _, rfl, by decide, by decide⟩

theorem witness_NeedAndHaveCountTheBytes :
    half.CursorInRange ∧ (∃ t, exec .getU32Be half = .next t ∧ t.status = 1) ∧
    ∃ t, exec .getU16Be half = .next t ∧ t.status ≠ 1 :=
  ⟨by decide, ⟨_, rfl, by decide⟩, _, rfl, by decide⟩

theorem witness_UnreadOperandsAreIgnored :
    (0x22C : Word64) ≠ nine.opnd ∧ (0x22C : Word64) &&& opndMask .put8 = nine.opnd &&& opndMask .put8 ∧
    Instr.put8 ≠ .putRaw ∧ Instr.put8 ≠ .construct := by decide

theorem witness_ParametersAndInterfaceAreKept :
    (∃ t, exec .put8 nine = .next t) ∧ ∃ t, step { nine with pending := [.reset] } = .next t := ⟨⟨_, rfl⟩, _, rfl⟩

theorem witness_BytesInTheBufferStay :
    { half with pending := [.command getU8Command] }.BufSound ∧
    (∃ t, step { half with pending := [.command getU8Command] } = .next t) ∧
    (∀ rest, { half with pending := [.command getU8Command] }.pending ≠ .reset :: rest) ∧
    (∀ c rest, { half with pending := [.command getU8Command] }.pending = .command c :: rest →
      decode c.cw ≠ .instr .construct) ∧
    half.buf.read 3 = some 4 :=
  ⟨by decide, ⟨_, rfl⟩, fun _ h => (nomatch h), fun c _ h => by cases h; decide, by decide⟩

theorem witness_CursorMovesAsListed :
    half.BufSound ∧ (∃ t, exec .getRaw half = .next t ∧ t.status = 0) ∧
    ∃ t, exec .getU32Be half = .next t ∧ t.status ≠ 0 := ⟨by decide, ⟨_, rfl, by decide⟩, _, rfl, by decide⟩

theorem witness_StatusIsNeverAReservedCode : ∃ t, exec .construct half = .next t := ⟨_, rfl⟩

theorem witness_KindsComeFromTheListedCommands :
    (∃ t, exec .getRem full = .next t ∧ t.status = 1) ∧ (∃ t, exec .getUv32 full = .next t ∧ t.status = 2) ∧
    (∃ t, exec .setoff { full with opnd := 11 } = .next t ∧ t.status = 3) ∧
    ∃ t, exec .put8 full = .next t ∧ t.status = 5 :=
  ⟨⟨_, rfl, by decide⟩, ⟨_, rfl, by decide⟩, ⟨_, rfl, by decide⟩, _, rfl, by decide⟩

theorem witness_OneResponsePerCommandInOrder :
    { half with pending := [.command getU8Command] }.BufSound ∧
    { half with pending := [.command getU8Command] }.pending = .command getU8Command :: [] := by decide

theorem witness_CommandListRunsStraightThrough :
    { half with pending := [.command getU8Command, .command getU8Command] }.BufSound ∧
    { half with pending := [.command getU8Command, .command getU8Command] }.pending =
      [getU8Command, getU8Command].map HostEvent.command := by decide

theorem witness_DecodeOfEncodeIsTheCommand :
    (Instr.getF32rBe 255).wellFormed = true ∧ (Instr.getF32rLe 0).wellFormed = true := by decide

theorem witness_EncodeOfDecodeIsTheWord : decode 0xFF35 = .instr (.getF32rLe 255) := by decide

theorem witness_EveryRowSelectsItsCommand :
    ⟨0x00FF#16, 0x0031#16, .getF32rBe⟩ ∈ opTable ∧ (0xFF31 : CmdWord) &&& 0x00FF = 0x0031 :=
  ⟨by simp [opTable, tableFloat], by decide⟩

theorem witness_ReservedWordsAreThoseListed :
    reservedByRule 0x0100 = true ∧ reservedByRule 0xFFFF = true ∧ reservedByRule 0x007E = true ∧
    reservedByRule 0x007D = false ∧ reservedByRule 0xFF31 = false := by decide

theorem witness_StepAnswersAReservedWord :
    { half with pending := [.command { cw := 0x007E, opnd := 7, pay := [] }] }.pending =
      .command { cw := 0x007E, opnd := 7, pay := [] } :: [] ∧ reservedByRule 0x007E = true := by decide

theorem witness_StepRunsTheDecodedCommand :
    decode getU8Command.cw = .instr .getU8 ∧
    (∃ t, exec .getU8 { half with opnd := 0, pay := [], pending := [] } = .next t) ∧
    ∃ f, exec .getU8 { State.reset with len := 1, opnd := 0, pay := [], pending := [] } = .fault f :=
  ⟨by decide, ⟨_, rfl⟩, _, rfl⟩

/-- For every width of the fixed-width reads, a state with one byte too few and one with just enough: the hypotheses of
ByteReadsFollowTheirRules (1), ShortReadsFollowTheirRules (2), TriadReadsFollowTheirRules (3), IntReadsFollowTheirRules (4),
LongReadsFollowTheirRules (8) and FloatReadsKeepThePattern (4, 8). -/
theorem witness_FixedReadRule :
    ∀ n ∈ [1, 2, 3, 4, 8], { nine with off := BitVec.ofNat 32 (10 - n) }.BufSound ∧
      { nine with off := BitVec.ofNat 32 (9 - n) }.BufSound ∧
      nine.len.toNat - (BitVec.ofNat 32 (10 - n)).toNat < n ∧ n ≤ nine.len.toNat - (BitVec.ofNat 32 (9 - n)).toNat := by
  decide

/-- For every length of the writes, a state with one byte of room too few and one with just enough: the hypotheses of
ByteWritesFollowTheirRules (1), ShortWritesFollowTheirRules (2), TriadWritesFollowTheirRules (3), IntWritesFollowTheirRules (4),
LongWritesFollowTheirRules (8), FloatWritesKeepThePattern (4, 8), PutRawFollowsItsRule (any), UnsignedVarWritesFollowTheirRules
and SignedVarWritesFollowTheirRules (1 to 5, 1 to 10). -/
theorem witness_WriteRule :
    ∀ n ∈ [1, 2, 3, 4, 8, 5, 10], { before [1] 0 0 [] with config := ⟨Fin.ofNat _ n, .away⟩ }.BufSound ∧
      (before [] 0 0 []).BufSound ∧
      { before [1] 0 0 [] with config := ⟨Fin.ofNat _ n, .away⟩ }.config.bufcap.val < (before [1] 0 0 []).len.toNat + n ∧
      (before [] 0 0 []).len.toNat + n ≤ { before [1] 0 0 [] with config := ⟨Fin.ofNat _ n, .away⟩ }.config.bufcap.val := by
  decide

theorem witness_RoundedReadsFollowTheirRules :
    (255 < 256 ∧ 0 < 256) ∧ { nine with off := 6 }.BufSound ∧ nine.len.toNat - 6 < 4 ∧
    { nine with off := 5 }.BufSound ∧ 4 ≤ nine.len.toNat - 5 := by decide

theorem witness_RoundDec32FollowsItsRule :
    255 < 256 ∧
    (((0x7F800001 : BitVec 32).extractLsb' 23 8).toNat = 255 ∧ (0x7F800001 : BitVec 32).extractLsb' 0 23 ≠ 0) ∧
    (((0xFF800000 : BitVec 32).extractLsb' 23 8).toNat = 255 ∧ (0xFF800000 : BitVec 32).extractLsb' 0 23 = 0) ∧
    ((0x7F7FFFFF : BitVec 32).extractLsb' 23 8).toNat ≠ 255 := by decide

/-- Both cases of the rounded integer: 0 for the zero pattern, 1 for 1.0. -/
theorem witness_RoundDec32FollowsItsRule_integers :
    RoundsTo .away (absValue32 0 * 10 ^ 0) 0 ∧ RoundsTo .away (absValue32 0x3F800000 * 10 ^ 0) 1 := by
  have h0 : ((0 : BitVec 32).extractLsb' 23 8).toNat = 0 ∧ ((0 : BitVec 32).extractLsb' 0 23).toNat = 0 := by decide
  have h1 : ((0x3F800000 : BitVec 32).extractLsb' 23 8).toNat = 127 ∧ ((0x3F800000 : BitVec 32).extractLsb' 0 23).toNat = 0 := by
    decide
  constructor
  · simp only [RoundsTo, absValue32, h0]
    norm_num
  · simp only [RoundsTo, absValue32, h1]
    norm_num

/-- The two ends of the normal range: 2^-1022 and (2^53 - 1) * 2^971. -/
theorem witness_Rne64FollowsItsRule :
    ((2 : ℚ) ^ (-1022 : ℤ) ≤ ((1 : ℕ) : ℚ) / (2 ^ 1022 : ℕ) ∧
      ((1 : ℕ) : ℚ) / (2 ^ 1022 : ℕ) ≤ (2 - 2 ^ (-52 : ℤ)) * 2 ^ (1023 : ℤ)) ∧
    ((2 : ℚ) ^ (-1022 : ℤ) ≤ ((2 ^ 53 - 1) * 2 ^ 971 : ℕ) / ((1 : ℕ) : ℚ) ∧
      ((2 ^ 53 - 1) * 2 ^ 971 : ℕ) / ((1 : ℕ) : ℚ) ≤ (2 - 2 ^ (-52 : ℤ)) * 2 ^ (1023 : ℤ)) := by
  have ha : (2 : ℚ) ^ (-1022 : ℤ) = ((2 : ℚ) ^ 1022)⁻¹ := by rw [zpow_neg]; rfl
  have hb : (2 : ℚ) ^ (1023 : ℤ) = 2 ^ 52 * 2 ^ 971 := by
    rw [← pow_add]
    rfl
  have hx : (1 : ℚ) ≤ 2 ^ 971 := one_le_pow₀ (by norm_num)
  have hy : ((2 : ℚ) ^ 1022)⁻¹ ≤ 1 := inv_le_one_of_one_le₀ (one_le_pow₀ (by norm_num))
  rw [ha, hb]
  rw [show ((2 ^ 1022 : ℕ) : ℚ) = 2 ^ 1022 from Nat.cast_pow 2 1022, Nat.cast_mul,
    show ((2 ^ 971 : ℕ) : ℚ) = 2 ^ 971 from Nat.cast_pow 2 971]
  clear ha hb
  generalize (2 : ℚ) ^ 971 = x at *
  generalize (2 : ℚ) ^ 1022 = y at *
  refine ⟨⟨by simp, ?_⟩, ?_, ?_⟩ <;> norm_num <;> linarith

theorem witness_RoundedReadIsExactOnIntegers :
    149 < 256 ∧ ((0x00000001 : BitVec 32).extractLsb' 23 8).toNat ≠ 255 ∧
    ((0x4B000000 : BitVec 32).extractLsb' 23 8).toNat ≠ 255 ∧ 2 ^ 23 ≤ absValue32 0x4B000000 ∧
    ∃ k : ℕ, absValue32 0 * 10 ^ 0 = k := by
  have h0 : ((0 : BitVec 32).extractLsb' 23 8).toNat = 0 ∧ ((0 : BitVec 32).extractLsb' 0 23).toNat = 0 := by decide
  have h1 : ((0x4B000000 : BitVec 32).extractLsb' 23 8).toNat = 150 ∧ ((0x4B000000 : BitVec 32).extractLsb' 0 23).toNat = 0 := by
    decide
  refine ⟨by decide, by decide, by decide, ?_, 0, ?_⟩
  · simp only [absValue32, h1]
    norm_num
  · simp only [absValue32, h0]
    norm_num

theorem witness_RoundedReadIsZeroOrNormal : 255 < 256 ∧ ((0x00000001 : BitVec 32).extractLsb' 23 8).toNat ≠ 255 := by decide

/-- A terminated sequence at the cursor, from its bytes. -/
theorem sequenceAtCursor_of_bytes {s : State} {maxB k : Nat} (h1 : k < maxB) (h2 : k < s.len.toNat - s.off.toNat)
    (h3 : ∀ j, j < k → (s.buf.read (s.off.toNat + j)).map BitVec.msb = some true)
    (h4 : (s.buf.read (s.off.toNat + k)).map BitVec.msb = some false) : SequenceAtCursor s maxB k := by
  refine ⟨h1, h2, fun j hj b hb => ?_, fun b hb => ?_⟩
  · simpa [hb] using h3 j hj
  · simpa [hb] using h4

/-- No terminated sequence at the cursor, from the bytes within the limit. -/
theorem no_sequenceAtCursor_of_bytes {s : State} {maxB : Nat}
    (h : ∀ j, j < maxB → j < s.len.toNat - s.off.toNat → (s.buf.read (s.off.toNat + j)).map BitVec.msb = some true) (k : Nat) :
    ¬ SequenceAtCursor s maxB k := by
  rintro ⟨h1, h2, -, h4⟩
  have hk := h k h1 h2
  cases hb : s.buf.read (s.off.toNat + k) with
  | none => simp [hb] at hk
  | some b => simp [hb, h4 b hb] at hk

/-- UnsignedVarReadsFollowTheirRules and SignedVarReadsFollowTheirRules, 32-bit domain: sequences of one and of five bytes; and none in an empty rest, and none in five bytes that all
continue. -/
theorem witness_VarReadRule_32 :
    (SequenceAtCursor (before [0x7F] 0 0 []) 5 0 ∧ SequenceAtCursor (before [0xFF, 0xFF, 0xFF, 0xFF, 0x0F] 0 0 []) 5 4) ∧
    (∀ k, ¬ SequenceAtCursor (before [0x7F] 1 0 []) 5 k) ∧
    ∀ k, ¬ SequenceAtCursor (before [0x80, 0x80, 0x80, 0x80, 0x80, 0x00] 0 0 []) 5 k :=
  ⟨⟨sequenceAtCursor_of_bytes (by decide) (by decide) (by decide) (by decide),
    sequenceAtCursor_of_bytes (by decide) (by decide) (by decide) (by decide)⟩,
    no_sequenceAtCursor_of_bytes (by decide), no_sequenceAtCursor_of_bytes (by decide)⟩

/-- UnsignedVarReadsFollowTheirRules and SignedVarReadsFollowTheirRules, 64-bit domain: sequences of one and of ten bytes; and none in ten bytes that all continue. -/
theorem witness_VarReadRule_64 :
    (SequenceAtCursor (before [0x7F] 0 0 []) 10 0 ∧
      SequenceAtCursor (before [0x80, 0x80, 0x80, 0x80, 0x80, 0x80, 0x80, 0x80, 0x80, 0x01] 0 0 []) 10 9) ∧
    (∀ k, ¬ SequenceAtCursor (before [0x7F] 1 0 []) 10 k) ∧
    ∀ k, ¬ SequenceAtCursor (before [0x80, 0x80, 0x80, 0x80, 0x80, 0x80, 0x80, 0x80, 0x80, 0x80, 0x00] 0 0 []) 10 k :=
  ⟨⟨sequenceAtCursor_of_bytes (by decide) (by decide) (by decide) (by decide),
    sequenceAtCursor_of_bytes (by decide) (by decide) (by decide) (by decide)⟩,
    no_sequenceAtCursor_of_bytes (by decide), no_sequenceAtCursor_of_bytes (by decide)⟩

theorem witness_VarEncodingIsTheShortest :
    (Terminated [0x80, 0x00] ∧ groupsValue [0x80, 0x00] = (0 : BitVec 32).toNat) ∧ 1 < 5 ∧
    (varEnc 5 (0xFFFFFFFF : BitVec 32)).length = 5 ∧ (varEnc 10 (0x8000000000000000 : BitVec 64)).length = 10 := by
  refine ⟨⟨⟨by decide, ?_⟩, by decide⟩, by decide, by decide, by decide⟩
  intro k h
  match k, h with
  | 0, _ => exact (by decide : (0x80 : Byte).msb = true)
  | 1, _ => exact (by decide : (0x00 : Byte).msb = false)

theorem witness_GetRawFollowsItsRule :
    half.BufSound ∧ (-1 : Word64).toInt < 0 ∧ (0 : Word64).toInt = 0 ∧
    (0 < (3 : Word64).toInt ∧ half.len.toNat - half.off.toNat < (3 : Word64).toNat) ∧
    (0 < half.opnd.toInt ∧ half.opnd.toNat ≤ half.len.toNat - half.off.toNat) := by decide

theorem witness_GetRemFollowsItsRule :
    full.BufSound ∧ full.len.toNat ≤ full.off.toNat ∧ { full with off := 9 }.BufSound ∧ (9 : Word32).toNat < full.len.toNat := by
  decide

theorem witness_ConstructFollowsItsRule :
    half.pay.length < (3 : Word64).toNat ∧ half.opnd.toNat ≤ half.pay.length ∧
    half.pay.length ≤ half.config.bufcap.val ∧
    { half with config := { bufcap := 1, tieRule := .away } }.config.bufcap.val < half.pay.length := by decide

theorem witness_CursorCommandsFollowTheirRules :
    half.len.toNat < (5 : Word64).toNat ∧ (4 : Word64).toNat ≤ half.len.toNat := by decide

theorem witness_InspectingCommandsFollowTheirRules : half.BufBacked ∧ State.reset.BufBacked := by decide

theorem witness_StreamCommandsRelate :
    half.BufSound ∧ 0 < fixedReadWidth .getU16Be ∧ (∃ t, exec .getU16Be half = .next t) ∧
    (∃ u, exec .getRaw { half with opnd := BitVec.ofNat 64 (fixedReadWidth .getU16Be) } = .next u) ∧
    half.off.toNat < half.len.toNat ∧ 0 < half.len.toNat :=
  ⟨by decide, by decide, ⟨_, rfl⟩, ⟨_, rfl⟩, by decide, by decide⟩

/-- A read of four bytes with two unread and two to append; and a sequence whose second byte is still to be appended. -/
theorem witness_RetryAfterAppendSucceeds :
    (half.BufSound ∧ half.len.toNat + half.pay.length ≤ half.config.bufcap.val ∧
      (∃ t, exec .getU32Be half = .next t ∧ t.status = 1) ∧
      bytesAsked .getU32Be half ≤ half.len.toNat - half.off.toNat + half.pay.length) ∧
    (before [0x80] 0 0 [0x01]).BufSound ∧
    (before [0x80] 0 0 [0x01]).len.toNat + (before [0x80] 0 0 [0x01]).pay.length ≤
      (before [0x80] 0 0 [0x01]).config.bufcap.val ∧
    ∃ t, exec .getUv32 (before [0x80] 0 0 [0x01]) = .next t ∧ t.status = 2 ∧
      ∃ u, exec .putRaw t = .next u ∧ SequenceAtCursor u (varReadLimit .getUv32) 1 :=
  ⟨⟨by decide, by decide, ⟨_, rfl, by decide⟩, by decide⟩, by decide, by decide, _, rfl, by decide, _, rfl,
    sequenceAtCursor_of_bytes (by decide) (by decide) (by decide) (by decide)⟩

theorem witness_RepeatedFailureIsTheSame : ∃ t, exec .put8 full = .next t ∧ t.status ≠ 0 := ⟨_, rfl, by decide⟩

/-- Room for just the eight bytes of a long behind the cursor at the end of the buffer. -/
theorem witness_FixedWidthRoundTrip :
    { before [1, 2] 2 0x12C [] with config := tenConfig }.BufSound ∧
    (before [1, 2] 2 0x12C []).off = (before [1, 2] 2 0x12C []).len ∧
    (before [1, 2] 2 0x12C []).len.toNat + fixedReadWidth .getU64Be ≤ tenConfig.bufcap.val := by decide

/-- Just enough room, in units of one, five and ten bytes: the six pairs; PUT.UV64 with five bytes and with six; the two
ends of the signed range. -/
theorem witness_VarintRoundTrip :
    (∀ i ∈ [Instr.putUv32, .putSv32, .putUv64, .putSv64],
      { before [] 0 0 [] with config := ⟨1, .away⟩ }.BufSound ∧ 0 + bytesPut i (before [] 0 0 []) ≤ 1 ∧
      full.BufSound ∧ bytesPut i (before [] 0 0xFFFFFFFFFFFFFFFF []) ≤ tenConfig.bufcap.val) ∧
    (bytesPut .putUv64 (before [] 0 0x7FFFFFFFF []) = 5 ∧ bytesPut .putUv64 (before [] 0 0x800000000 []) = 6) ∧
    (-2 ^ 31 ≤ (before [] 0 0xFFFFFFFF80000000 []).opnd.toInt ∧ (before [] 0 0xFFFFFFFF80000000 []).opnd.toInt < 2 ^ 31 ∧
      bytesPut .putSv64 (before [] 0 0xFFFFFFFF80000000 []) = 5) ∧
    (-2 ^ 31 ≤ (before [] 0 0x7FFFFFFF []).opnd.toInt ∧ (before [] 0 0x7FFFFFFF []).opnd.toInt < 2 ^ 31) := by decide

/-- Each clause at its edge: lengths 1, 0 and -1, offsets 0 and 1, a PUT and a payload that just fit and that do not. -/
theorem witness_EveryCommandRunsFromReset :
    (0 < fixedReadWidth .getU8 ∧ 0 < (1 : Word64).toInt) ∧ 0 < varReadLimit .getUv32 ∧ (-1 : Word64).toInt < 0 ∧
    (1 : Word64) ≠ 0 ∧ isPut .put32Be = true ∧
    bytesPut .put32Be (State.resetWith smallConfig 0 []) ≤ smallConfig.bufcap.val ∧
    smallConfig.bufcap.val < bytesPut .putRaw (State.resetWith smallConfig 0 [1, 2, 3, 4, 5]) ∧
    ([1, 2, 3] : List Byte).length < (4 : Word64).toNat ∧
    ((5 : Word64).toNat ≤ ([1, 2, 3, 4, 5] : List Byte).length ∧ smallConfig.bufcap.val < ([1, 2, 3, 4, 5] : List Byte).length) ∧
    (4 : Word64).toNat ≤ ([1, 2, 3, 4] : List Byte).length ∧ ([1, 2, 3, 4] : List Byte).length ≤ smallConfig.bufcap.val := by
  decide

end Sys2Proof.Tests
end

section
/-!
SUPPORT. How each family of commands runs, and what a command's error response or success says about OFF, NEED and HAVE
(10_state.md rules R20, R23, R30).
-/

namespace Sys2Proof.Machine

/-! ### The families of commands

Each family is one shared operation with the family's parameter. In these lemmas the case split over the commands drops
those outside the family, and the rest hold by definition. -/

/-- Every command is a PUT, a fixed-width read, a variable-length read, or one of eight others. -/
theorem instr_family (i : Instr) :
    isPut i = true ∨ 0 < fixedReadWidth i ∨ 0 < varReadLimit i ∨ i = .getRaw ∨ i = .getRem ∨ i = .construct ∨
      i = .rewind ∨ i = .setoff ∨ i = .getoff ∨ i = .getbuf ∨ i = .feof := by
  cases i <;> simp [isPut, fixedReadWidth, varReadLimit]

theorem exec_of_isPut {i : Instr} (hi : isPut i = true) (s : State) : ∃ bs, exec i s = putBytes bs s := by
  cases i <;> simp [isPut] at hi
  all_goals exact ⟨_, rfl⟩

theorem exec_of_fixedRead {i : Instr} (hi : 0 < fixedReadWidth i) (s : State) :
    ∃ value : List Byte × State → Word64,
      exec i s = finish s (take (fixedReadWidth i) s) fun p => p.2.respondOk (value p) [] := by
  cases i <;> simp [fixedReadWidth] at hi
  all_goals exact ⟨_, rfl⟩

theorem exec_of_varRead {i : Instr} (hi : 0 < varReadLimit i) (s : State) :
    ∃ (w : Nat) (value : BitVec w × State → Word64),
      exec i s = finish s (varDec w (varReadLimit i) s) fun p => p.2.respondOk (value p) [] := by
  cases i <;> simp [varReadLimit] at hi
  all_goals exact ⟨_, _, rfl⟩

theorem fixedReadWidth_le (i : Instr) : fixedReadWidth i ≤ 8 := by
  cases i <;> simp [fixedReadWidth]

theorem bytesAsked_of_fixedRead {i : Instr} (hi : 0 < fixedReadWidth i) (s : State) :
    bytesAsked i s = fixedReadWidth i := by
  cases i <;> simp [fixedReadWidth] at hi
  all_goals rfl

/-- NEED can hold the number of bytes asked for. -/
theorem bytesAsked_lt (i : Instr) (s : State) : bytesAsked i s < 2 ^ 64 := by
  unfold bytesAsked
  split
  · exact s.opnd.isLt
  · decide
  · have := fixedReadWidth_le i
    omega

theorem movesOff_of_isPut {i : Instr} (hi : isPut i = true) (s t : State) :
    movesOff i s t ↔ t.off.toNat = s.off.toNat := by
  cases i <;> simp [isPut] at hi
  all_goals rfl

theorem movesOff_of_fixedRead {i : Instr} (hi : 0 < fixedReadWidth i) (s t : State) :
    movesOff i s t ↔ t.off.toNat = s.off.toNat + fixedReadWidth i := by
  cases i <;> simp [fixedReadWidth] at hi
  all_goals rfl

theorem movesOff_of_varRead {i : Instr} (hi : 0 < varReadLimit i) (s t : State) :
    movesOff i s t ↔ ∃ k, 1 ≤ k ∧ k ≤ varReadLimit i ∧ t.off.toNat = s.off.toNat + k ∧
      ∃ bs, bs.length = k ∧ BytesAt s.buf s.off.toNat bs ∧ Terminated bs := by
  cases i <;> simp [varReadLimit] at hi
  all_goals rfl

@[simp] theorem movesOff_respondOk (i : Instr) (s t : State) (r : Word64) (d : List Byte) :
    movesOff i s (t.respondOk r d) ↔ movesOff i s t := by
  cases i <;> rfl

/-! ### Numbers as register values -/

theorem toNat_ofNat_of_fits {w n : Nat} (h : n < 2 ^ w) : (BitVec.ofNat w n).toNat = n :=
  (BitVec.toNat_ofNat n w).trans (Nat.mod_eq_of_lt h)

/-- A number within BUFCAP fits LEN and OFF. -/
theorem toNat_ofNat_of_le_bufcap {s : State} {n : Nat} (h : n ≤ s.config.bufcap.val) :
    (BitVec.ofNat 32 n).toNat = n :=
  toNat_ofNat_of_fits (h.trans_lt s.config.bufcap.isLt)

/-- A length that is not negative is OPND itself. -/
theorem opndLength_toNat {s : State} (h : 0 ≤ s.opndLength) : s.opndLength.toNat = s.opnd.toNat := by
  have := s.opnd.isLt
  simp only [State.opndLength, BitVec.toInt_eq_toNat_cond] at h ⊢
  split at h <;> omega

/-! ### The bytes a variable-length read consumes (rules R140, R142) -/

theorem bytesAt_cons (m : Memory) (a : Nat) (b : Byte) (bs : List Byte) :
    BytesAt m a (b :: bs) ↔ m.read a = some b ∧ BytesAt m (a + 1) bs := by
  have shift (k : Nat) : a + 1 + k = a + (k + 1) := by omega
  constructor
  · intro h
    refine ⟨h 0 (by simp), fun k hk => ?_⟩
    rw [shift]
    exact h (k + 1) (by simpa using hk)
  · rintro ⟨hb, hbs⟩ k hk
    cases k with
    | zero => exact hb
    | succ k =>
      rw [← shift]
      exact hbs k (by simpa using hk)

@[simp] theorem bytesAt_nil (m : Memory) (a : Nat) : BytesAt m a [] := by simp [BytesAt]

theorem terminated_singleton {b : Byte} (hb : b.msb = false) : Terminated [b] :=
  ⟨by simp, fun k hk => by
    obtain rfl : k = 0 := by simpa using hk
    simpa using hb⟩

theorem terminated_cons {b : Byte} {bs : List Byte} (hb : b.msb = true) (h : Terminated bs) :
    Terminated (b :: bs) := by
  obtain ⟨hne, hbs⟩ := h
  refine ⟨by simp, fun k hk => ?_⟩
  cases k with
  | zero => simpa [hb] using List.length_pos_iff.2 hne
  | succ k => simpa using hbs k (by simpa using hk)

/-- The decode loop's test of bit 7. -/
theorem bit7_eq_zero_iff (b : Byte) : b.extractLsb' 7 1 = 0 ↔ b.msb = false := by
  revert b; decide

/-- If the decode loop answers from byte `i` on, the bytes from there to its count are one terminated sequence. -/
theorem varDecLoop_terminated {a : Nat} {s : State} {left i : Nat} {acc : BitVec a} {p : BitVec a × Nat}
    (h : varDecLoop s left i acc = .ok p) :
    ∃ bs, i + bs.length = p.2 ∧ BytesAt s.buf (s.off.toNat + i) bs ∧ Terminated bs := by
  induction left generalizing i acc with
  | zero => simp [varDecLoop] at h
  | succ left ih =>
    unfold varDecLoop at h
    split at h
    · simp at h
    · split at h
      · simp at h
      · rename_i b hb
        split at h
        · rename_i hlast
          obtain rfl := Except.ok.inj h
          exact ⟨[b], rfl, (bytesAt_cons ..).2 ⟨hb, bytesAt_nil _ _⟩,
            terminated_singleton ((bit7_eq_zero_iff b).1 hlast)⟩
        · rename_i hmore
          obtain ⟨bs, hlen, hbs, hterm⟩ := ih h
          refine ⟨b :: bs, ?_, (bytesAt_cons ..).2 ⟨hb, hbs⟩, terminated_cons ?_ hterm⟩
          · rw [List.length_cons]; omega
          · rwa [bit7_eq_zero_iff, Bool.not_eq_false] at hmore

/-- If `VarDec_W` answers, a terminated sequence stands at the cursor and OFF has moved past it. -/
theorem varDec_terminated {w maxB : Nat} {s : State} {p : BitVec w × State} (h : varDec w maxB s = .ok p) :
    ∃ bs, Terminated bs ∧ BytesAt s.buf s.off.toNat bs ∧ 1 ≤ bs.length ∧ bs.length ≤ maxB ∧
      p.2.off.toNat = s.off.toNat + bs.length := by
  unfold varDec at h
  split at h
  · simp at h
  · rename_i acc k hk
    obtain rfl := Except.ok.inj h
    obtain ⟨hpos, hmax, hlen⟩ := varDecLoop_ok hk
    obtain ⟨bs, hbs, hat, hterm⟩ := varDecLoop_terminated hk
    obtain rfl : bs.length = k := by simpa using hbs
    exact ⟨bs, hterm, hat, hpos, by simpa using hmax, cursor_toNat hlen⟩

/-! ### What an error response and a success say (rules R23, R30, R180) -/

/-- What it says that a command ends with an error of this kind: the commands of rule R180's table, and for
InsufficientData the two counts of rule R30. -/
def MayRaise (i : Instr) (s : State) : Kind → Prop
  | .insufficientData need available =>
    (0 < fixedReadWidth i ∨ i = .getRaw ∨ i = .getRem) ∧
      need = bytesAsked i s ∧ available = s.remaining ∧ available < need
  | .malformedVarint => 0 < varReadLimit i
  | .invalidArgument => i = .getRaw ∨ i = .setoff ∨ i = .construct
  | .capacity => isPut i = true ∨ i = .construct

/-- The two ends of a command, each with what it says: the error is one the command may raise, or OFF has moved as rule
R23 lists. -/
def RaisesOrMoves (i : Instr) (s t : State) : Prop :=
  (∃ e, MayRaise i s e ∧ t = s.respondRaise e) ∨ ∃ s1 r d, t = s1.respondOk r d ∧ movesOff i s s1

theorem raisesOrMoves_of_finish {α : Type} {i : Instr} {s t : State} {r : Except Stop α} {k : α → State}
    (hr : ∀ e, r = .error (.raised e) → MayRaise i s e)
    (hk : ∀ a, r = .ok a → ∃ s1 x d, k a = s1.respondOk x d ∧ movesOff i s s1) (h : finish s r k = .next t) :
    RaisesOrMoves i s t := by
  rcases finish_next h with ⟨a, ha, rfl⟩ | ⟨e, he, rfl⟩
  · exact .inr (hk a ha)
  · exact .inl ⟨e, hr e he, rfl⟩

theorem put_raisesOrMoves {i : Instr} {s t : State} (hi : isPut i = true) (h : exec i s = .next t) :
    RaisesOrMoves i s t := by
  obtain ⟨bs, hexec⟩ := exec_of_isPut hi s
  refine raisesOrMoves_of_finish (fun e he => ?_) (fun s1 hs1 => ?_) (hexec ▸ h)
  · obtain rfl := Stop.raised.inj (append_error he)
    exact .inl hi
  · obtain ⟨-, rfl⟩ := append_ok hs1
    exact ⟨_, _, _, rfl, (movesOff_of_isPut hi ..).2 rfl⟩

theorem fixedRead_raisesOrMoves {i : Instr} {s t : State} (hi : 0 < fixedReadWidth i) (h : exec i s = .next t) :
    RaisesOrMoves i s t := by
  obtain ⟨value, hexec⟩ := exec_of_fixedRead hi s
  refine raisesOrMoves_of_finish (fun e he => ?_) (fun p hp => ?_) (hexec ▸ h)
  · obtain ⟨hlt, rfl⟩ := take_raised he
    exact ⟨.inl hi, (bytesAsked_of_fixedRead hi s).symm, rfl, hlt⟩
  · obtain ⟨hle, -, -, hp⟩ := take_ok hp
    refine ⟨_, _, _, rfl, (movesOff_of_fixedRead hi ..).2 ?_⟩
    rw [hp]
    exact cursor_toNat (by simp only [State.remaining] at hle; omega)

theorem varRead_raisesOrMoves {i : Instr} {s t : State} (hi : 0 < varReadLimit i) (h : exec i s = .next t) :
    RaisesOrMoves i s t := by
  obtain ⟨w, value, hexec⟩ := exec_of_varRead hi s
  refine raisesOrMoves_of_finish (fun e he => ?_) (fun p hp => ?_) (hexec ▸ h)
  · obtain rfl := varDec_raised he
    exact hi
  · obtain ⟨bs, hterm, hat, hpos, hmax, hoff⟩ := varDec_terminated hp
    exact ⟨_, _, _, rfl, (movesOff_of_varRead hi ..).2 ⟨_, hpos, hmax, hoff, bs, rfl, hat, hterm⟩⟩

theorem getRaw_raisesOrMoves {s t : State} (h : exec .getRaw s = .next t) : RaisesOrMoves .getRaw s t := by
  refine raisesOrMoves_of_finish (fun e he => ?_) (fun p hp => ?_) h
  · rcases takeRaw_raised he with ⟨-, rfl⟩ | ⟨hlt, rfl⟩
    · exact .inl rfl
    · exact ⟨.inr (.inl rfl), opndLength_toNat (by omega), rfl, by omega⟩
  · refine ⟨_, _, _, rfl, ?_⟩
    change p.2.off.toNat = s.off.toNat + s.opnd.toNat
    rcases takeRaw_ok hp with ⟨hzero, rfl⟩ | ⟨hpos, hle, -, -, hp⟩
    · rw [← opndLength_toNat hzero.ge, hzero]; rfl
    · rw [hp, ← opndLength_toNat hpos.le]
      exact cursor_toNat (by simp only [State.remaining] at hle; omega)

theorem getRem_raisesOrMoves {s t : State} (h : exec .getRem s = .next t) : RaisesOrMoves .getRem s t := by
  refine raisesOrMoves_of_finish (fun e he => ?_) (fun p hp => ?_) h
  · obtain ⟨hle, rfl⟩ := takeRemaining_raised he
    exact ⟨.inr (.inr rfl), rfl, (Nat.sub_eq_zero_of_le hle).symm, Nat.one_pos⟩
  · obtain ⟨hlt, -, -, hp⟩ := takeRemaining_ok hp
    refine ⟨_, _, _, rfl, ?_⟩
    change p.2.off = s.len
    have hend : s.off.toNat + s.remaining = s.len.toNat := Nat.add_sub_of_le hlt.le
    rw [hp, hend]
    exact BitVec.eq_of_toNat_eq (by simp)

theorem setoff_raisesOrMoves {s t : State} (h : exec .setoff s = .next t) : RaisesOrMoves .setoff s t := by
  refine raisesOrMoves_of_finish (fun e he => ?_) (fun s1 hs1 => ?_) h
  · obtain ⟨-, he⟩ := moveCursor_error he
    obtain rfl := Stop.raised.inj he
    exact .inr (.inl rfl)
  · obtain ⟨hle, rfl⟩ := moveCursor_ok hs1
    exact ⟨_, _, _, rfl, toNat_ofNat_of_fits (hle.trans_lt s.len.isLt)⟩

theorem construct_raisesOrMoves {s t : State} (h : exec .construct s = .next t) : RaisesOrMoves .construct s t := by
  refine raisesOrMoves_of_finish (fun e he => ?_) (fun s1 hs1 => ?_) h
  · rcases loadBuffer_error he with ⟨-, he⟩ | ⟨-, -, he⟩
    · obtain rfl := Stop.raised.inj he
      exact .inr (.inr rfl)
    · obtain rfl := Stop.raised.inj he
      exact .inr rfl
  · obtain ⟨hoff, hlen, rfl⟩ := loadBuffer_ok hs1
    exact ⟨_, _, _, rfl, toNat_ofNat_of_le_bufcap (hoff.trans hlen)⟩

/-- Every command's end, from every state: an error that the command may raise, or OFF moved as rule R23 lists. -/
theorem exec_raisesOrMoves {i : Instr} {s t : State} (h : exec i s = .next t) : RaisesOrMoves i s t := by
  rcases instr_family i with hi | hi | hi | rfl | rfl | rfl | rfl | rfl | rfl | rfl | rfl
  · exact put_raisesOrMoves hi h
  · exact fixedRead_raisesOrMoves hi h
  · exact varRead_raisesOrMoves hi h
  · exact getRaw_raisesOrMoves h
  · exact getRem_raisesOrMoves h
  · exact construct_raisesOrMoves h
  · exact .inr ⟨_, _, _, (Host.Outcome.next.inj h).symm, rfl⟩
  · exact setoff_raisesOrMoves h
  · exact .inr ⟨_, _, _, (Host.Outcome.next.inj h).symm, rfl⟩
  · exact raisesOrMoves_of_finish (fun e he => absurd he (memRead_ne_raised _ _ _ _)) (fun _ _ => ⟨_, _, _, rfl, rfl⟩) h
  · exact .inr ⟨_, _, _, (Host.Outcome.next.inj h).symm, rfl⟩

/-! ### What a success keeps -/

theorem Moved.cursorInRange {i : Instr} {s s1 : State} (h : Moved i s s1) (hs : s.CursorInRange) :
    s1.CursorInRange := by
  obtain ⟨hoff, hcap⟩ := hs
  cases h with
  | same => exact ⟨hoff, hcap⟩
  | cursor o _ ho =>
    refine ⟨?_, hcap⟩
    calc (BitVec.ofNat 32 o).toNat ≤ o := by rw [BitVec.toNat_ofNat]; exact Nat.mod_le ..
      _ ≤ s.len.toNat := by omega
  | appended bs _ _ happend =>
    obtain ⟨hfit, rfl⟩ := append_ok happend
    simp only [State.CursorInRange, append_len_toNat hfit]
    omega
  | loaded _ _ hload =>
    obtain ⟨hin, hfit, rfl⟩ := loadBuffer_ok hload
    simp only [State.CursorInRange, toNat_ofNat_of_le_bufcap hfit, toNat_ofNat_of_le_bufcap (hin.trans hfit)]
    exact ⟨hin, hfit⟩

/-- No command leaves OFF beyond LEN or LEN beyond BUFCAP (rules R21, R22). -/
theorem exec_cursorInRange {i : Instr} {s t : State} (hs : s.CursorInRange) (h : exec i s = .next t) :
    t.CursorInRange := by
  rcases exec_next h with ⟨e, rfl⟩ | ⟨s1, r, d, hmoved, rfl⟩
  · exact hs
  · exact hmoved.cursorInRange hs

/-- BUF has not shrunk and every byte in it has kept its value (rule R20). -/
def KeepsBytes (s t : State) : Prop :=
  s.len.toNat ≤ t.len.toNat ∧ ∀ a b, s.buf.read a = some b → t.buf.read a = some b

theorem keepsBytes_refl (s : State) : KeepsBytes s s := ⟨le_rfl, fun _ _ h => h⟩

/-- Only CONSTRUCT loads a buffer; an append writes above every byte that BUF holds. -/
theorem Moved.keepsBytes {i : Instr} {s s1 : State} (h : Moved i s s1) (hi : i ≠ .construct) (hs : s.BufBacked) :
    KeepsBytes s s1 := by
  cases h with
  | same => exact keepsBytes_refl s
  | cursor => exact keepsBytes_refl s
  | appended bs _ _ happend =>
    obtain ⟨hfit, rfl⟩ := append_ok happend
    refine ⟨by simp only [append_len_toNat hfit]; omega, fun a b hb => ?_⟩
    have hlt : a < s.len.toNat := (Memory.isSome_of_range s.buf _ a hs).1 (by simp [hb])
    rwa [Memory.read_writeBytes_outside _ _ _ _ (.inl hlt)]
  | loaded _ hconstruct => exact absurd hconstruct hi

theorem exec_keepsBytes {i : Instr} {s t : State} (hi : i ≠ .construct) (hs : s.BufBacked)
    (h : exec i s = .next t) : KeepsBytes s t := by
  rcases exec_next h with ⟨e, rfl⟩ | ⟨s1, r, d, hmoved, rfl⟩
  · exact keepsBytes_refl s
  · exact hmoved.keepsBytes hi hs

/-! ### The response registers of an error (rules R29, R30) -/

theorem Kind.code_ne_zero (e : Kind) : e.code ≠ 0 := by
  cases e <;> simp [Kind.code]

/-- The numbers of InsufficientData as NEED and HAVE hold them: neither wraps. -/
theorem needValue_haveValue_of_mayRaise {i : Instr} {s : State} {e : Kind} (h : MayRaise i s e) (he : e.code = 1) :
    e.needValue.toNat = bytesAsked i s ∧ e.haveValue.toNat = s.remaining ∧ s.remaining < bytesAsked i s := by
  cases e with
  | insufficientData need available =>
    obtain ⟨-, rfl, rfl, hlt⟩ := h
    have hneed := bytesAsked_lt i s
    exact ⟨toNat_ofNat_of_fits hneed, toNat_ofNat_of_fits (hlt.trans hneed), hlt⟩
  | malformedVarint => simp [Kind.code] at he
  | invalidArgument => simp [Kind.code] at he
  | capacity => simp [Kind.code] at he

theorem needValue_haveValue_eq_zero {e : Kind} (he : e.code ≠ 1) : e.needValue = 0 ∧ e.haveValue = 0 := by
  cases e with
  | insufficientData need available => exact absurd rfl he
  | malformedVarint => exact ⟨rfl, rfl⟩
  | invalidArgument => exact ⟨rfl, rfl⟩
  | capacity => exact ⟨rfl, rfl⟩

/-! ### The statements of 10_state.md -/

/-- Settles O7: the error's own two numbers are the counts, and `ok` and every other error write 0. -/
theorem needAndHaveCountTheBytes : Obligations.NeedAndHaveCountTheBytes := by
  intro i s t _ h
  rcases exec_raisesOrMoves h with ⟨e, he, rfl⟩ | ⟨s1, r, d, rfl, -⟩
  · refine ⟨fun hcode => ?_, needValue_haveValue_eq_zero⟩
    obtain ⟨hneed, hhave, hlt⟩ := needValue_haveValue_of_mayRaise he hcode
    exact ⟨hneed, hhave, by simpa [hneed, hhave] using hlt⟩
  · exact ⟨fun hcode => absurd hcode (by simp), fun _ => ⟨rfl, rfl⟩⟩

/-- Settles O11: by the cases of a step; all but the executed command leave BUF alone. -/
theorem bytesInTheBufferStay : Obligations.BytesInTheBufferStay := by
  intro s t hs h hreset hconstruct
  rcases step_next h with ⟨-, rfl⟩ | ⟨rest, hp, -⟩ | ⟨c, rest, i, u, hp, hi, hu, rfl⟩ | ⟨c, rest, why, -, -, rfl⟩
  · exact keepsBytes_refl _
  · exact absurd hp (hreset rest)
  · have hne : i ≠ .construct := fun heq => hconstruct c rest hp (heq ▸ hi)
    have hkeeps : KeepsBytes (s.present c rest) u := exec_keepsBytes hne hs.1 hu
    exact hkeeps
  · exact keepsBytes_refl s

/-- Settles O12: an error response leaves OFF alone, a success moves it as listed, and both keep it within LEN. -/
theorem cursorMovesAsListed : Obligations.CursorMovesAsListed := by
  intro i s t hs h
  have hrange : t.off.toNat ≤ t.len.toNat := (exec_cursorInRange hs.2 h).1
  rcases exec_raisesOrMoves h with ⟨e, -, rfl⟩ | ⟨s1, r, d, rfl, hmoves⟩
  · exact ⟨fun hcode => absurd hcode e.code_ne_zero, fun _ => rfl, hrange⟩
  · exact ⟨fun _ => (movesOff_respondOk ..).2 hmoves, fun hcode => absurd rfl hcode, hrange⟩

end Sys2Proof.Machine
end

section
/-!
SUPPORT. A failed read repeated after an append (20_memory.md rule R53): which commands a failure's STATUS leaves possible,
what PUT.RAW leaves for the repeated read, and when a read succeeds.
-/

namespace Sys2Proof.Machine

/-! ### What the failure says -/

/-- A command that does not answer OK ended with an error response it may raise, on the state it started in. -/
theorem raised_of_status_ne_zero {i : Instr} {s t : State} (h : exec i s = .next t) (ht : t.status ≠ 0) :
    ∃ e, MayRaise i s e ∧ t = s.respondRaise e := by
  rcases exec_raisesOrMoves h with he | ⟨s1, r, d, rfl, -⟩
  · exact he
  · exact absurd rfl ht

/-- The reads that end in InsufficientData exactly when too few bytes remain: GET.RAW of a negative length is none of
them (rules R42, R160, R162). -/
def AsksForBytes (i : Instr) (s : State) : Prop :=
  0 < fixedReadWidth i ∨ (i = .getRaw ∧ 0 ≤ s.opndLength) ∨ i = .getRem

theorem opndLength_nonneg_of_getRaw_short {s t : State} (h : exec .getRaw s = .next t) (ht : t.status = 1) :
    0 ≤ s.opndLength := by
  rcases finish_next h with ⟨p, -, rfl⟩ | ⟨e, he, rfl⟩
  · exact absurd ht (by simp)
  · rcases takeRaw_raised he with ⟨-, rfl⟩ | ⟨hlt, -⟩
    · simp [Kind.code] at ht
    · omega

theorem asksForBytes_of_short {i : Instr} {s t : State} (h : exec i s = .next t) (ht : t.status = 1) :
    AsksForBytes i s := by
  obtain ⟨e, he, rfl⟩ := raised_of_status_ne_zero h (by simp [ht])
  cases e with
  | insufficientData need available =>
    obtain ⟨hi | rfl | rfl, -⟩ := he
    · exact .inl hi
    · exact .inr (.inl ⟨rfl, opndLength_nonneg_of_getRaw_short h ht⟩)
    · exact .inr (.inr rfl)
  | malformedVarint => simp [Kind.code] at ht
  | invalidArgument => simp [Kind.code] at ht
  | capacity => simp [Kind.code] at ht

theorem varReadLimit_pos_of_malformed {i : Instr} {s t : State} (h : exec i s = .next t) (ht : t.status = 2) :
    0 < varReadLimit i := by
  obtain ⟨e, he, rfl⟩ := raised_of_status_ne_zero h (by simp [ht])
  cases e with
  | insufficientData need available => simp [Kind.code] at ht
  | malformedVarint => exact he
  | invalidArgument => simp [Kind.code] at ht
  | capacity => simp [Kind.code] at ht

/-! ### The append between the two reads (rules R44, R161) -/

/-- PUT.RAW with room for PAY: the state stays sound, and a read that follows meets the old cursor and operand and
as many more bytes as PAY has. -/
theorem putRaw_of_room {s : State} (hs : s.BufSound) (hroom : s.len.toNat + s.pay.length ≤ s.config.bufcap.val) :
    ∃ u, exec .putRaw s = .next u ∧ u.status = 0 ∧ u.BufSound ∧ u.off = s.off ∧ u.opnd = s.opnd ∧
      u.len.toNat = s.len.toNat + s.pay.length := by
  rcases putBytes_cases s.pay s with ⟨-, hput⟩ | ⟨hfull, -⟩
  · refine ⟨_, hput, rfl, ⟨?_, exec_cursorInRange (i := .putRaw) hs.2 hput⟩, rfl, rfl, append_len_toNat hroom⟩
    simp only [State.BufBacked, State.respondOk_buf, State.respondOk_len, append_len_toNat hroom]
    exact Memory.range_writeBytes _ _ _ hs.1
  · omega

theorem bytesAsked_congr (i : Instr) {s u : State} (h : u.opnd = s.opnd) : bytesAsked i u = bytesAsked i s := by
  unfold bytesAsked
  rw [h]

theorem AsksForBytes.congr {i : Instr} {s u : State} (h : AsksForBytes i s) (hopnd : u.opnd = s.opnd) :
    AsksForBytes i u := by
  unfold AsksForBytes State.opndLength
  rw [hopnd]
  exact h

/-! ### Reads with enough bytes (rules R42, R160, R162) -/

theorem takeRaw_enough {s : State} (hs : s.BufSound) (hpos : 0 ≤ s.opndLength) (h : s.opnd.toNat ≤ s.remaining) :
    ∃ p, takeRaw s = .ok p := by
  have hlen := opndLength_toNat hpos
  unfold takeRaw
  rw [if_neg (by omega)]
  split
  · exact ⟨_, rfl⟩
  · rw [if_neg (by omega), hlen]
    have hoff : s.off.toNat ≤ s.len.toNat := hs.2.1
    have hend : s.off.toNat + s.opnd.toNat ≤ s.len.toNat := by simp only [State.remaining] at h; omega
    obtain ⟨bs, hbs, -⟩ := readAtCursor_of_backed hs.1 hend
    exact ⟨_, hbs⟩

theorem takeRemaining_enough {s : State} (hs : s.BufSound) (h : 0 < s.remaining) : ∃ p, takeRemaining s = .ok p := by
  have hlt : s.off.toNat < s.len.toNat := Nat.lt_of_sub_pos h
  have hend : s.off.toNat + s.remaining ≤ s.len.toNat := (Nat.add_sub_of_le hlt.le).le
  obtain ⟨bs, hbs, -⟩ := readAtCursor_of_backed hs.1 hend
  exact ⟨_, by rw [takeRemaining, if_neg (by omega), hbs]⟩

/-- A command whose checks let it through answers OK. -/
theorem finish_respondOk {α : Type} {s : State} {r : Except Stop α} {k : α → State} {x : α → Word64}
    {d : α → List Byte} (h : ∃ a, r = .ok a) :
    ∃ v, finish s r (fun a => (k a).respondOk (x a) (d a)) = .next v ∧ v.status = 0 := by
  obtain ⟨a, rfl⟩ := h
  exact ⟨_, rfl, rfl⟩

theorem read_of_enough {i : Instr} {s : State} (hi : AsksForBytes i s) (hs : s.BufSound)
    (h : bytesAsked i s ≤ s.remaining) : ∃ v, exec i s = .next v ∧ v.status = 0 := by
  rcases hi with hi | ⟨rfl, hpos⟩ | rfl
  · obtain ⟨value, hexec⟩ := exec_of_fixedRead hi s
    rw [bytesAsked_of_fixedRead hi] at h
    obtain ⟨bs, hbs, -⟩ := take_enough hs h
    rw [hexec]
    exact finish_respondOk ⟨_, hbs⟩
  · exact finish_respondOk (takeRaw_enough hs hpos h)
  · exact finish_respondOk (takeRemaining_enough hs h)

/-- Rule R23's move of a read that asks for a number of bytes; GET.REM takes all that remain. -/
theorem off_of_movesOff {i : Instr} {s v : State} (hi : AsksForBytes i s) (hrem : i ≠ .getRem) (h : movesOff i s v) :
    v.off.toNat = s.off.toNat + bytesAsked i s := by
  rcases hi with hi | ⟨rfl, -⟩ | rfl
  · rw [bytesAsked_of_fixedRead hi]
    exact (movesOff_of_fixedRead hi s v).1 h
  · exact h
  · exact absurd rfl hrem

/-! ### Variable-length reads of a terminated sequence (rules R140, R142) -/

/-- A terminated sequence is one byte with bit 7 clear, or a byte with bit 7 set before a terminated sequence. -/
theorem terminated_of_cons {b : Byte} {bs : List Byte} (h : Terminated (b :: bs)) :
    (b.msb = false ∧ bs = []) ∨ (b.msb = true ∧ Terminated bs) := by
  obtain ⟨-, hbits⟩ := h
  have hb : b.msb = decide (1 < (b :: bs).length) := hbits 0 (by simp)
  rcases List.eq_nil_or_concat bs with rfl | ⟨cs, c, rfl⟩
  · exact .inl ⟨by simpa using hb, rfl⟩
  · refine .inr ⟨by simpa using hb, by simp, fun k hk => ?_⟩
    simpa using hbits (k + 1) (by simpa using hk)

/-- The converse of `varDecLoop_terminated`: the decode loop gets through a terminated sequence that lies within LEN and
its limit, and counts its bytes. -/
theorem varDecLoop_of_terminated {a : Nat} {s : State} {bs : List Byte} {left i : Nat} (acc : BitVec a)
    (hat : BytesAt s.buf (s.off.toNat + i) bs) (hterm : Terminated bs) (hleft : bs.length ≤ left)
    (hlen : s.off.toNat + i + bs.length ≤ s.len.toNat) :
    ∃ acc', varDecLoop s left i acc = .ok (acc', i + bs.length) := by
  induction bs generalizing left i acc with
  | nil => exact absurd rfl hterm.1
  | cons b bs ih =>
    obtain ⟨hb, hbs⟩ := (bytesAt_cons ..).1 hat
    rw [List.length_cons] at hleft hlen ⊢
    obtain ⟨left, rfl⟩ : ∃ n, left = n + 1 := ⟨left - 1, by omega⟩
    rw [varDecLoop, if_neg (by omega)]
    simp only [hb, bit7_eq_zero_iff]
    rcases terminated_of_cons hterm with ⟨hlast, rfl⟩ | ⟨hmore, hrest⟩
    · rw [if_pos hlast]
      exact ⟨_, rfl⟩
    · rw [if_neg (by simp [hmore]), Nat.add_comm bs.length 1, ← Nat.add_assoc]
      exact ih _ hbs hrest (by omega) (by omega)

/-- In a sound buffer the bytes of `SequenceAtCursor` are a terminated sequence. -/
theorem SequenceAtCursor.terminated {s : State} {maxB k : Nat} (hs : s.BufBacked) (h : SequenceAtCursor s maxB k) :
    ∃ bs, bs.length = k + 1 ∧ BytesAt s.buf s.off.toNat bs ∧ Terminated bs := by
  obtain ⟨-, hlen, hmore, hlast⟩ := h
  obtain ⟨bs, -, hbs, hat⟩ := readBytes_of_backed s hs s.off.toNat (k + 1) (by omega)
  refine ⟨bs, hbs, hat, by rintro rfl; simp at hbs, fun j hj => ?_⟩
  have hread : s.buf.read (s.off.toNat + j) = some bs[j] := by rw [hat j hj, List.getElem?_eq_getElem hj]
  rcases Nat.lt_or_ge j k with hjk | hjk
  · rw [hmore j hjk _ hread]
    exact (decide_eq_true (by omega)).symm
  · obtain rfl : j = k := by omega
    rw [hlast _ hread]
    exact (decide_eq_false (by omega)).symm

/-- With a terminated sequence at the cursor a variable-length read succeeds and moves OFF past it. -/
theorem varRead_of_sequence {i : Instr} {s : State} {k : Nat} (hi : 0 < varReadLimit i) (hs : s.BufBacked)
    (h : SequenceAtCursor s (varReadLimit i) k) :
    ∃ v, exec i s = .next v ∧ v.status = 0 ∧ v.off.toNat = s.off.toNat + (k + 1) := by
  obtain ⟨bs, hbs, hat, hterm⟩ := h.terminated hs
  obtain ⟨hlimit, hlen, -⟩ := h
  have hend : s.off.toNat + (k + 1) ≤ s.len.toNat := by omega
  obtain ⟨w, value, hexec⟩ := exec_of_varRead hi s
  obtain ⟨acc, hloop⟩ := varDecLoop_of_terminated (left := varReadLimit i) (i := 0) (0 : BitVec (7 * varReadLimit i))
    hat hterm (by omega) (by omega)
  rw [Nat.zero_add, hbs] at hloop
  have hdec : varDec w (varReadLimit i) s =
      .ok (acc.setWidth w, { s with off := BitVec.ofNat 32 (s.off.toNat + (k + 1)) }) := by
    rw [varDec, hloop]
  exact ⟨_, by rw [hexec, hdec, finish_ok], rfl, cursor_toNat hend⟩

/-! ### The statement of 20_memory.md -/

/-- InsufficientData's half of rule R53, from the failed state: append PAY, then read again. -/
theorem short_read_retried {i : Instr} {s : State} (hi : AsksForBytes i s) (hs : s.BufSound)
    (hroom : s.len.toNat + s.pay.length ≤ s.config.bufcap.val)
    (henough : bytesAsked i s ≤ s.len.toNat - s.off.toNat + s.pay.length) :
    ∃ u v, exec .putRaw s = .next u ∧ u.status = 0 ∧ exec i u = .next v ∧ v.status = 0 ∧
      (i ≠ .getRem → v.off.toNat = s.off.toNat + bytesAsked i s) := by
  obtain ⟨u, hput, hu0, hu, hoff, hopnd, hlen⟩ := putRaw_of_room hs hroom
  have hiu : AsksForBytes i u := hi.congr hopnd
  have hasked : bytesAsked i u = bytesAsked i s := bytesAsked_congr i hopnd
  have hcursor : s.off.toNat ≤ s.len.toNat := hs.2.1
  have hremaining : bytesAsked i u ≤ u.remaining := by
    rw [hasked, State.remaining, hoff, hlen]
    omega
  obtain ⟨v, hv, hv0⟩ := read_of_enough hiu hu hremaining
  refine ⟨u, v, hput, hu0, hv, hv0, fun hrem => ?_⟩
  rw [← hasked, ← hoff]
  exact off_of_movesOff hiu hrem ((cursorMovesAsListed i u v hu hv).1 hv0)

/-- MalformedVarint's half of rule R53, from the failed state. -/
theorem malformed_read_retried {i : Instr} {s : State} (hi : 0 < varReadLimit i) (hs : s.BufSound)
    (hroom : s.len.toNat + s.pay.length ≤ s.config.bufcap.val) :
    ∃ u, exec .putRaw s = .next u ∧ u.status = 0 ∧
      ∀ k, SequenceAtCursor u (varReadLimit i) k →
        ∃ v, exec i u = .next v ∧ v.status = 0 ∧ v.off.toNat = s.off.toNat + (k + 1) := by
  obtain ⟨u, hput, hu0, hu, hoff, -, -⟩ := putRaw_of_room hs hroom
  refine ⟨u, hput, hu0, fun k hk => ?_⟩
  rw [← hoff]
  exact varRead_of_sequence hi hu.1 hk

/-- Settles O55: the error response has left the buffer, the cursor and the inputs as they were, so PUT.RAW appends PAY
where the failed read stopped short, and the read repeated meets what it lacked. -/
theorem retryAfterAppendSucceeds : Obligations.RetryAfterAppendSucceeds := by
  intro i s t hs hroom h
  refine ⟨fun ht => ?_, fun ht => ?_⟩
  · have hi := asksForBytes_of_short h ht
    obtain ⟨e, -, rfl⟩ := raised_of_status_ne_zero h (by simp [ht])
    have hretry := short_read_retried (s := s.respondRaise e) (hi.congr rfl) hs hroom
    rw [bytesAsked_congr i (s.respondRaise_opnd e)] at hretry
    exact ⟨rfl, ⟨rfl, fun _ => rfl⟩, hretry⟩
  · have hi := varReadLimit_pos_of_malformed h ht
    obtain ⟨e, -, rfl⟩ := raised_of_status_ne_zero h (by simp [ht])
    exact ⟨rfl, ⟨rfl, fun _ => rfl⟩, malformed_read_retried (s := s.respondRaise e) hi hs hroom⟩

end Sys2Proof.Machine
end

section
/-!
SUPPORT. Which command words are reserved (30_encoding.md rules R68, R70, R71). ARG matters only in that it must be 0 where
the low byte is not a rounded read's; all else that the opcode map and rule R71's list ask is asked of the low byte.
-/

namespace Sys2Proof.Machine

/-! ### ARG and the low byte -/

/-- The word with the same low byte and ARG = 0. -/
def lowWord (cw : CmdWord) : CmdWord := cw &&& 0x00FF

/-- ARG is 0, or the low byte is a rounded read's, where ARG is the precision (rule R68). -/
def ArgAllowed (cw : CmdWord) : Prop := cw = lowWord cw ∨ lowWord cw = 0x31 ∨ lowWord cw = 0x35

theorem toNat_lowWord (cw : CmdWord) : (lowWord cw).toNat = cw.toNat % 256 := by
  simpa [lowWord] using Nat.and_two_pow_sub_one_eq_mod cw.toNat 8

theorem argAllowed_iff (cw : CmdWord) :
    ArgAllowed cw ↔ cw.toNat / 256 = 0 ∨ cw.toNat % 256 = 0x31 ∨ cw.toNat % 256 = 0x35 := by
  have hself : cw.toNat = cw.toNat % 256 ↔ cw.toNat / 256 = 0 := by omega
  rw [← hself]
  simp only [ArgAllowed, ← BitVec.toNat_inj, toNat_lowWord]
  rfl

theorem extractLsb'_lowWord (cw : CmdWord) {start len : Nat} (h : start + len ≤ 8) :
    (lowWord cw).extractLsb' start len = cw.extractLsb' start len := by
  ext i hi
  have hbit : start + i < 8 := by omega
  simp only [BitVec.getElem_extractLsb', BitVec.getLsbD, toNat_lowWord]
  rw [show 256 = 2 ^ 8 from rfl, Nat.testBit_mod_two_pow, decide_eq_true hbit, Bool.true_and]

/-! ### The opcode map -/

/-- The rows as rule R70 describes them: a row that looks at ARG asks for 0, and the two others are the rounded reads'. -/
theorem opTable_row {r : OpRow} (hr : r ∈ opTable) :
    r.mask = 0xFFFF ∧ lowWord r.pattern = r.pattern ∧ r.pattern ≠ 0x31 ∧ r.pattern ≠ 0x35 ∨
      r.mask = 0x00FF ∧ (r.pattern = 0x31 ∨ r.pattern = 0x35) := by
  revert r; decide

/-- A row matches the words with an allowed ARG and the row's own low byte. -/
theorem hits_iff {r : OpRow} (hr : r ∈ opTable) (cw : CmdWord) :
    r.hits cw = true ↔ ArgAllowed cw ∧ lowWord cw = r.pattern := by
  obtain ⟨hmask, hpat, h31, h35⟩ | ⟨hmask, hpat⟩ := opTable_row hr
  · have hhits : r.hits cw = true ↔ cw = r.pattern := by
      rw [OpRow.hits, hmask, beq_iff_eq, show cw &&& 0xFFFF = cw from BitVec.and_allOnes]
    rw [hhits]
    constructor
    · rintro rfl
      exact ⟨.inl hpat.symm, hpat⟩
    · rintro ⟨hself | hlow | hlow, hmatch⟩
      · exact hself.trans hmatch
      · exact absurd (hmatch.symm.trans hlow) h31
      · exact absurd (hmatch.symm.trans hlow) h35
  · have hhits : r.hits cw = true ↔ lowWord cw = r.pattern := by rw [OpRow.hits, hmask, beq_iff_eq, lowWord]
    rw [hhits]
    exact ⟨fun h => ⟨.inr (h ▸ hpat), h⟩, And.right⟩

/-- A word is reserved if and only if no row matches it (rule R71). -/
theorem decode_reserved_iff_no_hits (cw : CmdWord) :
    (∃ why, decode cw = .reserved why) ↔ ∀ r ∈ opTable, ¬ r.hits cw = true := by
  rw [← List.find?_eq_none]
  unfold decode
  cases opTable.find? (fun r => r.hits cw) with
  | none => simp
  | some r => simp

theorem decode_reserved_iff_pattern (cw : CmdWord) :
    (∃ why, decode cw = .reserved why) ↔ ¬ ArgAllowed cw ∨ ∀ r ∈ opTable, lowWord cw ≠ r.pattern := by
  rw [decode_reserved_iff_no_hits]
  by_cases harg : ArgAllowed cw
  · rw [or_iff_right (not_not_intro harg)]
    exact forall₂_congr fun r hr => by rw [hits_iff hr, and_iff_right harg]
  · exact iff_of_true (fun r hr h => harg ((hits_iff hr cw).1 h).1) (.inl harg)

/-! ### Rule R71's list -/

theorem typeOf_lowWord (cw : CmdWord) : typeOf (lowWord cw) = typeOf cw := extractLsb'_lowWord cw (by decide)

theorem flagsLegal_lowWord (cw : CmdWord) : flagsLegal (lowWord cw) = flagsLegal cw := by
  have hbit {start : Nat} (h : start + 1 ≤ 8) := extractLsb'_lowWord cw h
  simp only [flagsLegal, dirOf, leOf, sgnOf, rndOf, typeOf_lowWord, hbit (start := 7) (by decide),
    hbit (start := 2) (by decide), hbit (start := 1) (by decide), hbit (start := 0) (by decide)]

theorem reservedByRule_iff_lowWord (cw : CmdWord) :
    reservedByRule cw = true ↔ ¬ ArgAllowed cw ∨ reservedByRule (lowWord cw) = true := by
  have hlow : cw.toNat % 256 / 256 = 0 := by omega
  rw [argAllowed_iff]
  simp [reservedByRule, flagsLegal_lowWord, typeOf_lowWord, toNat_lowWord, hlow, or_assoc, and_assoc]

/-! ### The opcode map against the list -/

/-- The 256 low bytes: rule R71 lists those that no row has. -/
theorem not_mem_patterns_iff : ∀ n < 256,
    n ∉ opTable.map (·.pattern.toNat) ↔ reservedByRule (BitVec.ofNat 16 n) = true := by
  decide +kernel

theorem no_pattern_iff_reservedByRule (cw : CmdWord) :
    (∀ r ∈ opTable, lowWord cw ≠ r.pattern) ↔ reservedByRule (lowWord cw) = true := by
  have hlt : (lowWord cw).toNat < 256 := by rw [toNat_lowWord]; exact Nat.mod_lt _ (by decide)
  have hcheck := not_mem_patterns_iff _ hlt
  rw [BitVec.ofNat_toNat, BitVec.setWidth_eq] at hcheck
  rw [← hcheck]
  simp only [List.mem_map, BitVec.toNat_inj, not_exists, not_and, ne_comm, ne_eq]

theorem decode_reserved_iff_reservedByRule (cw : CmdWord) :
    (∃ why, decode cw = .reserved why) ↔ reservedByRule cw = true := by
  rw [decode_reserved_iff_pattern, reservedByRule_iff_lowWord, no_pattern_iff_reservedByRule]

/-! ### What a reserved word does -/

/-- `raise` of a kind that does not count bytes: its STATUS, NEED and HAVE 0, and nothing else written (rule R184). -/
theorem fails_respondRaise (s : State) {e : Kind} (he : e.code ≠ 1) : Fails s (s.respondRaise e) e.code 0 0 := by
  obtain ⟨hneed, hhave⟩ := needValue_haveValue_eq_zero he
  exact ⟨rfl, rfl, hneed, hhave, rfl, rfl, ⟨rfl, fun _ => rfl⟩, rfl, rfl, rfl, rfl, rfl⟩

/-- Settles O20: what the opcode map and rule R71's list ask of ARG is the same, and so is what they ask of the low byte. -/
theorem reservedWordsAreThoseListed : Obligations.ReservedWordsAreThoseListed :=
  ⟨decode_reserved_iff_reservedByRule,
    fun s => ⟨s.respondRaise .invalidArgument, rfl, fails_respondRaise s (e := .invalidArgument) (by decide)⟩⟩

end Sys2Proof.Machine
end

section
/-!
SUPPORT. The byte and boolean commands (40_byte_bool.md rules R80 to R83). The rule of a fixed-width read and the rule of a
write are reduced, once for every width, to the value the read makes of its bytes and to the bytes the write appends.
-/

namespace Sys2Proof.Machine

/-! ### Fixed-width reads (rules R42, R90) -/

/-- `raise InsufficientData` in the terms of the claims (rule R184). -/
theorem fails_insufficientData (s : State) (need available : Nat) :
    Fails s (s.respondRaise (.insufficientData need available)) 1 need available :=
  ⟨rfl, rfl, rfl, rfl, rfl, rfl, ⟨rfl, fun _ => rfl⟩, rfl, rfl, rfl, rfl, rfl⟩

/-- OFF moved forward within LEN and `ok` answered, in the terms of the claims (rules R42, R185). -/
theorem readsForward_respondOk {s : State} {n : Nat} (h : s.off.toNat + n ≤ s.len.toNat) (r : Word64) (d : List Byte) :
    ReadsForward s ({ s with off := BitVec.ofNat 32 (s.off.toNat + n) }.respondOk r d) n r d :=
  ⟨cursor_toNat h, ⟨rfl, rfl, rfl, rfl, rfl⟩, ⟨rfl, fun _ => rfl⟩, rfl, rfl, rfl, rfl, rfl⟩

/-- A command that takes `n` bytes and answers a value of them follows the rule of a fixed-width read, if that value is the
rule's; the value may depend on the state, but not on OFF, which has moved. -/
theorem fixedReadRule_of_take {cw : CmdWord} {i : Instr} {n : Nat} {value : State → List Byte → Word64}
    {result : List Byte × State → Word64} (hdecode : decode cw = .instr i)
    (hexec : ∀ s, exec i s = finish s (take n s) fun p => p.2.respondOk (result p) [])
    (hvalue : ∀ (s : State) (o : Word32) (bs : List Byte), bs.length = n →
      result (bs, { s with off := o }) = value s bs) :
    FixedReadRule cw i n value := by
  refine ⟨hdecode, fun s hs => ⟨fun hshort => ?_, fun henough => ?_⟩⟩
  · exact ⟨_, by rw [hexec, take_short hshort, finish_raised], fails_insufficientData s n s.remaining⟩
  · have hcursor : s.off.toNat ≤ s.len.toNat := hs.2.1
    obtain ⟨bs, htake, hlen, hat⟩ := take_enough hs henough
    refine ⟨bs, _, hlen, hat, by rw [hexec, htake, finish_ok], ?_⟩
    rw [hvalue s _ bs hlen]
    exact readsForward_respondOk (by omega) _ _

/-! ### Writes (rules R44, R90) -/

/-- Bytes that fit written at LEN and `ok` answered, in the terms of the claims (rules R44, R185). -/
theorem appends_respondOk {s : State} {bs : List Byte} (h : s.len.toNat + bs.length ≤ s.config.bufcap.val) :
    Appends s ({ s with
      buf := s.buf.writeBytes s.len.toNat bs
      len := BitVec.ofNat 32 (s.len.toNat + bs.length) }.respondOk (count64 bs.length) []) bs :=
  ⟨append_len_toNat h, Memory.bytesAt_writeBytes _ _ _, fun a => Memory.read_writeBytes_outside _ _ a _, rfl,
    ⟨rfl, rfl, rfl, rfl, rfl⟩, rfl, rfl, rfl, rfl, rfl⟩

/-- A command that is the common end of the writes on some bytes follows the rule of a write of those bytes. -/
theorem writeRule_of_putBytes {cw : CmdWord} {i : Instr} {bytes : State → List Byte} (hdecode : decode cw = .instr i)
    (hexec : ∀ s, exec i s = putBytes (bytes s) s) : WriteRule cw i bytes := by
  refine ⟨hdecode, fun s _ => ?_⟩
  rw [hexec]
  rcases putBytes_cases (bytes s) s with ⟨hfits, hput⟩ | ⟨hfull, hput⟩
  · exact ⟨fun h => absurd hfits h.not_ge, fun _ => ⟨_, hput, appends_respondOk hfits⟩⟩
  · exact ⟨fun _ => ⟨_, hput, fails_respondRaise s (e := .capacity) (by decide)⟩, fun h => absurd hfull h.not_gt⟩

/-! ### One byte -/

/-- FromBE of one byte is the byte (rule R12). -/
@[simp] theorem fromBe_singleton (b : Byte) : fromBe 1 [b] = b := by
  simp [fromBe, uintBe]

/-- The low bits of OPND, cut out of it (rule R25). -/
theorem opndLow_eq_extractLsb' (s : State) {w : Nat} (h : w ≤ 64) : s.opndLow w = s.opnd.extractLsb' 0 w :=
  BitVec.setWidth_eq_extractLsb' h

theorem opndTruth_iff (s : State) : s.opndTruth = true ↔ s.opnd ≠ 0 := by
  simp [State.opndTruth]

/-! ### How the four commands run -/

theorem exec_getU8 (s : State) :
    exec .getU8 s = finish s (take 1 s) fun p => p.2.respondOk (zext64 (fromBe 1 p.1)) [] := rfl

theorem exec_put8 (s : State) : exec .put8 s = putBytes [s.opndLow 8] s := rfl

theorem exec_getBool (s : State) :
    exec .getBool s = finish s (take 1 s) fun p => p.2.respondOk (if fromBe 1 p.1 = 0 then 0 else 1) [] := rfl

theorem exec_putBool (s : State) : exec .putBool s = putBytes [if s.opndTruth then 0x01 else 0x00] s := rfl

/-! ### The statements of 40_byte_bool.md -/

/-- GET.U8 (rule R80): the byte, zero-extended. -/
theorem getU8_fixedReadRule :
    FixedReadRule 0x0000 .getU8 1 (fun _ bs => match bs with | [b] => b.setWidth 64 | _ => 0) :=
  fixedReadRule_of_take (by decide) exec_getU8 fun _ _ bs hbs => by
    obtain ⟨b, rfl⟩ := List.length_eq_one_iff.1 hbs
    simp [zext64]

/-- GET.BOOL (rule R82): 0 for the byte 0x00 alone. -/
theorem getBool_fixedReadRule : FixedReadRule 0x0008 .getBool 1 (fun _ bs => if bs = [0x00] then 0 else 1) :=
  fixedReadRule_of_take (by decide) exec_getBool fun _ _ bs hbs => by
    obtain ⟨b, rfl⟩ := List.length_eq_one_iff.1 hbs
    simp

/-- PUT.8 (rule R81): OPND[7:0]. -/
theorem put8_writeRule : WriteRule 0x0080 .put8 (fun s => [s.opnd.extractLsb' 0 8]) :=
  writeRule_of_putBytes (by decide) fun s => by
    rw [exec_put8, opndLow_eq_extractLsb' s (by decide)]

/-- PUT.BOOL (rule R83): one byte, 0x00 for a zero operand alone. -/
theorem putBool_writeRule : WriteRule 0x0088 .putBool (fun s => if s.opnd = 0 then [0x00] else [0x01]) :=
  writeRule_of_putBytes (by decide) fun s => by
    rw [exec_putBool]
    by_cases hzero : s.opnd = 0
    · rw [if_neg (mt (opndTruth_iff s).1 (not_not_intro hzero)), if_pos hzero]
    · rw [if_pos ((opndTruth_iff s).2 hzero), if_neg hzero]

/-- Settles O23: both commands take one byte, and the value each makes of it is its rule's. -/
theorem byteReadsFollowTheirRules : Obligations.ByteReadsFollowTheirRules :=
  ⟨getU8_fixedReadRule, getBool_fixedReadRule⟩

/-- Settles O24: both commands are an append of one byte, and that byte is their rule's. -/
theorem byteWritesFollowTheirRules : Obligations.ByteWritesFollowTheirRules :=
  ⟨put8_writeRule, putBool_writeRule⟩

end Sys2Proof.Machine
end

section
/-!
SUPPORT. The fixed-width integer commands (41_fixed_int.md rules R91 to R112): what the byte-order functions of rule R12
make of a byte string and of OPND, and from that the rule of a command that is GetFix or PutFix of rule R90.
-/

namespace Sys2Proof.Machine

/-! ### Bytes put together: FromBE and FromLE (rule R12) -/

/-- A byte concatenated below a value is the next step of `uintBe`. -/
theorem toNat_append_byte {w : Nat} (v : BitVec w) (b : Byte) : (v ++ b).toNat = v.toNat * 256 + b.toNat := by
  rw [BitVec.toNat_append, ← Nat.shiftLeft_add_eq_or_of_lt b.isLt, Nat.shiftLeft_eq]

theorem fromBe_eq_of_toNat {n : Nat} {bs : List Byte} {v : BitVec (8 * n)} (h : v.toNat = uintBe bs) :
    fromBe n bs = v := by
  rw [fromBe, ← h, BitVec.ofNat_toNat, BitVec.setWidth_eq]

/-! At the widths of the commands; FromLE is FromBE of the bytes from the last to the first. -/

theorem fromBe_two (b0 b1 : Byte) : fromBe 2 [b0, b1] = b0 ++ b1 :=
  fromBe_eq_of_toNat (by simp [uintBe, toNat_append_byte])

theorem fromLe_two (b0 b1 : Byte) : fromLe 2 [b0, b1] = b1 ++ b0 :=
  fromBe_two b1 b0

theorem fromBe_three (b0 b1 b2 : Byte) : fromBe 3 [b0, b1, b2] = b0 ++ b1 ++ b2 :=
  fromBe_eq_of_toNat (by simp [uintBe, toNat_append_byte])

theorem fromLe_three (b0 b1 b2 : Byte) : fromLe 3 [b0, b1, b2] = b2 ++ b1 ++ b0 :=
  fromBe_three b2 b1 b0

theorem fromBe_four (b0 b1 b2 b3 : Byte) : fromBe 4 [b0, b1, b2, b3] = b0 ++ b1 ++ b2 ++ b3 :=
  fromBe_eq_of_toNat (by simp [uintBe, toNat_append_byte])

theorem fromLe_four (b0 b1 b2 b3 : Byte) : fromLe 4 [b0, b1, b2, b3] = b3 ++ b2 ++ b1 ++ b0 :=
  fromBe_four b3 b2 b1 b0

theorem fromBe_eight (b0 b1 b2 b3 b4 b5 b6 b7 : Byte) :
    fromBe 8 [b0, b1, b2, b3, b4, b5, b6, b7] = b0 ++ b1 ++ b2 ++ b3 ++ b4 ++ b5 ++ b6 ++ b7 :=
  fromBe_eq_of_toNat (by simp [uintBe, toNat_append_byte])

theorem fromLe_eight (b0 b1 b2 b3 b4 b5 b6 b7 : Byte) :
    fromLe 8 [b0, b1, b2, b3, b4, b5, b6, b7] = b7 ++ b6 ++ b5 ++ b4 ++ b3 ++ b2 ++ b1 ++ b0 :=
  fromBe_eight b7 b6 b5 b4 b3 b2 b1 b0

/-! ### OPND cut into bytes: ToBE and ToLE (rules R12, R25) -/

theorem extractLsb'_opndBytes (s : State) {n start : Nat} (h : start + 8 ≤ 8 * n) :
    (s.opndBytes n).extractLsb' start 8 = s.opnd.extractLsb' start 8 := by
  ext i hi
  have hbit : start + i < 8 * n := by omega
  simp [State.opndBytes, hbit]

theorem toBe_opndBytes (s : State) (n : Nat) :
    toBe n (s.opndBytes n) = (List.range n).map fun i => s.opnd.extractLsb' (8 * (n - 1 - i)) 8 :=
  List.map_congr_left fun i hi => extractLsb'_opndBytes s (by have := List.mem_range.1 hi; omega)

theorem toLe_opndBytes (s : State) (n : Nat) :
    toLe n (s.opndBytes n) = (List.range n).map fun i => s.opnd.extractLsb' (8 * i) 8 :=
  List.map_congr_left fun i hi => extractLsb'_opndBytes s (by have := List.mem_range.1 hi; omega)

/-! ### The extension to 64 bits (rule R10) -/

/-- A 64-bit value is RES as it is: signed and unsigned reads of 8 bytes leave the same. -/
theorem extend64_word64 (signed : Bool) (v : Word64) : extend64 signed v = v := by
  cases signed with
  | false => exact BitVec.setWidth_eq v
  | true => exact BitVec.signExtend_eq v

/-! ### GetFix and PutFix (rule R90) -/

/-- A command that is GetFix follows the rule of a fixed-width read whose value is the extension of its bytes put together
in the byte order. -/
theorem fixedReadRule_of_getFix {cw : CmdWord} {i : Instr} {n : Nat} {value : State → List Byte → Word64}
    (order : ByteOrder) (signed : Bool) (hdecode : decode cw = .instr i)
    (hexec : ∀ s, exec i s = getFix n order signed s)
    (hvalue : ∀ (s : State) (bs : List Byte), bs.length = n → extend64 signed (fromOrder order n bs) = value s bs) :
    FixedReadRule cw i n value :=
  fixedReadRule_of_take hdecode hexec fun s _ bs hbs => hvalue s bs hbs

/-- A command that is PutFix follows the rule of a write of OPND's low bytes in the byte order. -/
theorem writeRule_of_putFix {cw : CmdWord} {i : Instr} {n : Nat} {bytes : State → List Byte} (order : ByteOrder)
    (hdecode : decode cw = .instr i) (hexec : ∀ s, exec i s = putFix n order s)
    (hbytes : ∀ s, toOrder order n (s.opndBytes n) = bytes s) : WriteRule cw i bytes :=
  writeRule_of_putBytes hdecode fun s => by rw [hexec, putFix, hbytes]

/-! ### The statements of 41_fixed_int.md

Each line names a command's byte order and, for a read, its extension; then why its value, or its bytes, are the rule's. At
a fixed width the list that ToBE or ToLE cuts OPND into computes to the bytes the rule writes out. -/

/-- Settles O25: the four commands are GetFix of two bytes, and what FromBE or FromLE makes of two bytes is their
concatenation, in the one order or the other. -/
theorem shortReadsFollowTheirRules : Obligations.ShortReadsFollowTheirRules :=
  ⟨fixedReadRule_of_getFix .be false (by decide) (fun _ => rfl)
      fun | _, [b0, b1], _ => congrArg zext64 (fromBe_two b0 b1),
    fixedReadRule_of_getFix .be true (by decide) (fun _ => rfl)
      fun | _, [b0, b1], _ => congrArg sext64 (fromBe_two b0 b1),
    fixedReadRule_of_getFix .le false (by decide) (fun _ => rfl)
      fun | _, [b0, b1], _ => congrArg zext64 (fromLe_two b0 b1),
    fixedReadRule_of_getFix .le true (by decide) (fun _ => rfl)
      fun | _, [b0, b1], _ => congrArg sext64 (fromLe_two b0 b1)⟩

/-- Settles O26: both commands are PutFix of two bytes, and ToBE or ToLE cuts OPND's low 16 bits in the rule's order. -/
theorem shortWritesFollowTheirRules : Obligations.ShortWritesFollowTheirRules :=
  ⟨writeRule_of_putFix .be (by decide) (fun _ => rfl) (toBe_opndBytes · 2),
    writeRule_of_putFix .le (by decide) (fun _ => rfl) (toLe_opndBytes · 2)⟩

/-- Settles O27: both commands are GetFix of three bytes, always zero-extended. -/
theorem triadReadsFollowTheirRules : Obligations.TriadReadsFollowTheirRules :=
  ⟨fixedReadRule_of_getFix .be false (by decide) (fun _ => rfl)
      fun | _, [b0, b1, b2], _ => congrArg zext64 (fromBe_three b0 b1 b2),
    fixedReadRule_of_getFix .le false (by decide) (fun _ => rfl)
      fun | _, [b0, b1, b2], _ => congrArg zext64 (fromLe_three b0 b1 b2)⟩

/-- Settles O28: both commands are PutFix of three bytes; OPND's bits above the low 24 are not looked at. -/
theorem triadWritesFollowTheirRules : Obligations.TriadWritesFollowTheirRules :=
  ⟨writeRule_of_putFix .be (by decide) (fun _ => rfl) (toBe_opndBytes · 3),
    writeRule_of_putFix .le (by decide) (fun _ => rfl) (toLe_opndBytes · 3)⟩

/-- Settles O29: the four commands are GetFix of four bytes, in each byte order and with each extension. -/
theorem intReadsFollowTheirRules : Obligations.IntReadsFollowTheirRules :=
  ⟨fixedReadRule_of_getFix .be false (by decide) (fun _ => rfl)
      fun | _, [b0, b1, b2, b3], _ => congrArg zext64 (fromBe_four b0 b1 b2 b3),
    fixedReadRule_of_getFix .be true (by decide) (fun _ => rfl)
      fun | _, [b0, b1, b2, b3], _ => congrArg sext64 (fromBe_four b0 b1 b2 b3),
    fixedReadRule_of_getFix .le false (by decide) (fun _ => rfl)
      fun | _, [b0, b1, b2, b3], _ => congrArg zext64 (fromLe_four b0 b1 b2 b3),
    fixedReadRule_of_getFix .le true (by decide) (fun _ => rfl)
      fun | _, [b0, b1, b2, b3], _ => congrArg sext64 (fromLe_four b0 b1 b2 b3)⟩

/-- Settles O30: both commands are PutFix of four bytes. -/
theorem intWritesFollowTheirRules : Obligations.IntWritesFollowTheirRules :=
  ⟨writeRule_of_putFix .be (by decide) (fun _ => rfl) (toBe_opndBytes · 4),
    writeRule_of_putFix .le (by decide) (fun _ => rfl) (toLe_opndBytes · 4)⟩

/-- Settles O31: the four commands are GetFix of eight bytes, whose extension to 64 bits changes nothing. -/
theorem longReadsFollowTheirRules : Obligations.LongReadsFollowTheirRules :=
  ⟨fixedReadRule_of_getFix .be false (by decide) (fun _ => rfl)
      fun | _, [b0, b1, b2, b3, b4, b5, b6, b7], _ =>
            (extend64_word64 false _).trans (fromBe_eight b0 b1 b2 b3 b4 b5 b6 b7),
    fixedReadRule_of_getFix .be true (by decide) (fun _ => rfl)
      fun | _, [b0, b1, b2, b3, b4, b5, b6, b7], _ =>
            (extend64_word64 true _).trans (fromBe_eight b0 b1 b2 b3 b4 b5 b6 b7),
    fixedReadRule_of_getFix .le false (by decide) (fun _ => rfl)
      fun | _, [b0, b1, b2, b3, b4, b5, b6, b7], _ =>
            (extend64_word64 false _).trans (fromLe_eight b0 b1 b2 b3 b4 b5 b6 b7),
    fixedReadRule_of_getFix .le true (by decide) (fun _ => rfl)
      fun | _, [b0, b1, b2, b3, b4, b5, b6, b7], _ =>
            (extend64_word64 true _).trans (fromLe_eight b0 b1 b2 b3 b4 b5 b6 b7)⟩

/-- Settles O32: both commands are PutFix of eight bytes, which are all of OPND. -/
theorem longWritesFollowTheirRules : Obligations.LongWritesFollowTheirRules :=
  ⟨writeRule_of_putFix .be (by decide) (fun _ => rfl) (toBe_opndBytes · 8),
    writeRule_of_putFix .le (by decide) (fun _ => rfl) (toLe_opndBytes · 8)⟩

end Sys2Proof.Machine
end

section
/-!
SUPPORT. The float commands (42_float.md rules R123 to R132). The plain reads and writes run as integer commands do; the
rounded reads take four bytes, and the word that selects one carries its precision in ARG (rule R68).
-/

namespace Sys2Proof.Machine

/-! ### The words of the rounded reads (rule R68) -/

/-- A word with an allowed ARG is decoded by its low byte: the row with that pattern makes the command of ARG. -/
theorem decode_of_lowWord {cw low : CmdWord} {r : OpRow} (harg : ArgAllowed cw) (hlow : lowWord cw = low)
    (hrow : opTable.find? (fun r => low == r.pattern) = some r) : decode cw = .instr (r.make (precOf cw)) := by
  have hfind : opTable.find? (fun r => r.hits cw) = opTable.find? (fun r => low == r.pattern) :=
    List.find?_congr fun r hr => by rw [Bool.eq_iff_iff, hits_iff hr, and_iff_right harg, hlow, beq_iff_eq]
  rw [decode, hfind, hrow]

theorem lowWord_ofNat {arg low : Nat} (h : low < 256) :
    lowWord (BitVec.ofNat 16 (arg * 256 + low)) = BitVec.ofNat 16 low := by
  apply BitVec.eq_of_toNat_eq
  rw [toNat_lowWord, BitVec.toNat_ofNat, BitVec.toNat_ofNat]
  omega

theorem precOf_ofNat {prec low : Nat} (hprec : prec < 256) (h : low < 256) :
    precOf (BitVec.ofNat 16 (prec * 256 + low)) = prec := by
  rw [precOf, argOf, BitVec.extractLsb'_toNat, BitVec.toNat_ofNat, Nat.shiftRight_eq_div_pow]
  omega

theorem decode_getF32rBe {prec : Nat} (h : prec < 256) :
    decode (BitVec.ofNat 16 (prec * 256 + 0x31)) = .instr (.getF32rBe prec) := by
  have hlow := lowWord_ofNat (arg := prec) (low := 0x31) (by decide)
  rw [decode_of_lowWord (.inr (.inl hlow)) hlow rfl, precOf_ofNat h (by decide)]

theorem decode_getF32rLe {prec : Nat} (h : prec < 256) :
    decode (BitVec.ofNat 16 (prec * 256 + 0x35)) = .instr (.getF32rLe prec) := by
  have hlow := lowWord_ofNat (arg := prec) (low := 0x35) (by decide)
  rw [decode_of_lowWord (.inr (.inr hlow)) hlow rfl, precOf_ofNat h (by decide)]

/-! ### The rounded read (rules R131, R132) -/

/-- The tie rule is a parameter: the state after `Take` has the one the command started with (rule R7). -/
theorem getRounded_eq_finish (order : ByteOrder) (prec : Nat) (s : State) :
    getRounded order prec s = finish s (take 4 s) fun p =>
      p.2.respondOk (roundDec32 p.2.config.tieRule (fromOrder order 4 p.1) prec) [] :=
  finish_congr rfl fun p hp => by
    obtain ⟨-, -, -, hmoved⟩ := take_ok hp
    rw [hmoved]

/-- A command that is the rounded read follows the rule of a fixed-width read whose value is RoundDec32 of its bytes put
together in the byte order. -/
theorem fixedReadRule_of_getRounded {cw : CmdWord} {i : Instr} {value : State → List Byte → Word64} (order : ByteOrder)
    (prec : Nat) (hdecode : decode cw = .instr i) (hexec : ∀ s, exec i s = getRounded order prec s)
    (hvalue : ∀ (s : State) (bs : List Byte), bs.length = 4 →
      roundDec32 s.config.tieRule (fromOrder order 4 bs) prec = value s bs) :
    FixedReadRule cw i 4 value :=
  fixedReadRule_of_take hdecode (fun s => (hexec s).trans (getRounded_eq_finish order prec s))
    fun s _ bs hbs => hvalue s bs hbs

/-! ### One operation under two names

A plain float command moves the bits that the unsigned integer command of its width and byte order moves (rule R120). -/

/-- Two commands that run alike follow the same rule of a read, each under its own word. -/
theorem FixedReadRule.of_exec_eq {cw cw' : CmdWord} {i j : Instr} {n : Nat} {value : State → List Byte → Word64}
    (h : FixedReadRule cw i n value) (hdecode : decode cw' = .instr j) (hexec : ∀ s, exec j s = exec i s) :
    FixedReadRule cw' j n value :=
  ⟨hdecode, fun s hs => by rw [hexec]; exact h.2 s hs⟩

/-- Two commands that run alike follow the same rule of a write, each under its own word. -/
theorem WriteRule.of_exec_eq {cw cw' : CmdWord} {i j : Instr} {bytes : State → List Byte} (h : WriteRule cw i bytes)
    (hdecode : decode cw' = .instr j) (hexec : ∀ s, exec j s = exec i s) : WriteRule cw' j bytes :=
  ⟨hdecode, fun s hs => by rw [hexec]; exact h.2 s hs⟩

/-! ### The statements of 42_float.md sections 2 to 4 -/

/-- Settles O33: the four commands are the unsigned integer reads of 32 and 64 bits. -/
theorem floatReadsKeepThePattern : Obligations.FloatReadsKeepThePattern := by
  obtain ⟨hu32Be, -, hu32Le, -⟩ := intReadsFollowTheirRules
  obtain ⟨hu64Be, -, hu64Le, -⟩ := longReadsFollowTheirRules
  exact ⟨hu32Be.of_exec_eq (by decide) fun _ => rfl, hu32Le.of_exec_eq (by decide) fun _ => rfl,
    hu64Be.of_exec_eq (by decide) fun _ => rfl, hu64Le.of_exec_eq (by decide) fun _ => rfl⟩

/-- Settles O34: the four commands are the integer writes of 32 and 64 bits. -/
theorem floatWritesKeepThePattern : Obligations.FloatWritesKeepThePattern := by
  obtain ⟨h32Be, h32Le⟩ := intWritesFollowTheirRules
  obtain ⟨h64Be, h64Le⟩ := longWritesFollowTheirRules
  exact ⟨h32Be.of_exec_eq (by decide) fun _ => rfl, h32Le.of_exec_eq (by decide) fun _ => rfl,
    h64Be.of_exec_eq (by decide) fun _ => rfl, h64Le.of_exec_eq (by decide) fun _ => rfl⟩

/-- Settles O35: the two commands are the rounded read at the precision in their words' ARG. -/
theorem roundedReadsFollowTheirRules : Obligations.RoundedReadsFollowTheirRules := fun prec hprec =>
  ⟨fixedReadRule_of_getRounded .be prec (decode_getF32rBe hprec) (fun _ => rfl)
      fun | s, [b0, b1, b2, b3], _ => congrArg (roundDec32 s.config.tieRule · prec) (fromBe_four b0 b1 b2 b3),
    fixedReadRule_of_getRounded .le prec (decode_getF32rLe hprec) (fun _ => rfl)
      fun | s, [b0, b1, b2, b3], _ => congrArg (roundDec32 s.config.tieRule · prec) (fromLe_four b0 b1 b2 b3)⟩

end Sys2Proof.Machine
end

section
/-!
SUPPORT. The arithmetic of the rounded float read (42_float.md rules R121, R133, R134) over exact rationals: what each of the
model's functions on numerator and denominator says of their quotient (assumption log 11).
-/

namespace Sys2Proof.Machine

/-! ### Powers of two with an integer exponent -/

/-- The model scales by a power of two of either sign with two natural exponents, one of which is 0. -/
theorem two_zpow_eq_div (e : ℤ) : (2 : ℚ) ^ e = 2 ^ e.toNat / 2 ^ (-e).toNat := by
  obtain ⟨n, rfl | rfl⟩ := e.eq_nat_or_neg
  · simp
  · simp [zpow_neg]

theorem scaled_div (num den : Nat) (e : ℤ) :
    ((num * 2 ^ (-e).toNat : ℕ) : ℚ) / (den * 2 ^ e.toNat : ℕ) = (num : ℚ) / den / 2 ^ e := by
  rw [two_zpow_eq_div]
  push_cast
  field_simp

/-- `magnitude32` is |x| of a finite pattern (rule R121). -/
theorem absValue32_eq_magnitude32 (w : BitVec 32) :
    absValue32 w = ((magnitude32 w).1 : ℚ) / (magnitude32 w).2 := by
  unfold absValue32 magnitude32 expField32 fracField32
  split
  · rw [zpow_neg, ← div_eq_mul_inv]
    norm_cast
  · have hup (e : Nat) : ((e : ℤ) - 150).toNat = e - 150 := Int.toNat_sub e 150
    have hdown (e : Nat) : (150 - (e : ℤ)).toNat = 150 - e := Int.toNat_sub 150 e
    rw [two_zpow_eq_div, neg_sub, hup, hdown, mul_div_assoc']
    push_cast
    rfl

theorem magnitude32_den_pos (w : BitVec 32) : 0 < (magnitude32 w).2 := by
  unfold magnitude32
  split <;> exact Nat.two_pow_pos _

/-! ### Rounding to an integer (rules R133, R134) -/

/-- The integer nearest a rational, ties to even, as rule R134 computes it from the floor and the fraction. -/
def roundHalfEven (y : ℚ) : ℤ :=
  ⌊y⌋ + (if 1 / 2 < Int.fract y ∨ (Int.fract y = 1 / 2 ∧ ⌊y⌋ % 2 = 1) then 1 else 0)

theorem floor_le_roundHalfEven (y : ℚ) : ⌊y⌋ ≤ roundHalfEven y := by
  unfold roundHalfEven
  split <;> omega

theorem nearestAway_eq_floor (num : Nat) {den : Nat} (hden : 0 < den) :
    (nearestAway num den : ℤ) = ⌊(num : ℚ) / den + 1 / 2⌋ := by
  have hy : (num : ℚ) / den + 1 / 2 = (2 * num + den : ℕ) / (2 * den : ℕ) := by
    push_cast
    field_simp
  rw [hy, Rat.floor_natCast_div_natCast]
  rfl

/-- The model tests the remainder against half the denominator, which is the fraction against one half. -/
theorem nearestEven_eq_roundHalfEven (num : Nat) {den : Nat} (hden : 0 < den) :
    (nearestEven num den : ℤ) = roundHalfEven ((num : ℚ) / den) := by
  have hpos : (0 : ℚ) < den := by exact_mod_cast hden
  have hfloor : ⌊(num : ℚ) / den⌋ = (num / den : ℕ) := by rw [Rat.floor_natCast_div_natCast]; rfl
  have habove : 1 / 2 < Int.fract ((num : ℚ) / den) ↔ den < 2 * (num % den) := by
    rw [Int.fract_div_natCast_eq_div_natCast_mod, div_lt_div_iff₀ two_pos hpos]
    norm_cast
    omega
  have htie : Int.fract ((num : ℚ) / den) = 1 / 2 ↔ 2 * (num % den) = den := by
    rw [Int.fract_div_natCast_eq_div_natCast_mod, div_eq_div_iff hpos.ne' two_ne_zero]
    norm_cast
    omega
  have hodd : ((num / den : ℕ) : ℤ) % 2 = 1 ↔ num / den % 2 = 1 := by omega
  simp only [roundHalfEven, nearestEven, habove, htie, hfloor, hodd]
  split <;> simp

/-- Rule R134's computation gives the integer nearest `y`, and of two nearest ones the even. -/
theorem roundsTo_even_of_roundHalfEven {y : ℚ} {q : ℕ} (h : (q : ℤ) = roundHalfEven y) : RoundsTo .even y q := by
  have hy := Int.floor_add_fract y
  have hlt := Int.fract_lt_one y
  have hnonneg := Int.fract_nonneg y
  unfold roundHalfEven at h
  split at h
  next hup =>
    have hq : (q : ℚ) = ⌊y⌋ + 1 := by exact_mod_cast h
    have hdist : |y - q| = 1 - Int.fract y := by
      rw [abs_of_nonpos] <;> linarith
    rw [RoundsTo, hdist]
    rcases hup with habove | ⟨htie, hodd⟩
    · exact ⟨by linarith, fun _ => by linarith⟩
    · exact ⟨by linarith, fun _ => by omega⟩
  next hdown =>
    rw [not_or, not_lt, not_and] at hdown
    obtain ⟨hbelow, heven⟩ := hdown
    have hq : (q : ℚ) = ⌊y⌋ := by exact_mod_cast h.trans (add_zero _)
    have hdist : |y - q| = Int.fract y := by
      rw [abs_of_nonneg] <;> linarith
    rw [RoundsTo, hdist]
    exact ⟨hbelow, fun htie => by have := heven htie; omega⟩

/-- The model rounds a quotient to an integer as the tie rule says (rule R133). -/
theorem roundsTo_nearest (tie : TieRule) (num : Nat) {den : Nat} (hden : 0 < den) :
    RoundsTo tie ((num : ℚ) / den) (nearest tie num den) := by
  cases tie with
  | away => exact nearestAway_eq_floor num hden
  | even => exact roundsTo_even_of_roundHalfEven (nearestEven_eq_roundHalfEven num hden)

theorem roundsTo_roundedInteger (tie : TieRule) (w : BitVec 32) (p : Nat) :
    RoundsTo tie (absValue32 w * 10 ^ p) (roundedInteger tie w p) := by
  have hy : absValue32 w * 10 ^ p = (((magnitude32 w).1 * 10 ^ p : ℕ) : ℚ) / (magnitude32 w).2 := by
    rw [absValue32_eq_magnitude32, div_mul_eq_mul_div]
    push_cast
    rfl
  rw [hy]
  exact roundsTo_nearest tie _ (magnitude32_den_pos w)

/-! ### The exponent E (rule R134) -/

theorem belowPow2_iff (num : Nat) {den : Nat} (hden : 0 < den) (e : ℤ) :
    belowPow2 num den e = true ↔ (num : ℚ) / den < 2 ^ e := by
  have hpos : (0 : ℚ) < (den * 2 ^ e.toNat : ℕ) := by exact_mod_cast Nat.mul_pos hden (Nat.two_pow_pos _)
  rw [← div_lt_one (zpow_pos two_pos e), ← scaled_div, div_lt_one hpos, Nat.cast_lt, belowPow2, decide_eq_true_iff]

/-- A quotient lies within a factor of two of the power at the difference of the two logarithms. -/
theorem div_bounds_log2 {num den : Nat} (hnum : 0 < num) (hden : 0 < den) :
    (2 : ℚ) ^ ((Nat.log2 num : ℤ) - Nat.log2 den - 1) ≤ (num : ℚ) / den ∧
      (num : ℚ) / den < 2 ^ ((Nat.log2 num : ℤ) - Nat.log2 den + 1) := by
  have hpos : (0 : ℚ) < den := by exact_mod_cast hden
  have hnumLow : (2 : ℚ) ^ Nat.log2 num ≤ num := by exact_mod_cast Nat.log2_self_le hnum.ne'
  have hnumHigh : (num : ℚ) < 2 ^ (Nat.log2 num + 1) := by exact_mod_cast Nat.lt_log2_self
  have hdenLow : (2 : ℚ) ^ Nat.log2 den ≤ den := by exact_mod_cast Nat.log2_self_le hden.ne'
  have hdenHigh : (den : ℚ) < 2 ^ (Nat.log2 den + 1) := by exact_mod_cast Nat.lt_log2_self
  have hlow : (2 : ℚ) ^ ((Nat.log2 num : ℤ) - Nat.log2 den - 1) = 2 ^ Nat.log2 num / 2 ^ (Nat.log2 den + 1) := by
    rw [sub_sub, zpow_sub₀ two_ne_zero]; norm_cast
  have hhigh : (2 : ℚ) ^ ((Nat.log2 num : ℤ) - Nat.log2 den + 1) = 2 ^ (Nat.log2 num + 1) / 2 ^ Nat.log2 den := by
    rw [sub_add_eq_add_sub, zpow_sub₀ two_ne_zero]; norm_cast
  rw [hlow, hhigh]
  exact ⟨div_le_div₀ (by positivity) hnumLow hpos hdenHigh.le,
    div_lt_div₀ hnumHigh hdenLow (by positivity) (by positivity)⟩

/-- `floorLog2` is rule R134's E. -/
theorem floorLog2_spec {num den : Nat} (hnum : 0 < num) (hden : 0 < den) :
    (2 : ℚ) ^ floorLog2 num den ≤ (num : ℚ) / den ∧ (num : ℚ) / den < 2 ^ (floorLog2 num den + 1) := by
  obtain ⟨hlow, hhigh⟩ := div_bounds_log2 hnum hden
  unfold floorLog2
  split
  next hbelow => exact ⟨hlow, by rw [sub_add_cancel]; exact (belowPow2_iff num hden _).1 hbelow⟩
  next habove => exact ⟨not_lt.1 (mt (belowPow2_iff num hden _).2 habove), hhigh⟩

/-! ### The significand n and the pattern (rule R134) -/

theorem significand64_eq_roundHalfEven (num : Nat) {den : Nat} (hden : 0 < den) (e : ℤ) :
    (significand64 num den e : ℤ) = roundHalfEven ((num : ℚ) / den / 2 ^ (e - 52)) := by
  rw [significand64, nearestEven_eq_roundHalfEven _ (Nat.mul_pos hden (Nat.two_pow_pos _)), ← neg_sub e 52, scaled_div]

/-- The significand has its leading bit. -/
theorem le_significand64 {num den : Nat} (hden : 0 < den) {e : ℤ} (he : (2 : ℚ) ^ e ≤ (num : ℚ) / den) :
    2 ^ 52 ≤ significand64 num den e := by
  have hscaled : (2 : ℚ) ^ 52 ≤ (num : ℚ) / den / 2 ^ (e - 52) := by
    rw [le_div_iff₀ (zpow_pos two_pos _)]
    refine le_of_eq_of_le ?_ he
    rw [← zpow_natCast, ← zpow_add₀ two_ne_zero]
    norm_num
  have hfloor : (2 ^ 52 : ℤ) ≤ ⌊(num : ℚ) / den / 2 ^ (e - 52)⌋ := Int.le_floor.2 (by exact_mod_cast hscaled)
  have hround := hfloor.trans (floor_le_roundHalfEven _)
  rw [← significand64_eq_roundHalfEven num hden] at hround
  exact_mod_cast hround

theorem pack64_of_le (e : ℤ) {n : Nat} (hn : 2 ^ 52 ≤ n) :
    pack64 e n = (0 : BitVec 1) ++ (BitVec.ofInt 11 (e + 1023) ++ BitVec.ofInt 52 ((n : ℤ) - 2 ^ 52)) := by
  have hsub : (n : ℤ) - 2 ^ 52 = (n - 2 ^ 52 : ℕ) := by rw [Nat.cast_sub hn]; rfl
  rw [hsub, BitVec.ofInt_natCast, pack64]

/-- `rne64` is what rule R134's lines make of a positive quotient. -/
theorem isRne64_rne64 {num den : Nat} (hnum : 0 < num) (hden : 0 < den) : IsRne64 ((num : ℚ) / den) (rne64 num den) := by
  obtain ⟨hlow, hhigh⟩ := floorLog2_spec hnum hden
  refine ⟨_, _, hlow, hhigh, significand64_eq_roundHalfEven num hden _, ?_⟩
  have hcarry : (significand64 num den (floorLog2 num den) : ℤ) = 2 ^ 53 ↔
      significand64 num den (floorLog2 num den) = 2 ^ 53 := by norm_cast
  simp only [hcarry, rne64]
  split
  · rfl
  · exact pack64_of_le _ (le_significand64 hden hlow)

/-! ### RoundDec32 (rule R133) -/

theorem roundDec32_nan {w : BitVec 32} (tie : TieRule) (p : Nat) (he : expField32 w = 255) (hm : fracField32 w ≠ 0) :
    roundDec32 tie w p = quietNan64 := by
  rw [roundDec32, if_pos he, if_neg hm]

theorem roundDec32_infinity {w : BitVec 32} (tie : TieRule) (p : Nat) (he : expField32 w = 255)
    (hm : fracField32 w = 0) : roundDec32 tie w p = withSign64 (signBit32 w) infinity64 := by
  rw [roundDec32, if_pos he, if_pos hm]

theorem roundDec32_zero {w : BitVec 32} {tie : TieRule} {p : Nat} (he : expField32 w ≠ 255)
    (hq : roundedInteger tie w p = 0) : roundDec32 tie w p = withSign64 (signBit32 w) 0 := by
  rw [roundDec32, if_neg he, if_pos hq]

theorem roundDec32_pos {w : BitVec 32} {tie : TieRule} {p : Nat} (he : expField32 w ≠ 255)
    (hq : roundedInteger tie w p ≠ 0) :
    roundDec32 tie w p = withSign64 (signBit32 w) (rne64 (roundedInteger tie w p) (10 ^ p)) := by
  rw [roundDec32, if_neg he, if_neg hq]

theorem fracField32_eq_zero_iff (w : BitVec 32) : fracField32 w = 0 ↔ w.extractLsb' 0 23 = 0 :=
  BitVec.toNat_eq (y := 0#23).symm

/-- Settles O36: NaN and infinity apart, q is the model's rounded integer, and d its RNE64 of q / 10^p. -/
theorem roundDec32FollowsItsRule : Obligations.RoundDec32FollowsItsRule := by
  intro tie w p _
  refine ⟨fun he hm => roundDec32_nan tie p he (mt (fracField32_eq_zero_iff w).1 hm),
    fun he hm => roundDec32_infinity tie p he ((fracField32_eq_zero_iff w).2 hm),
    fun he => ⟨roundedInteger tie w p, roundsTo_roundedInteger tie w p, fun hq => roundDec32_zero he hq,
      fun hq => ⟨_, ?_, roundDec32_pos he hq⟩⟩⟩
  have hrne := isRne64_rne64 (Nat.pos_of_ne_zero hq) (Nat.pow_pos (n := p) (by decide : 0 < 10))
  rwa [Nat.cast_pow] at hrne

end Sys2Proof.Machine
end

section
/-!
SUPPORT. The variable-length integer commands (43_varint.md rules R140 to R153): the zigzag map and its inverse on
integers, the number a terminated sequence carries through the decode loop, the encode loop's bytes as the shortest
encoding, and from these the rule of each command.
-/

namespace Sys2Proof.Machine

/-! ### The zigzag map on integers (rules R144, R145)

The sign mask flips all bits or none, so each map is a shift, complemented or not. -/

theorem zigZagEnc_of_nonneg {w : Nat} {v : BitVec w} (h : v.msb = false) : zigZagEnc v = v <<< 1 := by
  simp [zigZagEnc, h]

theorem zigZagEnc_of_neg {w : Nat} {v : BitVec w} (h : v.msb = true) : zigZagEnc v = ~~~(v <<< 1) := by
  simp [zigZagEnc, h]

theorem zigZagDec_of_even {w : Nat} {z : BitVec w} (h : z.toNat % 2 = 0) : zigZagDec z = z >>> 1 := by
  simp [zigZagDec, BitVec.getLsbD, h]

theorem zigZagDec_of_odd {w : Nat} {z : BitVec w} (h : z.toNat % 2 = 1) : zigZagDec z = ~~~(z >>> 1) := by
  simp [zigZagDec, BitVec.getLsbD, h]

/-- At width 0 it is false: there the one pattern is its own complement. -/
theorem toInt_not_of_nonneg {w : Nat} (hw : 0 < w) {x : BitVec w} (h : x.msb = false) :
    (~~~x).toInt = -x.toNat - 1 := by
  have hfit := BitVec.msb_eq_false_iff_two_mul_lt.1 h
  have heven : 2 ^ w = 2 * 2 ^ (w - 1) := (mul_pow_sub_one hw.ne' 2).symm
  rw [BitVec.toInt_eq_toNat_cond, BitVec.toNat_not, if_neg (by omega)]
  omega

/-- ZigZagEnc is the integer map, at every width (rule R144). -/
theorem zigZagEnc_toNat {w : Nat} (v : BitVec w) : (zigZagEnc v).toNat = zigZagOfInt v.toInt := by
  have hshift : (v <<< 1).toNat = 2 * v.toNat % 2 ^ w := by
    rw [BitVec.toNat_shiftLeft, Nat.shiftLeft_eq, pow_one, mul_comm]
  have hlt := v.isLt
  cases hv : v.msb with
  | false =>
    have hfit := BitVec.msb_eq_false_iff_two_mul_lt.1 hv
    rw [zigZagEnc_of_nonneg hv, hshift, Nat.mod_eq_of_lt hfit, BitVec.toInt_eq_toNat_of_msb hv, zigZagOfInt,
      if_pos (by omega)]
    omega
  | true =>
    have hbig := BitVec.msb_eq_true_iff_two_mul_ge.1 hv
    have hwrap : 2 * v.toNat % 2 ^ w = 2 * v.toNat - 2 ^ w := by
      rw [Nat.mod_eq_sub_mod hbig, Nat.mod_eq_of_lt (by omega)]
    rw [zigZagEnc_of_neg hv, BitVec.toNat_not, hshift, hwrap, BitVec.toInt_eq_msb_cond, if_pos hv, zigZagOfInt,
      if_neg (by omega)]
    omega

/-- ZigZagDec is the inverse integer map, at every width (rule R145). -/
theorem zigZagDec_toInt {w : Nat} (z : BitVec w) : (zigZagDec z).toInt = intOfZigZag z.toNat := by
  have hhalf : (z >>> 1).toNat = z.toNat / 2 := by rw [BitVec.toNat_ushiftRight, Nat.shiftRight_eq_div_pow, pow_one]
  have hmsb : (z >>> 1).msb = false := by
    have hlt := z.isLt
    rw [BitVec.msb_eq_false_iff_two_mul_lt, hhalf]
    omega
  rcases Nat.mod_two_eq_zero_or_one z.toNat with heven | hodd
  · rw [zigZagDec_of_even heven, BitVec.toInt_eq_toNat_of_msb hmsb, hhalf, intOfZigZag, if_pos heven]
  · have hw : 0 < w := Nat.pos_of_ne_zero (by rintro rfl; simp [BitVec.of_length_zero] at hodd)
    rw [zigZagDec_of_odd hodd, toInt_not_of_nonneg hw hmsb, hhalf, intOfZigZag, if_neg (by omega)]

/-- Settles O45: the integer map holds at every width, and the sign bit is the top bit. -/
theorem zigZagIsTheIntegerMap : Obligations.ZigZagIsTheIntegerMap :=
  ⟨fun v => ⟨zigZagEnc_toNat v, rfl⟩, fun v => ⟨zigZagEnc_toNat v, rfl⟩⟩

/-! ### The number the decode loop accumulates (rules R140, R142) -/

/-- One group more is seven bits more. -/
theorem two_pow_seven_mul_succ (n : Nat) : 2 ^ (7 * (n + 1)) = 2 ^ (7 * n) * 128 := pow_add 2 (7 * n) 7

/-- One turn of the decode loop: the byte's group comes in above the `7 * i` bits accumulated so far. -/
theorem toNat_or_group {a i : Nat} {acc : BitVec a} (b : Byte) (hacc : acc.toNat < 2 ^ (7 * i)) (ha : 7 * (i + 1) ≤ a) :
    (acc ||| (b.extractLsb' 0 7).setWidth a <<< (7 * i)).toNat = acc.toNat + 2 ^ (7 * i) * (b.toNat % 128) := by
  have hgroup : ((b.extractLsb' 0 7).setWidth a <<< (7 * i)).toNat = (b.toNat % 128) <<< (7 * i) := by
    have hfit : (b.toNat % 128) <<< (7 * i) < 2 ^ a :=
      calc (b.toNat % 128) <<< (7 * i) = 2 ^ (7 * i) * (b.toNat % 128) := (Nat.shiftLeft_eq ..).trans (mul_comm ..)
        _ < 2 ^ (7 * i) * 128 := Nat.mul_lt_mul_of_pos_left (Nat.mod_lt _ (by decide)) (Nat.two_pow_pos _)
        _ = 2 ^ (7 * (i + 1)) := (two_pow_seven_mul_succ i).symm
        _ ≤ 2 ^ a := Nat.pow_le_pow_right (by decide) ha
    rw [BitVec.toNat_shiftLeft, BitVec.toNat_setWidth_of_le (by omega), BitVec.extractLsb'_toNat, Nat.shiftRight_zero]
    exact Nat.mod_eq_of_lt hfit
  rw [BitVec.toNat_or, hgroup, Nat.or_comm, ← Nat.shiftLeft_add_eq_or_of_lt hacc, Nat.shiftLeft_eq,
    Nat.add_comm, Nat.mul_comm]

/-- What the decode loop has accumulated when it answers: above what it started with, the groups of the bytes it has
consumed. The accumulator is wide enough for all of them. -/
theorem varDecLoop_value {a : Nat} {s : State} {bs : List Byte} {left i : Nat} {acc acc' : BitVec a}
    (h : varDecLoop s left i acc = .ok (acc', i + bs.length)) (hat : BytesAt s.buf (s.off.toNat + i) bs)
    (hacc : acc.toNat < 2 ^ (7 * i)) (ha : 7 * (i + left) ≤ a) :
    acc'.toNat = acc.toNat + 2 ^ (7 * i) * groupsValue bs := by
  induction bs generalizing left i acc with
  | nil => exact absurd (varDecLoop_ok h).1 (by simp)
  | cons b bs ih =>
    obtain ⟨hb, hbs⟩ := (bytesAt_cons ..).1 hat
    cases left with
    | zero => simp [varDecLoop] at h
    | succ left =>
      have hturn := toNat_or_group b hacc (by omega)
      rw [varDecLoop] at h
      split at h
      · simp at h
      · simp only [hb] at h
        split at h
        · obtain ⟨rfl, hlen⟩ := Prod.mk.inj (Except.ok.inj h)
          obtain rfl : bs = [] := List.eq_nil_of_length_eq_zero (by simpa using hlen)
          simpa [groupsValue] using hturn
        · have hfits : (acc ||| (b.extractLsb' 0 7).setWidth a <<< (7 * i)).toNat < 2 ^ (7 * (i + 1)) := by
            have hgroup : 2 ^ (7 * i) * (b.toNat % 128) ≤ 2 ^ (7 * i) * 127 := Nat.mul_le_mul_left _ (by omega)
            rw [hturn, two_pow_seven_mul_succ]
            omega
          rw [List.length_cons, Nat.add_comm bs.length 1, ← Nat.add_assoc] at h
          rw [ih h hbs hfits (by omega), hturn, groupsValue, two_pow_seven_mul_succ]
          ring

/-- `VarDec_W` on a terminated sequence within LEN and the limit: the number it carries, its bits W and above discarded
(rule R143), and OFF moved past it. -/
theorem varDec_of_terminated {w maxB : Nat} {s : State} {bs : List Byte} (hat : BytesAt s.buf s.off.toNat bs)
    (hterm : Terminated bs) (hmax : bs.length ≤ maxB) (hlen : s.off.toNat + bs.length ≤ s.len.toNat) :
    varDec w maxB s =
      .ok (BitVec.ofNat w (groupsValue bs), { s with off := BitVec.ofNat 32 (s.off.toNat + bs.length) }) := by
  obtain ⟨acc, hloop⟩ := varDecLoop_of_terminated (i := 0) (0 : BitVec (7 * maxB)) hat hterm hmax hlen
  have hvalue : acc.toNat = groupsValue bs := by simpa using varDecLoop_value hloop hat (by simp) (by omega)
  rw [Nat.zero_add] at hloop
  rw [varDec, hloop, ← hvalue, BitVec.ofNat_toNat]

/-! ### Where no terminated sequence stands (rule R142) -/

/-- The converse of `SequenceAtCursor.terminated`. -/
theorem sequenceAtCursor_of_terminated {s : State} {maxB : Nat} {bs : List Byte} (hat : BytesAt s.buf s.off.toNat bs)
    (hterm : Terminated bs) (hmax : bs.length ≤ maxB) (hlen : s.off.toNat + bs.length ≤ s.len.toNat) :
    SequenceAtCursor s maxB (bs.length - 1) := by
  obtain ⟨hne, hbits⟩ := hterm
  have hpos := List.length_pos_iff.2 hne
  have hread : ∀ j, j < bs.length → ∀ b, s.buf.read (s.off.toNat + j) = some b →
      b.msb = decide (j + 1 < bs.length) := by
    intro j hj b hb
    rw [hat j hj, List.getElem?_eq_getElem hj] at hb
    rw [← hbits j hj, Option.some.inj hb]
  refine ⟨by omega, by omega, fun j hj b hb => ?_, fun b hb => ?_⟩
  · rw [hread j (by omega) b hb]
    exact decide_eq_true (by omega)
  · rw [hread _ (by omega) b hb]
    exact decide_eq_false (by omega)

theorem varDec_of_no_sequence {w maxB : Nat} {s : State} (hs : s.BufBacked) (h : ∀ k, ¬ SequenceAtCursor s maxB k) :
    varDec w maxB s = .error (.raised .malformedVarint) := by
  match hdec : varDec w maxB s with
  | .ok p =>
    obtain ⟨bs, hterm, hat, -, hmax, hoff⟩ := varDec_terminated hdec
    obtain ⟨k, -, -, hlen, hmoved⟩ := varDec_ok hdec
    rw [hmoved, cursor_toNat hlen] at hoff
    exact absurd (sequenceAtCursor_of_terminated hat hterm hmax (by omega)) (h _)
  | .error (.raised e) => rw [varDec_raised hdec]
  | .error (.faulted f) => exact absurd hdec (varDec_ne_fault hs f)

/-! ### The variable-length reads (rules R146, R147, R150, R151) -/

/-- A command that decodes at the cursor and answers a value of the decoded pattern follows the rule of a variable-length
read, if that value is the rule's for the number the sequence carries. -/
theorem varReadRule_of_varDec {cw : CmdWord} {i : Instr} {w maxB : Nat} {value : Nat → Word64}
    {result : BitVec w → Word64} (hdecode : decode cw = .instr i)
    (hexec : ∀ s, exec i s = finish s (varDec w maxB s) fun p => p.2.respondOk (result p.1) [])
    (hvalue : ∀ g, result (BitVec.ofNat w g) = value g) : VarReadRule cw i maxB value := by
  refine ⟨hdecode, fun s hs => ⟨fun k hk => ?_, fun hnone => ?_⟩⟩
  · obtain ⟨bs, hbs, hat, hterm⟩ := hk.terminated hs.1
    obtain ⟨hmax, hlen, -⟩ := hk
    have hdec := varDec_of_terminated (w := w) (maxB := maxB) hat hterm (by omega) (by omega)
    refine ⟨bs, _, hbs, hat, by rw [hexec, hdec, finish_ok], ?_⟩
    rw [hvalue, hbs]
    exact readsForward_respondOk (by omega) _ _
  · exact ⟨_, by rw [hexec, varDec_of_no_sequence hs.1 hnone, finish_raised],
      fails_respondRaise s (e := .malformedVarint) (by decide)⟩

theorem zext64_ofNat {w : Nat} (g : Nat) :
    zext64 (BitVec.ofNat w g) = BitVec.ofNat 64 (g % 2 ^ w) := by
  apply BitVec.eq_of_toNat_eq
  rw [zext64, BitVec.toNat_setWidth, BitVec.toNat_ofNat, BitVec.toNat_ofNat]

theorem sext64_zigZagDec_ofNat {w : Nat} (g : Nat) :
    sext64 (zigZagDec (BitVec.ofNat w g)) = BitVec.ofInt 64 (intOfZigZag (g % 2 ^ w)) := by
  rw [sext64, BitVec.signExtend, zigZagDec_toInt, BitVec.toNat_ofNat]

/-- Settles O41: both commands answer the decoded pattern, zero-extended. -/
theorem unsignedVarReadsFollowTheirRules : Obligations.UnsignedVarReadsFollowTheirRules :=
  ⟨varReadRule_of_varDec (result := zext64) (by decide) (fun _ => rfl) (zext64_ofNat (w := 32)),
    varReadRule_of_varDec (result := zext64) (by decide) (fun _ => rfl) (zext64_ofNat (w := 64))⟩

/-- Settles O42: both commands answer the decoded pattern, zigzag-decoded and sign-extended. -/
theorem signedVarReadsFollowTheirRules : Obligations.SignedVarReadsFollowTheirRules :=
  ⟨varReadRule_of_varDec (result := fun z => sext64 (zigZagDec z)) (by decide) (fun _ => rfl)
      (sext64_zigZagDec_ofNat (w := 32)),
    varReadRule_of_varDec (result := fun z => sext64 (zigZagDec z)) (by decide) (fun _ => rfl)
      (sext64_zigZagDec_ofNat (w := 64))⟩

/-! ### The shortest encoding (rules R140, R141) -/

theorem isVarEncoding_singleton {b : Byte} (hb : b.toNat < 128) : IsVarEncoding b.toNat [b] :=
  ⟨terminated_singleton (BitVec.msb_eq_false_iff_two_mul_lt.2 (by omega)),
    by simp [groupsValue, Nat.mod_eq_of_lt hb], .inl rfl⟩

/-- The last group of a positive number's encoding is not zero, even where it is the only one. -/
theorem IsVarEncoding.getLast_ne_zero {u : Nat} {bs : List Byte} (h : IsVarEncoding u bs) (hu : 0 < u) (hne : bs ≠ []) :
    (bs.getLast hne).toNat ≠ 0 := by
  obtain ⟨-, hvalue, hone | hlast⟩ := h
  · obtain ⟨b, rfl⟩ := List.length_eq_one_iff.1 hone
    simp only [groupsValue] at hvalue
    simp only [List.getLast_singleton]
    omega
  · exact hlast hne

/-- A byte with bit 7 set before the encoding of a positive number is the encoding of the number with the byte's group
below. -/
theorem IsVarEncoding.cons {u : Nat} {bs : List Byte} (h : IsVarEncoding u bs) (hu : 0 < u) {b : Byte}
    (hb : b.msb = true) : IsVarEncoding (b.toNat % 128 + 128 * u) (b :: bs) := by
  have hlast := h.getLast_ne_zero hu
  obtain ⟨hterm, rfl, -⟩ := h
  exact ⟨terminated_cons hb hterm, rfl, .inr fun _ => by simpa [List.getLast_cons hterm.1] using hlast hterm.1⟩

/-- A continuation bit put above the low seven bits. -/
theorem toNat_append_group {w : Nat} (c : BitVec 1) (u : BitVec w) :
    (c ++ u.extractLsb' 0 7).toNat = c.toNat * 128 + u.toNat % 128 := by
  rw [BitVec.toNat_append, ← Nat.shiftLeft_add_eq_or_of_lt (BitVec.isLt _), Nat.shiftLeft_eq, BitVec.extractLsb'_toNat]
  rfl

/-- `VarEnc_W` gives the shortest encoding, whenever its bound on the groups leaves room for it. -/
theorem isVarEncoding_varEnc {w groups : Nat} {u : BitVec w} (h0 : 0 < groups) (h : u.toNat < 2 ^ (7 * groups)) :
    IsVarEncoding u.toNat (varEnc groups u) := by
  induction groups generalizing u with
  | zero => omega
  | succ groups ih =>
    rw [varEnc]
    split
    · rename_i hlast
      have hbyte : ((0 : BitVec 1) ++ u.extractLsb' 0 7).toNat = u.toNat := by
        rw [toNat_append_group, Nat.mod_eq_of_lt hlast]
        exact Nat.zero_add _
      rw [← hbyte]
      exact isVarEncoding_singleton (hbyte.trans_lt hlast)
    · rename_i hmore
      have hshift : (u >>> 7).toNat = u.toNat / 128 := by rw [BitVec.toNat_ushiftRight, Nat.shiftRight_eq_div_pow]
      have hbit : ((1 : BitVec 1) ++ u.extractLsb' 0 7).msb = true := BitVec.msb_append
      have hbyte : ((1 : BitVec 1) ++ u.extractLsb' 0 7).toNat % 128 = u.toNat % 128 := by
        rw [toNat_append_group, Nat.mul_add_mod_self_right, Nat.mod_mod]
      have hgroups : 0 < groups := Nat.pos_of_ne_zero (by rintro rfl; exact hmore h)
      rw [two_pow_seven_mul_succ] at h
      have hrest : IsVarEncoding (u.toNat / 128) (varEnc groups (u >>> 7)) := hshift ▸ ih hgroups (by omega)
      have hcons := hrest.cons (by omega) hbit
      rwa [hbyte, Nat.mod_add_div] at hcons

theorem varEnc_length_le {w : Nat} (groups : Nat) (u : BitVec w) : (varEnc groups u).length ≤ groups := by
  induction groups generalizing u with
  | zero => simp [varEnc]
  | succ groups ih =>
    rw [varEnc]
    split
    · simp
    · exact Nat.succ_le_succ (ih _)

/-! ### The variable-length writes (rules R148, R149, R152, R153) -/

/-- A command that appends `VarEnc_W` of a pattern follows the rule of a variable-length write of the pattern's number, if
the limit's groups hold W bits. -/
theorem varWriteRule_of_putBytes {cw : CmdWord} {i : Instr} {w maxB : Nat} {number : State → Nat}
    {pattern : State → BitVec w} (hdecode : decode cw = .instr i)
    (hexec : ∀ s, exec i s = putBytes (varEnc maxB (pattern s)) s) (h0 : 0 < maxB) (hw : w ≤ 7 * maxB)
    (hnumber : ∀ s, (pattern s).toNat = number s) : VarWriteRule cw i maxB number := by
  refine ⟨hdecode, fun s hs => ⟨varEnc maxB (pattern s), ?_, varEnc_length_le _ _,
    (writeRule_of_putBytes hdecode hexec).2 s hs⟩⟩
  rw [← hnumber]
  exact isVarEncoding_varEnc h0 ((pattern s).isLt.trans_le (Nat.pow_le_pow_right (by decide) hw))

/-- A write of the 64-bit domain takes OPND as it is. -/
theorem opndLow_word64 (s : State) : s.opndLow 64 = s.opnd := BitVec.setWidth_eq s.opnd

/-- Settles O43: both commands append the encoding of OPND's low bits. -/
theorem unsignedVarWritesFollowTheirRules : Obligations.UnsignedVarWritesFollowTheirRules :=
  ⟨varWriteRule_of_putBytes (pattern := (·.opndLow 32)) (by decide) (fun _ => rfl) (by decide) (by decide)
      fun s => BitVec.toNat_setWidth 32 s.opnd,
    varWriteRule_of_putBytes (pattern := (·.opndLow 64)) (by decide) (fun _ => rfl) (by decide) (by decide)
      fun s => congrArg BitVec.toNat (opndLow_word64 s)⟩

/-- Settles O44: both commands append the encoding of the zigzag image of OPND's low bits. -/
theorem signedVarWritesFollowTheirRules : Obligations.SignedVarWritesFollowTheirRules :=
  ⟨varWriteRule_of_putBytes (pattern := fun s => zigZagEnc (s.opndLow 32)) (by decide) (fun _ => rfl) (by decide)
      (by decide) fun s => zigZagEnc_toNat (s.opndLow 32),
    varWriteRule_of_putBytes (pattern := fun s => zigZagEnc (s.opndLow 64)) (by decide) (fun _ => rfl) (by decide)
      (by decide) fun s => by rw [opndLow_word64, zigZagEnc_toNat]⟩

end Sys2Proof.Machine
end

section
/-!
SUPPORT. The stream commands (44_stream.md rules R160 to R168): the answer of each command's checks, branch by branch, and
the two successes that the commands share, an answer that moves nothing and a byte range read at the cursor.
-/

namespace Sys2Proof.Machine

/-! ### How a command's checks decide its end (rules R184, R185) -/

theorem finish_of_raised {α : Type} {s : State} {r : Except Stop α} {e : Kind} (h : r = .error (.raised e))
    (k : α → State) : finish s r k = .next (s.respondRaise e) := by
  rw [h, finish_raised]

theorem finish_of_ok {α : Type} {s : State} {r : Except Stop α} {a : α} (h : r = .ok a) (k : α → State) :
    finish s r k = .next (k a) := by
  rw [h, finish_ok]

/-! ### Successes without an append (rule R185) -/

/-- `ok` with OFF set to any value, in the terms of the claims. -/
theorem respondOk_of_off (s : State) (o : Word32) (r : Word64) (d : List Byte) :
    RespondsOk ({ s with off := o }.respondOk r d) r d ∧ SameBuffer s ({ s with off := o }.respondOk r d) ∧
      SameInterface s ({ s with off := o }.respondOk r d) :=
  ⟨⟨rfl, rfl, rfl, rfl, rfl⟩, ⟨rfl, fun _ => rfl⟩, rfl, rfl, rfl, rfl, rfl⟩

/-- `ok` on the state a command started in moves nothing. -/
theorem readsForward_zero (s : State) (r : Word64) (d : List Byte) : ReadsForward s (s.respondOk r d) 0 r d :=
  ⟨rfl, respondOk_of_off s s.off r d⟩

/-- The common success of GET.RAW and GET.REM: the bytes at the cursor as DOUT, their number as RES, and OFF moved past
them (rules R160, R162). -/
theorem readAtCursor_readsForward {s : State} (hs : s.BufBacked) {n : Nat} (hend : s.off.toNat + n ≤ s.len.toNat) :
    ∃ bs t, bs.length = n ∧ BytesAt s.buf s.off.toNat bs ∧
      finish s (readAtCursor n s) (fun p => p.2.respondOk (count64 p.1.length) p.1) = .next t ∧
      ReadsForward s t n (count64 n) bs := by
  obtain ⟨bs, hread, rfl, hat⟩ := readAtCursor_of_backed hs hend
  exact ⟨bs, _, rfl, hat, finish_of_ok hread _, readsForward_respondOk hend _ _⟩

/-! ### GET.RAW's checks, in the rule's order (rule R160) -/

theorem exec_getRaw (s : State) :
    exec .getRaw s = finish s (takeRaw s) fun p => p.2.respondOk (count64 p.1.length) p.1 := rfl

theorem takeRaw_of_neg {s : State} (h : s.opndLength < 0) : takeRaw s = .error (.raised .invalidArgument) :=
  if_pos h

theorem takeRaw_of_zero {s : State} (h : s.opndLength = 0) : takeRaw s = .ok ([], s) := by
  rw [takeRaw, if_neg h.not_lt, if_pos h]

theorem takeRaw_of_short {s : State} (hpos : 0 < s.opndLength) (h : s.remaining < s.opnd.toNat) :
    takeRaw s = .error (.raised (.insufficientData s.opnd.toNat s.remaining)) := by
  have hlength := opndLength_toNat hpos.le
  rw [takeRaw, if_neg hpos.not_gt, if_neg hpos.ne', if_pos (by omega), hlength]

theorem takeRaw_of_enough {s : State} (hpos : 0 < s.opndLength) (h : s.opnd.toNat ≤ s.remaining) :
    takeRaw s = readAtCursor s.opnd.toNat s := by
  have hlength := opndLength_toNat hpos.le
  rw [takeRaw, if_neg hpos.not_gt, if_neg hpos.ne', if_neg (by omega), hlength]

/-- A 64-bit value as a count is itself. -/
theorem count64_toNat (v : Word64) : count64 v.toNat = v := by rw [count64, BitVec.ofNat_toNat, BitVec.setWidth_eq]

/-- Settles O48: one branch of GET.RAW's checks for each clause. -/
theorem getRawFollowsItsRule : Obligations.GetRawFollowsItsRule := by
  refine ⟨by decide, fun s hs => ⟨fun hneg => ?negative, fun hzero => ?zero, fun hpos hshort => ?short,
    fun hpos henough => ?enough⟩⟩
  case negative =>
    exact ⟨_, (exec_getRaw s).trans (finish_of_raised (takeRaw_of_neg hneg) _),
      fails_respondRaise s (e := .invalidArgument) (by decide)⟩
  case zero =>
    exact ⟨_, (exec_getRaw s).trans (finish_of_ok (takeRaw_of_zero hzero) _), readsForward_zero s _ _⟩
  case short =>
    exact ⟨_, (exec_getRaw s).trans (finish_of_raised (takeRaw_of_short hpos hshort) _), fails_insufficientData s _ _⟩
  case enough =>
    have hcursor : s.off.toNat ≤ s.len.toNat := hs.2.1
    rw [exec_getRaw, takeRaw_of_enough hpos henough]
    simpa only [count64_toNat] using readAtCursor_readsForward hs.1 (n := s.opnd.toNat) (by omega)

/-! ### PUT.RAW (rule R161) -/

/-- Settles O49: PUT.RAW is the common end of the writes on PAY. -/
theorem putRawFollowsItsRule : Obligations.PutRawFollowsItsRule :=
  writeRule_of_putBytes (by decide) fun _ => rfl

/-! ### GET.REM (rule R162) -/

theorem exec_getRem (s : State) :
    exec .getRem s = finish s (takeRemaining s) fun p => p.2.respondOk (count64 p.1.length) p.1 := rfl

theorem takeRemaining_of_end {s : State} (h : s.len.toNat ≤ s.off.toNat) :
    takeRemaining s = .error (.raised (.insufficientData 1 0)) := if_pos h

theorem takeRemaining_of_unread {s : State} (h : s.off.toNat < s.len.toNat) :
    takeRemaining s = readAtCursor s.remaining s := if_neg h.not_ge

/-- Settles O50: at the end GET.REM raises, and otherwise it reads the remaining bytes, so that OFF comes to LEN. -/
theorem getRemFollowsItsRule : Obligations.GetRemFollowsItsRule := by
  refine ⟨by decide, fun s hs => ⟨fun hend => ?_, fun hunread => ?_⟩⟩
  · exact ⟨_, (exec_getRem s).trans (finish_of_raised (takeRemaining_of_end hend) _), fails_insufficientData s 1 0⟩
  · have hremaining : s.off.toNat + s.remaining = s.len.toNat := Nat.add_sub_of_le hunread.le
    obtain ⟨bs, t, hlen, hat, hexec, hreads⟩ := readAtCursor_readsForward hs.1 hremaining.le
    have hoff : t.off.toNat = s.off.toNat + s.remaining := hreads.1
    refine ⟨bs, t, hlen, hat, by rw [exec_getRem, takeRemaining_of_unread hunread, hexec], ?_, ?_⟩
    · rwa [hlen]
    · exact BitVec.eq_of_toNat_eq (hoff.trans hremaining)

/-! ### CONSTRUCT (rule R163) -/

theorem exec_construct (s : State) : exec .construct s = finish s (loadBuffer s) fun s1 => s1.respondOk 0 [] := rfl

theorem loadBuffer_of_offset_beyond {s : State} (h : s.pay.length < s.opnd.toNat) :
    loadBuffer s = .error (.raised .invalidArgument) := if_pos h

theorem loadBuffer_of_full {s : State} (hoffset : s.opnd.toNat ≤ s.pay.length)
    (h : s.config.bufcap.val < s.pay.length) : loadBuffer s = .error (.raised .capacity) := by
  rw [loadBuffer, State.opndOffset, if_neg hoffset.not_gt, if_pos h]

theorem loadBuffer_of_fits {s : State} (hoffset : s.opnd.toNat ≤ s.pay.length)
    (h : s.pay.length ≤ s.config.bufcap.val) :
    loadBuffer s = .ok { s with
      buf := Memory.ofBytes s.pay
      len := BitVec.ofNat 32 s.pay.length
      off := BitVec.ofNat 32 s.opnd.toNat } := by
  rw [loadBuffer, State.opndOffset, if_neg hoffset.not_gt, if_neg h.not_gt]

/-- The buffer made of a byte string holds it from index 0. -/
theorem Memory.bytesAt_ofBytes (bs : List Byte) : BytesAt (Memory.ofBytes bs) 0 bs :=
  Memory.bytesAt_writeBytes [] 0 bs

/-- The buffer made of a byte string holds nothing after it. -/
theorem Memory.read_ofBytes_eq_none {bs : List Byte} {a : Nat} (h : bs.length ≤ a) : (Memory.ofBytes bs).read a = none :=
  Memory.read_writeBytes_outside [] 0 a bs (.inr (by omega))

/-- Settles O51: the two tests raise in their order, and a payload that passes both fits the registers. -/
theorem constructFollowsItsRule : Obligations.ConstructFollowsItsRule := by
  refine ⟨by decide, fun s => ⟨fun hbeyond => ?beyond, fun hoffset hfull => ?full, fun hoffset hfits => ?fits⟩⟩
  case beyond =>
    exact ⟨_, (exec_construct s).trans (finish_of_raised (loadBuffer_of_offset_beyond hbeyond) _),
      fails_respondRaise s (e := .invalidArgument) (by decide)⟩
  case full =>
    exact ⟨_, (exec_construct s).trans (finish_of_raised (loadBuffer_of_full hoffset hfull) _),
      fails_respondRaise s (e := .capacity) (by decide)⟩
  case fits =>
    exact ⟨_, (exec_construct s).trans (finish_of_ok (loadBuffer_of_fits hoffset hfits) _),
      toNat_ofNat_of_le_bufcap hfits, toNat_ofNat_of_le_bufcap (hoffset.trans hfits), Memory.bytesAt_ofBytes s.pay,
      fun _ => Memory.read_ofBytes_eq_none, ⟨rfl, rfl, rfl, rfl, rfl⟩, rfl, rfl, rfl, rfl, rfl⟩

/-! ### REWIND and SETOFF (rules R164, R165) -/

theorem exec_rewind (s : State) : exec .rewind s = .next ({ s with off := 0 }.respondOk 0 []) := rfl

theorem exec_setoff (s : State) : exec .setoff s = finish s (moveCursor s) fun s1 => s1.respondOk 0 [] := rfl

theorem moveCursor_of_beyond {s : State} (h : s.len.toNat < s.opnd.toNat) :
    moveCursor s = .error (.raised .invalidArgument) := if_pos h

theorem moveCursor_of_within {s : State} (h : s.opnd.toNat ≤ s.len.toNat) :
    moveCursor s = .ok { s with off := BitVec.ofNat 32 s.opnd.toNat } := if_neg h.not_gt

/-- Settles O52: both commands set OFF alone, and an operand within LEN fits it. -/
theorem cursorCommandsFollowTheirRules : Obligations.CursorCommandsFollowTheirRules := by
  refine ⟨by decide, by decide, fun s => ⟨⟨_, exec_rewind s, rfl, respondOk_of_off s 0 0 []⟩, fun hbeyond => ?beyond,
    fun hwithin => ?within⟩⟩
  case beyond =>
    exact ⟨_, (exec_setoff s).trans (finish_of_raised (moveCursor_of_beyond hbeyond) _),
      fails_respondRaise s (e := .invalidArgument) (by decide)⟩
  case within =>
    exact ⟨_, (exec_setoff s).trans (finish_of_ok (moveCursor_of_within hwithin) _),
      toNat_ofNat_of_fits (hwithin.trans_lt s.len.isLt), respondOk_of_off s _ 0 []⟩

/-! ### GETOFF, GETBUF and FEOF (rules R166 to R168) -/

theorem exec_getoff (s : State) : exec .getoff s = .next (s.respondOk (zext64 s.off) []) := rfl

theorem exec_getbuf (s : State) :
    exec .getbuf s = finish s (memRead s 0 s.len.toNat) fun bs => s.respondOk (zext64 s.len) bs := rfl

theorem exec_feof (s : State) :
    exec .feof s = .next (s.respondOk (if s.len.toNat ≤ s.off.toNat then 1 else 0) []) := rfl

/-- GETBUF answers the bytes from index 0 to LEN, wherever the cursor stands (rule R167). -/
theorem getbuf_readsForward {s : State} (hs : s.BufBacked) :
    ∃ bs t, bs.length = s.len.toNat ∧ BytesAt s.buf 0 bs ∧ exec .getbuf s = .next t ∧
      ReadsForward s t 0 (zext64 s.len) bs := by
  obtain ⟨bs, hread, hlen, hat⟩ := memRead_of_backed hs (a := 0) (n := s.len.toNat) (Nat.zero_add _).le
  exact ⟨bs, _, hlen, hat, (exec_getbuf s).trans (finish_of_ok hread _), readsForward_zero s _ _⟩

/-- Settles O53: all three answer on the state they started in. -/
theorem inspectingCommandsFollowTheirRules : Obligations.InspectingCommandsFollowTheirRules :=
  ⟨by decide, by decide, by decide, fun s =>
    ⟨⟨_, exec_getoff s, readsForward_zero s _ _⟩, getbuf_readsForward, ⟨_, exec_feof s, readsForward_zero s _ _⟩⟩⟩

end Sys2Proof.Machine
end

section
/-!
SUPPORT. How a command fails (60_exceptions.md rules R182, R184, R187): what an error response leaves as the command found
it, and the STATUS codes that error kinds have.
-/

namespace Sys2Proof.Machine

/-- `raise` of any kind touches nothing but the response registers (rules R184, R187). -/
theorem respondRaise_keeps (s : State) (e : Kind) :
    (s.respondRaise e).off = s.off ∧ SameBuffer s (s.respondRaise e) ∧ SameInterface s (s.respondRaise e) :=
  ⟨rfl, ⟨rfl, fun _ => rfl⟩, rfl, rfl, rfl, rfl, rfl⟩

/-- Settles O6: a STATUS other than OK comes from a `raise` on the state the command started in, and only
InsufficientData has NEED and HAVE values of its own. -/
theorem failedCommandChangesOnlyTheResponse : Obligations.FailedCommandChangesOnlyTheResponse := by
  intro i s t h hfailed
  obtain ⟨e, -, rfl⟩ := raised_of_status_ne_zero h hfailed
  obtain ⟨hoff, hbuffer, hinterface⟩ := respondRaise_keeps s e
  exact ⟨hoff, hbuffer, hinterface, rfl, rfl, needValue_haveValue_eq_zero⟩

/-- The codes of the error kinds: no kind has code 4, 6 or 7 (rules R29, R182). -/
theorem Kind.code_written (e : Kind) : e.code = 1 ∨ e.code = 2 ∨ e.code = 3 ∨ e.code = 5 := by
  cases e with
  | insufficientData need available => exact .inl rfl
  | malformedVarint => exact .inr (.inl rfl)
  | invalidArgument => exact .inr (.inr (.inl rfl))
  | capacity => exact .inr (.inr (.inr rfl))

/-- Settles O13: a command ends in `raise`, which writes the code of its kind, or in `ok`, which writes 0. -/
theorem statusIsNeverAReservedCode : Obligations.StatusIsNeverAReservedCode := by
  intro i s t h
  rcases exec_next h with ⟨e, rfl⟩ | ⟨s1, r, d, -, rfl⟩
  · exact .inr e.code_written
  · exact .inl rfl

end Sys2Proof.Machine
end

section
/-!
SUPPORT. Reset (70_reset_and_hazards.md rule R200): the state that CONSTRUCT of nothing leaves, beside the reset values.
-/

namespace Sys2Proof.Machine

/-- CONSTRUCT of an empty payload with offset 0 passes both tests, whatever the state and BUFCAP, and empties BUF. -/
theorem exec_construct_empty {s : State} (hpay : s.pay = []) (hopnd : s.opnd = 0) :
    exec .construct s = .next ({ s with buf := [], len := 0, off := 0 }.respondOk 0 []) := by
  have hoffset : s.opnd.toNat ≤ s.pay.length := by simp [hpay, hopnd]
  have hfits : s.pay.length ≤ s.config.bufcap.val := by simp [hpay]
  rw [exec_construct, finish_of_ok (loadBuffer_of_fits hoffset hfits), hpay, hopnd]
  rfl

/-- Settles O1: the listed values are the reset state's own fields, and CONSTRUCT of nothing leaves the same buffer. -/
theorem resetLeavesTheListedValues : Obligations.ResetLeavesTheListedValues :=
  ⟨rfl, rfl, rfl, rfl, rfl, rfl, rfl, fun _ hpay hopnd => ⟨_, exec_construct_empty hpay hopnd, rfl, rfl, rfl⟩⟩

end Sys2Proof.Machine
end

section
/-!
SUPPORT. What every step keeps (10_state.md rules R20 to R22, R29, R30; 60_exceptions.md rule R186;
70_reset_and_hazards.md rules R200, R208, R209): a command leaves a sound buffer and the interface as it found it, ends in
`ok` or `raise`, and answers a legal response; from that, each statement about a step by the cases of the first event.
-/

namespace Sys2Proof.Machine

/-! ### Every command ends (rule R186) -/

theorem readAtCursor_ne_fault {s : State} (hs : s.BufBacked) {n : Nat} (hend : s.off.toNat + n ≤ s.len.toNat)
    (f : Fault) : readAtCursor n s ≠ .error (.faulted f) := by
  obtain ⟨bs, hread, -⟩ := readAtCursor_of_backed hs hend
  simp [hread]

theorem take_ne_fault {s : State} (hs : s.BufSound) (n : Nat) (f : Fault) : take n s ≠ .error (.faulted f) := by
  rcases Nat.lt_or_ge s.remaining n with hshort | henough
  · simp [take_short hshort]
  · obtain ⟨bs, htake, -⟩ := take_enough hs henough
    simp [htake]

theorem takeRaw_ne_fault {s : State} (hs : s.BufSound) (f : Fault) : takeRaw s ≠ .error (.faulted f) := by
  have hcursor : s.off.toNat ≤ s.len.toNat := hs.2.1
  rcases lt_trichotomy s.opndLength 0 with hneg | hzero | hpos
  · simp [takeRaw_of_neg hneg]
  · simp [takeRaw_of_zero hzero]
  · rcases Nat.lt_or_ge s.remaining s.opnd.toNat with hshort | henough
    · simp [takeRaw_of_short hpos hshort]
    · rw [takeRaw_of_enough hpos henough]
      rw [State.remaining] at henough
      exact readAtCursor_ne_fault hs.1 (by omega) f

theorem takeRemaining_ne_fault {s : State} (hs : s.BufBacked) (f : Fault) : takeRemaining s ≠ .error (.faulted f) := by
  rcases Nat.lt_or_ge s.off.toNat s.len.toNat with hunread | hend
  · rw [takeRemaining_of_unread hunread]
    exact readAtCursor_ne_fault hs (Nat.add_sub_of_le hunread.le).le f
  · simp [takeRemaining_of_end hend]

theorem loadBuffer_ne_fault (s : State) (f : Fault) : loadBuffer s ≠ .error (.faulted f) := fun h => by
  rcases loadBuffer_error h with ⟨-, hraised⟩ | ⟨-, -, hraised⟩ <;> cases hraised

theorem moveCursor_ne_fault (s : State) (f : Fault) : moveCursor s ≠ .error (.faulted f) := fun h => by
  obtain ⟨-, hraised⟩ := moveCursor_error h
  cases hraised

/-- A command whose checks do not fault ends in `ok` or in `raise`. -/
theorem finish_total {α : Type} {s : State} {r : Except Stop α} (k : α → State) (h : ∀ f, r ≠ .error (.faulted f)) :
    ∃ t, finish s r k = .next t := by
  match r with
  | .ok a => exact ⟨_, finish_ok s a k⟩
  | .error (.raised e) => exact ⟨_, finish_raised s e k⟩
  | .error (.faulted f) => exact absurd rfl (h f)

/-- In a sound state every command ends (rule R186). -/
theorem exec_total {s : State} (hs : s.BufSound) (i : Instr) : ∃ t, exec i s = .next t := by
  rcases instr_family i with hi | hi | hi | rfl | rfl | rfl | rfl | rfl | rfl | rfl | rfl
  · obtain ⟨bs, hexec⟩ := exec_of_isPut hi s
    rcases putBytes_cases bs s with ⟨-, hput⟩ | ⟨-, hput⟩
    · exact ⟨_, hexec.trans hput⟩
    · exact ⟨_, hexec.trans hput⟩
  · obtain ⟨value, hexec⟩ := exec_of_fixedRead hi s
    rw [hexec]
    exact finish_total _ (take_ne_fault hs _)
  · obtain ⟨w, value, hexec⟩ := exec_of_varRead hi s
    rw [hexec]
    exact finish_total _ (varDec_ne_fault hs.1)
  · exact finish_total _ (takeRaw_ne_fault hs)
  · exact finish_total _ (takeRemaining_ne_fault hs.1)
  · exact finish_total _ (loadBuffer_ne_fault s)
  · exact ⟨_, exec_rewind s⟩
  · exact finish_total _ (moveCursor_ne_fault s)
  · exact ⟨_, exec_getoff s⟩
  · obtain ⟨bs, t, -, -, hexec, -⟩ := getbuf_readsForward hs.1
    exact ⟨t, hexec⟩
  · exact ⟨_, exec_feof s⟩

/-! ### What a command keeps -/

theorem Moved.bufBacked {i : Instr} {s s1 : State} (h : Moved i s s1) (hs : s.BufBacked) : s1.BufBacked := by
  cases h with
  | same => exact hs
  | cursor => exact hs
  | appended bs _ _ happend =>
    obtain ⟨hfit, rfl⟩ := append_ok happend
    simp only [State.BufBacked, append_len_toNat hfit]
    exact Memory.range_writeBytes _ _ _ hs
  | loaded _ _ hload =>
    obtain ⟨-, hfit, rfl⟩ := loadBuffer_ok hload
    simp only [State.BufBacked, toNat_ofNat_of_le_bufcap hfit]
    exact Memory.range_ofBytes s.pay

/-- No command leaves BUF, LEN and OFF at odds (rules R20 to R22). -/
theorem exec_bufSound {i : Instr} {s t : State} (hs : s.BufSound) (h : exec i s = .next t) : t.BufSound := by
  refine ⟨?_, exec_cursorInRange hs.2 h⟩
  rcases exec_next h with ⟨e, rfl⟩ | ⟨s1, r, d, hmoved, rfl⟩
  · exact hs.1
  · exact hmoved.bufBacked hs.1

theorem Moved.sameInterface {i : Instr} {s s1 : State} (h : Moved i s s1) : SameInterface s s1 := by
  cases h with
  | same => exact ⟨rfl, rfl, rfl, rfl, rfl⟩
  | cursor => exact ⟨rfl, rfl, rfl, rfl, rfl⟩
  | appended bs _ _ happend =>
    obtain ⟨-, rfl⟩ := append_ok happend
    exact ⟨rfl, rfl, rfl, rfl, rfl⟩
  | loaded _ _ hload =>
    obtain ⟨-, -, rfl⟩ := loadBuffer_ok hload
    exact ⟨rfl, rfl, rfl, rfl, rfl⟩

theorem exec_sameInterface {i : Instr} {s t : State} (h : exec i s = .next t) : SameInterface s t := by
  rcases exec_next h with ⟨e, rfl⟩ | ⟨s1, r, d, hmoved, rfl⟩
  · exact (respondRaise_keeps s e).2.2
  · have hkept : SameInterface s s1 := hmoved.sameInterface
    exact hkept

/-! ### Legal responses (rules R26, R29, R30, R33) -/

theorem legal_respondOk (s : State) (r : Word64) (d : List Byte) : (s.respondOk r d).response.Legal := by
  simp [Response.Legal]

/-- An error that a command may raise is answered legally: of the two numbers of InsufficientData, HAVE is the smaller. -/
theorem legal_respondRaise {i : Instr} {s : State} {e : Kind} (he : MayRaise i s e) :
    (s.respondRaise e).response.Legal := by
  refine ⟨.inr e.code_written, fun hcode => ?_, needValue_haveValue_eq_zero, fun _ => ⟨rfl, rfl⟩⟩
  obtain ⟨hneed, hhave, hlt⟩ := needValue_haveValue_of_mayRaise he hcode
  simpa [hneed, hhave] using hlt

theorem exec_response_legal {i : Instr} {s t : State} (h : exec i s = .next t) : t.response.Legal := by
  rcases exec_raisesOrMoves h with ⟨e, he, rfl⟩ | ⟨s1, r, d, rfl, -⟩
  · exact legal_respondRaise he
  · exact legal_respondOk s1 r d

/-! ### One command taken from the queue (rules R9, R208) -/

theorem step_of_instr {s : State} {c : Command} {rest : List HostEvent} {i : Instr}
    (hp : s.pending = .command c :: rest) (hi : decode c.cw = .instr i) :
    step s = answer (exec i (s.present c rest)) := by
  simp only [step, hp, hi]

theorem step_of_reserved {s : State} {c : Command} {rest : List HostEvent} {why : Reserved}
    (hp : s.pending = .command c :: rest) (hw : decode c.cw = .reserved why) :
    step s = .next ((s.present c rest).respondRaise .invalidArgument).deliver := by
  simp only [step, hp, hw, execReserved, answer]

/-- What is true of a command's end before its response is delivered: the buffer is sound if it was, the response is
legal, and the interface is as the command found it. -/
def EndsProperly (s u : State) : Prop :=
  (s.BufSound → u.BufSound) ∧ u.response.Legal ∧ SameInterface s u

theorem exec_endsProperly {i : Instr} {s u : State} (h : exec i s = .next u) : EndsProperly s u :=
  ⟨fun hs => exec_bufSound hs h, exec_response_legal h, exec_sameInterface h⟩

/-- A reserved word ends as GET.RAW of a negative length does, which may raise the same error. -/
theorem reserved_endsProperly (s : State) : EndsProperly s (s.respondRaise .invalidArgument) :=
  ⟨id, legal_respondRaise (i := .getRaw) (.inl rfl), (respondRaise_keeps s _).2.2⟩

/-- One step: it waits, resets, or delivers the response of a command that ended properly. -/
theorem step_cases {s t : State} (h : step s = .next t) :
    t = s ∨ (∃ rest, t = s.resetUnit rest) ∨
      ∃ c rest u, s.pending = .command c :: rest ∧ EndsProperly (s.present c rest) u ∧ t = u.deliver := by
  rcases step_next h with ⟨-, rfl⟩ | ⟨rest, -, rfl⟩ | ⟨c, rest, i, u, hp, -, hu, rfl⟩ | ⟨c, rest, why, hp, -, rfl⟩
  · exact .inl rfl
  · exact .inr (.inl ⟨rest, rfl⟩)
  · exact .inr (.inr ⟨c, rest, u, hp, exec_endsProperly hu, rfl⟩)
  · exact .inr (.inr ⟨c, rest, _, hp, reserved_endsProperly _, rfl⟩)

/-- From a sound state a step takes the first pending command to its proper end. -/
theorem step_command {s : State} {c : Command} {rest : List HostEvent} (hs : s.BufSound)
    (hp : s.pending = .command c :: rest) :
    ∃ u, step s = .next u.deliver ∧ EndsProperly (s.present c rest) u := by
  cases hdecode : decode c.cw with
  | instr i =>
    obtain ⟨u, hu⟩ := exec_total (s := s.present c rest) hs i
    exact ⟨u, by rw [step_of_instr hp hdecode, hu]; rfl, exec_endsProperly hu⟩
  | reserved why => exact ⟨_, step_of_reserved hp hdecode, reserved_endsProperly _⟩

/-! ### The invariant -/

/-- What was delivered is in the record, not at the interface: a legal response stays legal without its DOUT. -/
theorem legal_deliver {u : State} (h : u.response.Legal) : u.deliver.response.Legal := by
  obtain ⟨hstatus, hshort, hcounts, hfailed⟩ := h
  exact ⟨hstatus, hshort, hcounts, fun hcode => ⟨(hfailed hcode).1, rfl⟩⟩

theorem inv_deliver {s u : State} {c : Command} {rest : List HostEvent} (hs : s.Inv)
    (h : EndsProperly (s.present c rest) u) : u.deliver.Inv := by
  obtain ⟨hsound, -, -, hrecord⟩ := hs
  obtain ⟨hbuf, hlegal, -, -, -, -, hresponses⟩ := h
  refine ⟨hbuf hsound, legal_deliver hlegal, ⟨rfl, rfl, rfl⟩, fun r hr => ?_⟩
  rw [State.deliver_responses, hresponses, List.mem_append, List.mem_singleton] at hr
  rcases hr with hr | rfl
  · exact hrecord r hr
  · exact hlegal

theorem inv_resetUnit {s : State} (hs : s.Inv) (rest : List HostEvent) : (s.resetUnit rest).Inv := by
  obtain ⟨-, -, -, hrecord⟩ := hs
  exact ⟨⟨rfl, Nat.le_refl 0, Nat.zero_le _⟩, legal_respondOk State.reset 0 [], ⟨rfl, rfl, rfl⟩, hrecord⟩

/-- Settles O4: waiting changes nothing, a reset empties the buffer, and a command that ends properly keeps the buffer
sound and adds its legal response to the record. -/
theorem stepKeepsTheInvariant : Obligations.StepKeepsTheInvariant := by
  intro s t hs h
  rcases step_cases h with rfl | ⟨rest, rfl⟩ | ⟨c, rest, u, -, hu, rfl⟩
  · exact hs
  · exact inv_resetUnit hs rest
  · exact inv_deliver hs hu

/-- Settles O3: an empty buffer is sound, the reset response is an `ok`, and nothing is recorded. -/
theorem resetMeetsTheInvariant : Obligations.ResetMeetsTheInvariant :=
  ⟨⟨rfl, Nat.le_refl 0, Nat.zero_le _⟩, legal_respondOk State.reset 0 [], ⟨rfl, rfl, rfl⟩, fun _ h => nomatch h⟩

/-! ### Steps -/

theorem step_of_reset {s : State} {rest : List HostEvent} (hp : s.pending = .reset :: rest) :
    step s = .next (s.resetUnit rest) := by
  simp only [step, hp]

theorem step_of_idle {s : State} (hp : s.pending = []) : step s = .next s := by
  simp only [step, hp]

/-- Settles O2: the step is `State.resetUnit`, whose buffer has no cell. -/
theorem resetEventLeavesTheResetState : Obligations.ResetEventLeavesTheResetState :=
  fun _ _ hp => ⟨_, step_of_reset hp, rfl, Memory.read_nil⟩

/-- Settles O5: by the first pending event; every command ends in a sound state. -/
theorem stepNeverStops : Obligations.StepNeverStops := by
  intro s hs
  match hp : s.pending with
  | [] => exact ⟨s, step_of_idle hp⟩
  | .reset :: rest => exact ⟨_, step_of_reset hp⟩
  | .command c :: rest =>
    obtain ⟨u, hstep, -⟩ := step_command hs hp
    exact ⟨_, hstep⟩

/-- Settles O10: every move of a command leaves the interface alone, and reset and delivery keep the parameters. -/
theorem parametersAndInterfaceAreKept : Obligations.ParametersAndInterfaceAreKept := by
  refine ⟨fun i s t => exec_sameInterface, fun s t h => ?_⟩
  rcases step_cases h with rfl | ⟨rest, rfl⟩ | ⟨c, rest, u, -, ⟨-, -, hconfig, -⟩, rfl⟩
  · rfl
  · rfl
  · exact hconfig

/-- Settles O22: the step is the delivery of what `exec` answers, and `exec` refuses nothing. -/
theorem stepRunsTheDecodedCommand : Obligations.StepRunsTheDecodedCommand := by
  intro s c rest i hp hi
  have hstep := step_of_instr hp hi
  refine ⟨fun t ht => ?_, fun f hf => ?_, fun r => ⟨exec_ne_refused i _ r, fun hr => ?_⟩⟩
  · rw [hstep, State.present, ht]; rfl
  · rw [hstep, State.present, hf]; rfl
  · rw [hstep] at hr
    match hexec : exec i (s.present c rest) with
    | .next u => simp [hexec, answer] at hr
    | .fault f => simp [hexec, answer] at hr
    | .refused r => exact exec_ne_refused i _ r hexec

/-- Settles O60: the words that rule R71 lists are those that decode to nothing. -/
theorem stepAnswersAReservedWord : Obligations.StepAnswersAReservedWord := by
  intro s c rest hp hreserved
  obtain ⟨why, hw⟩ := (decode_reserved_iff_reservedByRule c.cw).2 hreserved
  exact step_of_reserved hp hw

/-- Settles O14: the STATUS names the kind, and the kind its commands (rule R180). -/
theorem kindsComeFromTheListedCommands : Obligations.KindsComeFromTheListedCommands := by
  intro i s t h
  rcases exec_raisesOrMoves h with ⟨e, he, rfl⟩ | ⟨s1, r, d, rfl, -⟩
  · cases e with
    | insufficientData need available => exact ⟨fun _ => he.1, nofun, nofun, nofun⟩
    | malformedVarint => exact ⟨nofun, fun _ => he, nofun, nofun⟩
    | invalidArgument => exact ⟨nofun, nofun, fun _ => he, nofun⟩
    | capacity => exact ⟨nofun, nofun, nofun, fun _ => he⟩
  · exact ⟨nofun, nofun, nofun, nofun⟩

/-! ### Lists of commands (rules R208, R209) -/

/-- Settles O15: the delivery appends the response of the one command taken. -/
theorem oneResponsePerCommandInOrder : Obligations.OneResponsePerCommandInOrder := by
  intro s c rest hs hp
  obtain ⟨u, hstep, -, -, -, -, -, hpending, hresponses⟩ := step_command hs hp
  exact ⟨u.deliver, u.dout, hstep, hpending, congrArg (· ++ [u.response]) hresponses⟩

theorem run_succ_of_step {M : Host.Core} {s u : M.State} (h : M.step s = .next u) (k : Nat) :
    M.run (k + 1) s = M.run k u := by
  rw [Host.Core.run, h]

/-- With nothing pending a run of any length waits. -/
theorem run_of_idle {s : State} (hp : s.pending = []) (k : Nat) : Host.Core.run core k s = .next s := by
  induction k with
  | zero => rfl
  | succ k ih => exact (run_succ_of_step (M := core) (step_of_idle hp) k).trans ih

/-- Settles O16: by induction on the list; the state after a command is sound, waits for the rest, and has one response
more. -/
theorem commandListRunsStraightThrough : Obligations.CommandListRunsStraightThrough := by
  intro cs
  induction cs with
  | nil => exact fun s hs hp => ⟨s, hs, hp, ⟨[], List.append_nil _⟩, rfl, fun k => by simpa using run_of_idle hp k⟩
  | cons c cs ih =>
    intro s hs hp
    obtain ⟨u, hstep, hsound, -, -, -, -, hpending, hresponses⟩ := step_command hs hp
    obtain ⟨t, ht, hidle, ⟨later, hlater⟩, hcount, hrun⟩ := ih u.deliver (hsound hs) hpending
    have hrecord : u.deliver.responses = s.responses ++ [u.response] := congrArg (· ++ [u.response]) hresponses
    rw [hrecord] at hlater hcount
    refine ⟨t, ht, hidle, ⟨[u.response] ++ later, by rw [← List.append_assoc, hlater]⟩, ?_, fun k => ?_⟩
    · rw [hcount, List.length_append, List.length_singleton, List.length_cons]; omega
    · rw [List.length_cons, Nat.add_right_comm]
      exact (run_succ_of_step (M := core) hstep _).trans (hrun k)

end Sys2Proof.Machine
end

section
/-!
SUPPORT. Command words both ways (30_encoding.md rules R64 to R73): which words a row of the opcode map hits, that no two
rows hit one word, and that the encoder packs the one word that a row and a precision stand for.
-/

namespace Sys2Proof.Machine

/-! ### The rows do not overlap (rule R70) -/

/-- No two rows have one low byte. -/
theorem opTable_patterns_nodup : (opTable.map OpRow.pattern).Nodup := by decide

theorem pattern_injOn_opTable {r r' : OpRow} (hr : r ∈ opTable) (hr' : r' ∈ opTable) (h : r.pattern = r'.pattern) :
    r = r' :=
  List.inj_on_of_nodup_map opTable_patterns_nodup hr hr' h

/-- A word hits one row at most. -/
theorem hits_unique {r r' : OpRow} {cw : CmdWord} (hr : r ∈ opTable) (hr' : r' ∈ opTable) (h : r.hits cw = true)
    (h' : r'.hits cw = true) : r = r' :=
  pattern_injOn_opTable hr hr' (((hits_iff hr cw).1 h).2.symm.trans ((hits_iff hr' cw).1 h').2)

theorem decode_of_hits {r : OpRow} {cw : CmdWord} (hr : r ∈ opTable) (h : r.hits cw = true) :
    decode cw = .instr (r.make (precOf cw)) := by
  unfold decode
  split
  · rename_i r' hfind
    rw [hits_unique (List.mem_of_find?_eq_some hfind) hr (List.find?_some (p := (OpRow.hits · cw)) hfind) h]
  · rename_i hnone
    exact absurd h (List.find?_eq_none.1 hnone r hr)

/-- A word that decodes to a command hits the command's row. -/
theorem hits_of_decode {cw : CmdWord} {i : Instr} (h : decode cw = .instr i) :
    ∃ r ∈ opTable, r.hits cw = true ∧ i = r.make (precOf cw) := by
  unfold decode at h
  split at h
  · rename_i r hfind
    exact ⟨r, List.mem_of_find?_eq_some hfind, List.find?_some (p := (OpRow.hits · cw)) hfind, (Decoded.instr.inj h).symm⟩
  · cases h

theorem precOf_eq_div (cw : CmdWord) : precOf cw = cw.toNat / 256 := by
  have hlt := cw.isLt
  rw [precOf, argOf, BitVec.extractLsb'_toNat, Nat.shiftRight_eq_div_pow]
  omega

/-- Settles O19: a word hits one row at most, so the row that it matches is the one that the decoder finds. -/
theorem everyRowSelectsItsCommand : Obligations.EveryRowSelectsItsCommand := by
  intro cw r hr h
  rw [decode_of_hits hr (beq_iff_eq.2 h), precOf_eq_div]

/-! ### The words of the rounded reads, whose ARG is the precision (rules R64, R68) -/

theorem formatD_eq_ofNat (arg : Nat) (dir : BitVec 1) (type : BitVec 4) (le sgn rnd : BitVec 1) :
    formatD arg dir type le sgn rnd =
      BitVec.ofNat 16 (arg * 256 + (dir ++ (type ++ (le ++ (sgn ++ rnd))) : BitVec 8).toNat) := by
  apply BitVec.eq_of_toNat_eq
  rw [formatD, toNat_append_byte, BitVec.toNat_ofNat, BitVec.toNat_ofNat]
  omega

theorem encode_getF32rBe (prec : Nat) : encode (.getF32rBe prec) = BitVec.ofNat 16 (prec * 256 + 0x31) :=
  formatD_eq_ofNat prec 0 6 0 0 1

theorem encode_getF32rLe (prec : Nat) : encode (.getF32rLe prec) = BitVec.ofNat 16 (prec * 256 + 0x35) :=
  formatD_eq_ofNat prec 0 6 1 0 1

/-- A word is its ARG above its low byte. -/
theorem eq_ofNat_of_lowWord {cw : CmdWord} {low : Nat} (hlow : lowWord cw = BitVec.ofNat 16 low) :
    cw = BitVec.ofNat 16 (precOf cw * 256 + low) := by
  have hmod := congrArg BitVec.toNat hlow
  have hlt := cw.isLt
  rw [toNat_lowWord, BitVec.toNat_ofNat] at hmod
  apply BitVec.eq_of_toNat_eq
  rw [BitVec.toNat_ofNat, precOf_eq_div]
  omega

theorem precFits_precOf (cw : CmdWord) : Instr.precFits (precOf cw) = true := by
  have hlt := cw.isLt
  rw [Instr.precFits, decide_eq_true_iff, precOf_eq_div]
  omega

/-! ### Encoding and decoding (rules R70, R73) -/

/-- Settles O17: the two rounded reads at every precision; every other command has one word, and that is decoded by the
rows in order. -/
theorem decodeOfEncodeIsTheCommand : Obligations.DecodeOfEncodeIsTheCommand := by
  intro i hwf
  cases i
  case getF32rBe prec =>
    rw [encode_getF32rBe]
    exact decode_getF32rBe (of_decide_eq_true hwf)
  case getF32rLe prec =>
    rw [encode_getF32rLe]
    exact decode_getF32rLe (of_decide_eq_true hwf)
  all_goals decide

/-- A row that looks at ARG has one word, its pattern, and that is the word of the row's command. -/
theorem encode_make_of_mask : ∀ r ∈ opTable, r.mask = 0xFFFF →
    (r.make (precOf r.pattern)).wellFormed = true ∧ encode (r.make (precOf r.pattern)) = r.pattern := by
  decide

/-- Settles O18: by the row that the word hits; its pattern is the word, or it is a rounded read's and ARG is the
precision. -/
theorem encodeOfDecodeIsTheWord : Obligations.EncodeOfDecodeIsTheWord := by
  intro cw i h
  obtain ⟨r, hr, hhits, rfl⟩ := hits_of_decode h
  have hlow : lowWord cw = r.pattern := ((hits_iff hr cw).1 hhits).2
  obtain ⟨hmask, -⟩ | ⟨-, hpat | hpat⟩ := opTable_row hr
  · have hword : cw = r.pattern := by
      rw [OpRow.hits, hmask, beq_iff_eq] at hhits
      exact BitVec.and_allOnes.symm.trans hhits
    rw [hword]
    exact encode_make_of_mask r hr hmask
  · obtain rfl : r = ⟨0x00FF, 0x31, .getF32rBe⟩ := pattern_injOn_opTable hr (by simp [opTable, tableFloat]) hpat
    exact ⟨precFits_precOf cw, (encode_getF32rBe _).trans (eq_ofNat_of_lowWord hlow).symm⟩
  · obtain rfl : r = ⟨0x00FF, 0x35, .getF32rLe⟩ := pattern_injOn_opTable hr (by simp [opTable, tableFloat]) hpat
    exact ⟨precFits_precOf cw, (encode_getF32rLe _).trans (eq_ofNat_of_lowWord hlow).symm⟩

/-- Settles O21: each word hits the row written out for it; 0x001A hits none. -/
theorem sampleWordsDecode : Obligations.SampleWordsDecode := by
  unfold Obligations.SampleWordsDecode
  decide

end Sys2Proof.Machine
end

section
/-!
SUPPORT. What a command does not read (10_state.md rules R25, R26, R29, R33; 30_encoding.md rule R69): a change of fields
outside BUF, LEN, OFF and the parameters passes through every shared operation, so that a command whose own operands do
not change runs as before.
-/

namespace Sys2Proof.Machine

/-! ### How each family runs, the same from every state -/

/-- The byte string that a PUT appends (rules R81, R83, R90, R148 to R153, R161); empty for every other command. -/
def putString (i : Instr) (s : State) : List Byte :=
  match i with
  | .put8 => [s.opndLow 8]
  | .putBool => [if s.opndTruth then 0x01 else 0x00]
  | .put16Be => toBe 2 (s.opndBytes 2)
  | .put16Le => toLe 2 (s.opndBytes 2)
  | .put24Be => toBe 3 (s.opndBytes 3)
  | .put24Le => toLe 3 (s.opndBytes 3)
  | .put32Be | .putF32Be => toBe 4 (s.opndBytes 4)
  | .put32Le | .putF32Le => toLe 4 (s.opndBytes 4)
  | .put64Be | .putF64Be => toBe 8 (s.opndBytes 8)
  | .put64Le | .putF64Le => toLe 8 (s.opndBytes 8)
  | .putUv32 => varEnc Config.var32Max (s.opndLow 32)
  | .putSv32 => varEnc Config.var32Max (zigZagEnc (s.opndLow 32))
  | .putUv64 => varEnc Config.var64Max (s.opndLow 64)
  | .putSv64 => varEnc Config.var64Max (zigZagEnc (s.opndLow 64))
  | .putRaw => s.pay
  | _ => []

theorem exec_put {i : Instr} (hi : isPut i = true) (s : State) : exec i s = putBytes (putString i s) s := by
  cases i <;> simp [isPut] at hi
  all_goals rfl

/-- A fixed-width read answers a value of its bytes; no more of the state than a parameter goes into it. -/
theorem exec_fixedRead {i : Instr} (hi : 0 < fixedReadWidth i) :
    ∃ value : List Byte × State → Word64,
      (∀ s, exec i s = finish s (take (fixedReadWidth i) s) fun p => p.2.respondOk (value p) []) ∧
      ∀ (bs : List Byte) (t u : State), t.config = u.config → value (bs, t) = value (bs, u) := by
  cases i <;> simp [fixedReadWidth] at hi
  case getF32rBe prec => exact ⟨_, getRounded_eq_finish .be prec, fun _ _ _ h => by simp only [h]⟩
  case getF32rLe prec => exact ⟨_, getRounded_eq_finish .le prec, fun _ _ _ h => by simp only [h]⟩
  all_goals exact ⟨_, fun _ => rfl, fun _ _ _ _ => rfl⟩

/-- A variable-length read answers a value of the decoded pattern. -/
theorem exec_varRead {i : Instr} (hi : 0 < varReadLimit i) :
    ∃ (w : Nat) (value : BitVec w → Word64), ∀ s,
      exec i s = finish s (varDec w (varReadLimit i) s) fun p => p.2.respondOk (value p.1) [] := by
  cases i <;> simp [varReadLimit] at hi
  case getUv32 => exact ⟨32, zext64, fun _ => rfl⟩
  case getSv32 => exact ⟨32, fun z => sext64 (zigZagDec z), fun _ => rfl⟩
  case getUv64 => exact ⟨64, zext64, fun _ => rfl⟩
  case getSv64 => exact ⟨64, fun z => sext64 (zigZagDec z), fun _ => rfl⟩

/-! ### Changes of fields that the shared operations do not read -/

/-- `g` changes no field that a shared operation reads, and commutes with the writes of BUF, LEN and OFF; on a state in
which the response is written it is `h`. -/
structure Unread (g h : State → State) : Prop where
  config : ∀ s, (g s).config = s.config
  buf : ∀ s, (g s).buf = s.buf
  len : ∀ s, (g s).len = s.len
  off : ∀ s, (g s).off = s.off
  moved : ∀ (s : State) (o : Word32), { g s with off := o } = g { s with off := o }
  appended : ∀ (s : State) (b : Memory) (l : Word32), { g s with buf := b, len := l } = g { s with buf := b, len := l }
  loaded : ∀ (s : State) (b : Memory) (l o : Word32),
    { g s with buf := b, len := l, off := o } = g { s with buf := b, len := l, off := o }
  respondOk : ∀ (s : State) (r : Word64) (d : List Byte), (g s).respondOk r d = h (s.respondOk r d)
  respondRaise : ∀ (s : State) (e : Kind), (g s).respondRaise e = h (s.respondRaise e)

/-- The response registers and DOUT: the response overwrites them all. -/
theorem unread_response (status : BitVec 3) (res need available : Word64) (dout : List Byte) :
    Unread (fun s => { s with status := status, res := res, need := need, have_ := available, dout := dout }) id := by
  constructor <;> intros <;> rfl

theorem unread_opnd (o : Word64) : Unread (fun s => { s with opnd := o }) fun s => { s with opnd := o } := by
  constructor <;> intros <;> rfl

theorem unread_pay (p : List Byte) : Unread (fun s => { s with pay := p }) fun s => { s with pay := p } := by
  constructor <;> intros <;> rfl

section
variable {g h : State → State} (hg : Unread g h)
include hg

theorem Unread.remaining (s : State) : (g s).remaining = s.remaining := by
  rw [State.remaining, hg.len, hg.off, State.remaining]

/-! ### The shared operations pass the change through -/

theorem Unread.finish {α : Type} {s : State} {r : Except Stop α} {φ : α → α} {k k' : α → State}
    (hk : ∀ a, k' (φ a) = h (k a)) : finish (g s) (r.map φ) k' = mapNext h (finish s r k) := by
  match r with
  | .ok a => exact congrArg Host.Outcome.next (hk a)
  | .error (.raised e) => exact congrArg Host.Outcome.next (hg.respondRaise s e)
  | .error (.faulted f) => rfl

theorem Unread.memRead (s : State) (a n : Nat) : memRead (g s) a n = memRead s a n := by
  rw [Machine.memRead, hg.buf, Machine.memRead]

theorem Unread.readAtCursor (n : Nat) (s : State) :
    readAtCursor n (g s) = (readAtCursor n s).map (Prod.map id g) := by
  rw [Machine.readAtCursor, Machine.readAtCursor, hg.memRead, hg.off]
  match Machine.memRead s s.off.toNat n with
  | .error e => rfl
  | .ok bs => exact congrArg (fun t => Except.ok (bs, t)) (hg.moved s _)

theorem Unread.take (n : Nat) (s : State) : take n (g s) = (take n s).map (Prod.map id g) := by
  rw [Machine.take, Machine.take, hg.remaining]
  split
  · rfl
  · exact hg.readAtCursor n s

theorem Unread.takeRemaining (s : State) : takeRemaining (g s) = (takeRemaining s).map (Prod.map id g) := by
  rw [Machine.takeRemaining, Machine.takeRemaining, hg.remaining, hg.len, hg.off]
  split
  · rfl
  · exact hg.readAtCursor s.remaining s

theorem Unread.takeRaw {s : State} (hopnd : (g s).opnd = s.opnd) : takeRaw (g s) = (takeRaw s).map (Prod.map id g) := by
  have hlength : (g s).opndLength = s.opndLength := congrArg BitVec.toInt hopnd
  rw [Machine.takeRaw, Machine.takeRaw, hlength, hg.remaining]
  split
  · rfl
  · split
    · rfl
    · split
      · rfl
      · exact hg.readAtCursor _ s

theorem Unread.moveCursor {s : State} (hopnd : (g s).opnd = s.opnd) : moveCursor (g s) = (moveCursor s).map g := by
  rw [Machine.moveCursor, Machine.moveCursor, State.opndOffset, State.opndOffset, hopnd, hg.len]
  split
  · rfl
  · refine congrArg Except.ok ?_
    simpa only [hg.len, hopnd] using hg.moved s (BitVec.ofNat 32 s.opnd.toNat)

theorem Unread.loadBuffer {s : State} (hopnd : (g s).opnd = s.opnd) (hpay : (g s).pay = s.pay) :
    loadBuffer (g s) = (loadBuffer s).map g := by
  rw [Machine.loadBuffer, Machine.loadBuffer, State.opndOffset, State.opndOffset, hopnd, hpay, hg.config]
  split
  · rfl
  · split
    · rfl
    · refine congrArg Except.ok ?_
      simpa only [hg.config, hopnd, hpay] using
        hg.loaded s (Memory.ofBytes s.pay) (BitVec.ofNat 32 s.pay.length) (BitVec.ofNat 32 s.opnd.toNat)

theorem Unread.append (bs : List Byte) (s : State) : append bs (g s) = (append bs s).map g := by
  rw [Machine.append, Machine.append, hg.config, hg.buf, hg.len]
  split
  · rfl
  · refine congrArg Except.ok ?_
    simpa only [hg.config] using
      hg.appended s (s.buf.writeBytes s.len.toNat bs) (BitVec.ofNat 32 (s.len.toNat + bs.length))

theorem Unread.varDecLoop {a : Nat} (s : State) (left i : Nat) (acc : BitVec a) :
    varDecLoop (g s) left i acc = varDecLoop s left i acc := by
  induction left generalizing i acc with
  | zero => rfl
  | succ left ih => simp only [Machine.varDecLoop, hg.buf, hg.len, hg.off, ih]

theorem Unread.varDec (w maxB : Nat) (s : State) : varDec w maxB (g s) = (varDec w maxB s).map (Prod.map id g) := by
  rw [Machine.varDec, Machine.varDec, hg.varDecLoop, hg.off]
  match Machine.varDecLoop (a := 7 * maxB) s maxB 0 0 with
  | .error e => rfl
  | .ok (acc, k) => exact congrArg (fun t => Except.ok (acc.setWidth w, t)) (hg.moved s _)

/-! ### Every command passes the change through, but for its own operands -/

theorem Unread.exec_put {i : Instr} {s : State} (hi : isPut i = true) (hput : putString i (g s) = putString i s) :
    exec i (g s) = mapNext h (exec i s) := by
  rw [Machine.exec_put hi, Machine.exec_put hi, hput, putBytes, putBytes, hg.append]
  exact hg.finish fun s1 => hg.respondOk s1 _ _

theorem Unread.exec_fixedRead {i : Instr} (hi : 0 < fixedReadWidth i) (s : State) :
    exec i (g s) = mapNext h (exec i s) := by
  obtain ⟨value, hexec, hvalue⟩ := Machine.exec_fixedRead hi
  rw [hexec, hexec, hg.take]
  refine hg.finish fun p => ?_
  have hsame : value (p.1, g p.2) = value p := hvalue p.1 (g p.2) p.2 (hg.config p.2)
  exact (hg.respondOk p.2 _ _).trans (congrArg (fun r => h (p.2.respondOk r [])) hsame)

theorem Unread.exec_varRead {i : Instr} (hi : 0 < varReadLimit i) (s : State) :
    exec i (g s) = mapNext h (exec i s) := by
  obtain ⟨w, value, hexec⟩ := Machine.exec_varRead hi
  rw [hexec, hexec, hg.varDec]
  exact hg.finish fun p => hg.respondOk p.2 _ _

/-- A command runs as before under a change of what it does not read: its PUT's bytes, and OPND and PAY where one of the
four other commands with operands reads them, are the same. -/
theorem Unread.exec {i : Instr} {s : State} (hput : putString i (g s) = putString i s)
    (hopnd : i = .getRaw ∨ i = .setoff ∨ i = .construct → (g s).opnd = s.opnd)
    (hpay : i = .construct → (g s).pay = s.pay) : exec i (g s) = mapNext h (exec i s) := by
  rcases instr_family i with hi | hi | hi | rfl | rfl | rfl | rfl | rfl | rfl | rfl | rfl
  · exact hg.exec_put hi hput
  · exact hg.exec_fixedRead hi s
  · exact hg.exec_varRead hi s
  · rw [exec_getRaw, exec_getRaw, hg.takeRaw (hopnd (.inl rfl))]
    exact hg.finish fun p => hg.respondOk p.2 _ _
  · rw [exec_getRem, exec_getRem, hg.takeRemaining]
    exact hg.finish fun p => hg.respondOk p.2 _ _
  · rw [exec_construct, exec_construct, hg.loadBuffer (hopnd (.inr (.inr rfl))) (hpay rfl)]
    exact hg.finish fun s1 => hg.respondOk s1 _ _
  · rw [exec_rewind, exec_rewind, hg.moved, hg.respondOk, mapNext]
  · rw [exec_setoff, exec_setoff, hg.moveCursor (hopnd (.inr (.inl rfl)))]
    exact hg.finish fun s1 => hg.respondOk s1 _ _
  · rw [exec_getoff, exec_getoff, hg.off, hg.respondOk, mapNext]
  · have hread := hg.finish (s := s) (r := Machine.memRead s 0 s.len.toNat) (φ := id) (hg.respondOk s (zext64 s.len))
    rw [Except.map_id] at hread
    rwa [exec_getbuf, exec_getbuf, hg.memRead, hg.len]
  · rw [exec_feof, exec_feof, hg.len, hg.off, hg.respondOk, mapNext]

end

/-! ### The statements of 10_state.md sections 4 to 6 -/

theorem mapNext_id (o : Host.Outcome State Fault Refusal) : mapNext id o = o := by
  cases o <;> rfl

/-- Settles O8: the response registers and DOUT pass through every command to a response that overwrites them. -/
theorem responseRegistersAreNeverRead : Obligations.ResponseRegistersAreNeverRead := by
  intro i s status res need available dout
  have hexec := (unread_response status res need available dout).exec (i := i) (s := s)
    (by cases i <;> rfl) (fun _ => rfl) (fun _ => rfl)
  rwa [mapNext_id] at hexec

/-- Settles O56: the state after the failure differs from the state before it in the response registers alone. -/
theorem repeatedFailureIsTheSame : Obligations.RepeatedFailureIsTheSame := by
  intro i s t h hfailed
  obtain ⟨e, -, rfl⟩ := raised_of_status_ne_zero h hfailed
  exact (responseRegistersAreNeverRead i s e.code 0 e.needValue e.haveValue []).trans h

/-- OPND truncated to a width, from the bits that a mask for that width lets through (rule R25). -/
theorem setWidth_eq_of_and_eq {w : Nat} {o o' mask : Word64} (hmask : mask.setWidth w = BitVec.allOnes w)
    (h : o &&& mask = o' &&& mask) : o.setWidth w = o'.setWidth w := by
  simpa [BitVec.setWidth_and, hmask] using congrArg (BitVec.setWidth w) h

theorem eq_opnd_of_full_mask {i : Instr} {o o' : Word64} (hmask : opndMask i = BitVec.allOnes 64)
    (h : o &&& opndMask i = o' &&& opndMask i) : o = o' := by
  simpa only [hmask, BitVec.and_allOnes] using h

/-- A PUT cuts its bytes from the bits of OPND that rule R25's table gives it. -/
theorem putString_of_opnd {i : Instr} {s : State} {o : Word64} (h : o &&& opndMask i = s.opnd &&& opndMask i) :
    putString i { s with opnd := o } = putString i s := by
  have hlow (w : Nat) (hmask : (opndMask i).setWidth w = BitVec.allOnes w) : o.setWidth w = s.opnd.setWidth w :=
    setWidth_eq_of_and_eq hmask h
  have hall (hmask : opndMask i = BitVec.allOnes 64) : o = s.opnd := eq_opnd_of_full_mask hmask h
  cases i
  case put8 => exact congrArg (fun b => [b]) (hlow 8 rfl)
  case putBool => rw [hall rfl]
  case put16Be => exact congrArg (toBe 2) (hlow 16 rfl)
  case put16Le => exact congrArg (toLe 2) (hlow 16 rfl)
  case put24Be => exact congrArg (toBe 3) (hlow 24 rfl)
  case put24Le => exact congrArg (toLe 3) (hlow 24 rfl)
  case put32Be => exact congrArg (toBe 4) (hlow 32 rfl)
  case put32Le => exact congrArg (toLe 4) (hlow 32 rfl)
  case putF32Be => exact congrArg (toBe 4) (hlow 32 rfl)
  case putF32Le => exact congrArg (toLe 4) (hlow 32 rfl)
  case putUv32 => exact congrArg (varEnc Config.var32Max) (hlow 32 rfl)
  case putSv32 => exact congrArg (fun v => varEnc Config.var32Max (zigZagEnc v)) (hlow 32 rfl)
  case put64Be => rw [hall rfl]
  case put64Le => rw [hall rfl]
  case putF64Be => rw [hall rfl]
  case putF64Le => rw [hall rfl]
  case putUv64 => rw [hall rfl]
  case putSv64 => rw [hall rfl]
  all_goals rfl

/-- Settles O9: no operand that a command reads changes. -/
theorem unreadOperandsAreIgnored : Obligations.UnreadOperandsAreIgnored := by
  refine ⟨fun i s o h => ?_, fun i s p hraw hconstruct => ?_⟩
  · refine (unread_opnd o).exec (putString_of_opnd h) (fun hi => ?_) (fun _ => rfl)
    rcases hi with rfl | rfl | rfl <;> exact eq_opnd_of_full_mask rfl h
  · refine (unread_pay p).exec ?_ (fun _ => rfl) (fun hi => absurd hi hconstruct)
    cases i
    case putRaw => exact absurd rfl hraw
    all_goals rfl

end Sys2Proof.Machine
end

section
/-!
SUPPORT. Variable-length integers there and back (43_varint.md rules R141, R145, R154, R155): the zigzag map and its inverse
undo each other, the encoding is the shortest sequence that carries its number, and what a PUT appends a GET decodes.
-/

namespace Sys2Proof.Machine

/-! ### The zigzag map is a bijection (rule R145) -/

theorem intOfZigZag_zigZagOfInt (v : Int) : intOfZigZag (zigZagOfInt v) = v := by
  unfold intOfZigZag zigZagOfInt
  split <;> split <;> omega

theorem zigZagOfInt_intOfZigZag (z : Nat) : zigZagOfInt (intOfZigZag z) = z := by
  unfold zigZagOfInt intOfZigZag
  split <;> split <;> omega

theorem zigZagDec_zigZagEnc {w : Nat} (v : BitVec w) : zigZagDec (zigZagEnc v) = v :=
  BitVec.eq_of_toInt_eq (by rw [zigZagDec_toInt, zigZagEnc_toNat, intOfZigZag_zigZagOfInt])

theorem zigZagEnc_zigZagDec {w : Nat} (z : BitVec w) : zigZagEnc (zigZagDec z) = z :=
  BitVec.eq_of_toNat_eq (by rw [zigZagEnc_toNat, zigZagDec_toInt, zigZagOfInt_intOfZigZag])

/-- Settles O46: the integer maps undo each other, and the two functions are those maps at every width. -/
theorem zigZagIsABijection : Obligations.ZigZagIsABijection :=
  ⟨fun v => ⟨zigZagDec_zigZagEnc v, zigZagEnc_zigZagDec v, zigZagDec_toInt v⟩,
    fun v => ⟨zigZagDec_zigZagEnc v, zigZagEnc_zigZagDec v, zigZagDec_toInt v⟩⟩

/-! ### The shortest encoding (rule R141) -/

theorem groupsValue_lt (bs : List Byte) : groupsValue bs < 2 ^ (7 * bs.length) := by
  induction bs with
  | nil => simp [groupsValue]
  | cons b bs ih =>
    rw [groupsValue, List.length_cons, two_pow_seven_mul_succ]
    omega

/-- A number below `2^(7n)` needs no more than `n` groups. -/
theorem groupsNeeded_le {u n : Nat} (hn : 0 < n) (h : u < 2 ^ (7 * n)) : groupsNeeded u ≤ n := by
  rcases Nat.eq_zero_or_pos u with rfl | hu
  · simpa [groupsNeeded] using Nat.succ_le_of_lt hn
  · have hlog : Nat.log2 u < 7 * n := (Nat.log2_lt hu.ne').2 h
    unfold groupsNeeded
    omega

/-- A number needs the second group, or a later one, exactly from its power of 128 on. -/
theorem groupsNeeded_eq_iff {u k : Nat} (hk : 1 < k) :
    groupsNeeded u = k ↔ 2 ^ (7 * (k - 1)) ≤ u ∧ u < 2 ^ (7 * k) := by
  rcases Nat.eq_zero_or_pos u with rfl | hu
  · simp [groupsNeeded, hk.ne]
  · rw [← Nat.le_log2 hu.ne', ← Nat.log2_lt hu.ne', groupsNeeded]
    omega

theorem varEnc_length_of_le {w groups : Nat} (h0 : 0 < groups) (hw : w ≤ 7 * groups) (u : BitVec w) :
    (varEnc groups u).length = groupsNeeded u.toNat :=
  varEnc_length groups u h0 (u.isLt.trans_le (Nat.pow_le_pow_right (by decide) hw))

theorem isVarEncoding_varEnc_of_le {w groups : Nat} (h0 : 0 < groups) (hw : w ≤ 7 * groups) (u : BitVec w) :
    IsVarEncoding u.toNat (varEnc groups u) :=
  isVarEncoding_varEnc h0 (u.isLt.trans_le (Nat.pow_le_pow_right (by decide) hw))

/-- `VarEnc_W` makes the shortest of the sequences that carry its number, one byte for each seven bits begun. -/
theorem varEnc_shortest {w groups : Nat} (h0 : 0 < groups) (hw : w ≤ 7 * groups) (u : BitVec w) :
    IsVarEncoding u.toNat (varEnc groups u) ∧
    (∀ bs, Terminated bs → groupsValue bs = u.toNat → (varEnc groups u).length ≤ bs.length) ∧
    ∀ k, 1 < k → ((varEnc groups u).length = k ↔ 2 ^ (7 * (k - 1)) ≤ u.toNat ∧ u.toNat < 2 ^ (7 * k)) := by
  refine ⟨isVarEncoding_varEnc_of_le h0 hw u, fun bs hterm hvalue => ?_, fun k hk => ?_⟩
  · rw [varEnc_length_of_le h0 hw]
    exact groupsNeeded_le (List.length_pos_iff.2 hterm.1) (hvalue ▸ groupsValue_lt bs)
  · rw [varEnc_length_of_le h0 hw, groupsNeeded_eq_iff hk]

/-- Settles O47: both domains' limits leave room for the W bits. -/
theorem varEncodingIsTheShortest : Obligations.VarEncodingIsTheShortest :=
  ⟨varEnc_shortest (by decide) (by decide), varEnc_shortest (by decide) (by decide)⟩

/-! ### The bytes of a PUT -/

/-- The number that a variable-length PUT encodes (rules R148, R149, R152, R153); 0 for every other command. -/
def putNumber (i : Instr) (s : State) : Nat :=
  match i with
  | .putUv32 => (s.opndLow 32).toNat
  | .putSv32 => (zigZagEnc (s.opndLow 32)).toNat
  | .putUv64 => (s.opndLow 64).toNat
  | .putSv64 => (zigZagEnc (s.opndLow 64)).toNat
  | _ => 0

/-- The variable-length PUTs. -/
def IsVarPut (i : Instr) : Prop := i = .putUv32 ∨ i = .putSv32 ∨ i = .putUv64 ∨ i = .putSv64

theorem isVarPut_putUv32 : IsVarPut .putUv32 := .inl rfl

theorem isVarPut_putSv32 : IsVarPut .putSv32 := .inr (.inl rfl)

theorem isVarPut_putUv64 : IsVarPut .putUv64 := .inr (.inr (.inl rfl))

theorem isVarPut_putSv64 : IsVarPut .putSv64 := .inr (.inr (.inr rfl))

theorem IsVarPut.isPut {i : Instr} (hi : IsVarPut i) : isPut i = true := by
  rcases hi with rfl | rfl | rfl | rfl <;> rfl

/-- A variable-length PUT appends the encoding of its number, as long as the number needs. -/
theorem putString_of_isVarPut {i : Instr} (hi : IsVarPut i) (s : State) :
    IsVarEncoding (putNumber i s) (putString i s) ∧ (putString i s).length = groupsNeeded (putNumber i s) := by
  rcases hi with rfl | rfl | rfl | rfl
  all_goals exact ⟨isVarEncoding_varEnc_of_le (by decide) (by decide) _, varEnc_length_of_le (by decide) (by decide) _⟩

theorem bytesPut_of_isVarPut {i : Instr} (hi : IsVarPut i) (s : State) : bytesPut i s = groupsNeeded (putNumber i s) := by
  rcases hi with rfl | rfl | rfl | rfl
  · exact congrArg groupsNeeded (BitVec.toNat_setWidth 32 s.opnd).symm
  · exact congrArg groupsNeeded (zigZagEnc_toNat (s.opndLow 32)).symm
  · rw [putNumber, opndLow_word64]; rfl
  · rw [putNumber, opndLow_word64, zigZagEnc_toNat]; rfl

/-- `bytesPut` counts the bytes that a PUT appends. -/
theorem putString_length {i : Instr} (hi : isPut i = true) (s : State) : (putString i s).length = bytesPut i s := by
  by_cases hvar : IsVarPut i
  · rw [bytesPut_of_isVarPut hvar, (putString_of_isVarPut hvar s).2]
  · cases i <;> simp [isPut, IsVarPut] at hi hvar
    all_goals rfl

/-! ### A PUT, and the GET at the bytes it appended (rules R154, R155) -/

/-- The state a PUT that fits leaves, with the cursor set to the bytes it appended: sound, the bytes at the cursor, and
nothing after them. -/
theorem put_appended {i : Instr} {s : State} (hi : isPut i = true) (hs : s.BufSound)
    (hroom : s.len.toNat + bytesPut i s ≤ s.config.bufcap.val) :
    ∃ t, exec i s = .next t ∧ t.status = 0 ∧ t.BufBacked ∧ BytesAt t.buf s.len.toNat (putString i s) ∧
      t.len = BitVec.ofNat 32 (s.len.toNat + (putString i s).length) ∧
      t.len.toNat = s.len.toNat + (putString i s).length := by
  rw [← putString_length hi] at hroom
  rcases putBytes_cases (putString i s) s with ⟨-, hput⟩ | ⟨hfull, -⟩
  · have hexec := (exec_put hi s).trans hput
    exact ⟨_, hexec, rfl, (exec_bufSound hs hexec).1, Memory.bytesAt_writeBytes _ _ _, rfl, append_len_toNat hroom⟩
  · omega

/-- What a variable-length GET makes of the number that the bytes at its cursor carry. -/
def Decodes (j : Instr) (value : Nat → Word64) : Prop :=
  ∃ (w : Nat) (result : BitVec w → Word64), (∀ n, result (BitVec.ofNat w n) = value n) ∧
    ∀ s, exec j s = finish s (varDec w (varReadLimit j) s) fun p => p.2.respondOk (result p.1) []

theorem decodes_getUv32 : Decodes .getUv32 fun n => zext64 (BitVec.ofNat 32 n) :=
  ⟨32, zext64, fun _ => rfl, fun _ => rfl⟩

theorem decodes_getUv64 : Decodes .getUv64 fun n => BitVec.ofNat 64 n :=
  ⟨64, zext64, fun _ => BitVec.setWidth_eq _, fun _ => rfl⟩

theorem decodes_getSv32 : Decodes .getSv32 fun n => sext64 (zigZagDec (BitVec.ofNat 32 n)) :=
  ⟨32, fun z => sext64 (zigZagDec z), fun _ => rfl, fun _ => rfl⟩

theorem decodes_getSv64 : Decodes .getSv64 fun n => zigZagDec (BitVec.ofNat 64 n) :=
  ⟨64, fun z => sext64 (zigZagDec z), fun _ => BitVec.signExtend_eq _, fun _ => rfl⟩

/-- A variable-length PUT that fits, then a GET with a limit not below its bytes: the GET answers what it makes of the
number and stops after the last byte. -/
theorem getVar_of_putVar {i j : Instr} {s : State} {value : Nat → Word64} (hi : IsVarPut i) (hj : Decodes j value)
    (hs : s.BufSound) (hroom : s.len.toNat + bytesPut i s ≤ s.config.bufcap.val)
    (hlimit : bytesPut i s ≤ varReadLimit j) {r : Word64} (hr : value (putNumber i s) = r) :
    ∃ t u, exec i s = .next t ∧ t.status = 0 ∧ exec j { t with off := s.len } = .next u ∧ u.status = 0 ∧
      u.res = r ∧ u.off = u.len ∧ u.len = t.len := by
  obtain ⟨t, hput, ht0, -, hat, hlen, hend⟩ := put_appended hi.isPut hs hroom
  obtain ⟨w, result, hresult, hexec⟩ := hj
  obtain ⟨⟨hterm, hnumber, -⟩, -⟩ := putString_of_isVarPut hi s
  rw [← putString_length hi.isPut] at hlimit
  have hdec := varDec_of_terminated (w := w) (s := { t with off := s.len }) hat hterm hlimit hend.ge
  refine ⟨t, _, hput, ht0, (hexec _).trans (finish_of_ok hdec _), rfl, ?_, hlen.symm, rfl⟩
  rw [State.respondOk_res, hnumber, hresult, hr]

/-- Where a terminated sequence is longer than the limit no sequence within the limit stands. -/
theorem not_sequenceAtCursor_of_long {s : State} {maxB : Nat} {bs : List Byte} (hat : BytesAt s.buf s.off.toNat bs)
    (hterm : Terminated bs) (hlong : maxB < bs.length) (k : Nat) : ¬ SequenceAtCursor s maxB k := by
  rintro ⟨hk, -, -, hlast⟩
  have hlt : k < bs.length := by omega
  have hread : s.buf.read (s.off.toNat + k) = some bs[k] := by rw [hat k hlt, List.getElem?_eq_getElem hlt]
  have hmore : bs[k].msb = decide (k + 1 < bs.length) := hterm.2 k hlt
  rw [hlast _ hread] at hmore
  exact absurd (of_decide_eq_false hmore.symm) (by omega)

/-- A variable-length PUT that fits, then a GET with a limit below its bytes: MalformedVarint. -/
theorem getVar_malformed_of_putVar {i j : Instr} {s : State} {value : Nat → Word64} (hi : IsVarPut i)
    (hj : Decodes j value) (hs : s.BufSound) (hroom : s.len.toNat + bytesPut i s ≤ s.config.bufcap.val)
    (hlimit : varReadLimit j < bytesPut i s) :
    ∃ t u, exec i s = .next t ∧ t.status = 0 ∧ exec j { t with off := s.len } = .next u ∧
      Fails { t with off := s.len } u 2 0 0 := by
  obtain ⟨t, hput, ht0, hbacked, hat, -, -⟩ := put_appended hi.isPut hs hroom
  obtain ⟨w, result, -, hexec⟩ := hj
  obtain ⟨⟨hterm, -⟩, -⟩ := putString_of_isVarPut hi s
  rw [← putString_length hi.isPut] at hlimit
  have hdec := varDec_of_no_sequence (w := w) (s := { t with off := s.len }) hbacked
    (not_sequenceAtCursor_of_long hat hterm hlimit)
  exact ⟨t, _, hput, ht0, by rw [hexec, hdec, finish_raised],
    fails_respondRaise { t with off := s.len } (e := .malformedVarint) (by decide)⟩

/-! ### The values and the lengths (rules R143, R145) -/

theorem ofNat_toNat_self {w : Nat} (v : BitVec w) : BitVec.ofNat w v.toNat = v := by
  rw [BitVec.ofNat_toNat, BitVec.setWidth_eq]

/-- The zigzag image of a pattern, decoded at a width that holds the image, is the same integer. -/
theorem zigZagDec_ofNat_zigZagEnc_toInt {w w' : Nat} (v : BitVec w) (h : (zigZagEnc v).toNat < 2 ^ w') :
    (zigZagDec (BitVec.ofNat w' (zigZagEnc v).toNat)).toInt = v.toInt := by
  rw [zigZagDec_toInt, toNat_ofNat_of_fits h, zigZagEnc_toNat, intOfZigZag_zigZagOfInt]

theorem toInt_sext64 {w : Nat} (h : w ≤ 64) (v : BitVec w) : (sext64 v).toInt = v.toInt :=
  BitVec.toInt_signExtend_of_le h

/-- What GET.SV64 makes of a 32-bit zigzag image: the integer at 64 bits. -/
theorem zigZagDec_widened (v : BitVec 32) : zigZagDec (BitVec.ofNat 64 (zigZagEnc v).toNat) = sext64 v := by
  apply BitVec.eq_of_toInt_eq
  rw [zigZagDec_ofNat_zigZagEnc_toInt v ((zigZagEnc v).isLt.trans (by decide)), toInt_sext64 (by decide)]

/-- What GET.SV32 makes of a 64-bit zigzag image that fits 32 bits: the integer itself. -/
theorem sext64_zigZagDec_narrowed {v : Word64} (h : (zigZagEnc v).toNat < 2 ^ 32) :
    sext64 (zigZagDec (BitVec.ofNat 32 (zigZagEnc v).toNat)) = v := by
  apply BitVec.eq_of_toInt_eq
  rw [toInt_sext64 (by decide), zigZagDec_ofNat_zigZagEnc_toInt v h]

theorem zigZagOfInt_lt {v : Int} (hlow : -2 ^ 31 ≤ v) (hhigh : v < 2 ^ 31) : zigZagOfInt v < 2 ^ 32 := by
  unfold zigZagOfInt
  split <;> omega

theorem bytesPut_le_ten {i : Instr} (hi : IsVarPut i) (s : State) : bytesPut i s ≤ 10 := by
  rw [← putString_length hi.isPut]
  rcases hi with rfl | rfl | rfl | rfl
  · exact (varEnc_length_le _ _).trans (by decide)
  · exact (varEnc_length_le _ _).trans (by decide)
  · exact varEnc_length_le _ _
  · exact varEnc_length_le _ _

/-- A number below 2^32 needs no more bytes than the 32-bit domain allows. -/
theorem bytesPut_le_five {i : Instr} {s : State} (hi : IsVarPut i) (h : putNumber i s < 2 ^ 32) : bytesPut i s ≤ 5 := by
  rw [bytesPut_of_isVarPut hi]
  exact groupsNeeded_le (by decide) (h.trans (by decide))

theorem bytesPut_putUv32_le (s : State) : bytesPut .putUv32 s ≤ 5 :=
  bytesPut_le_five isVarPut_putUv32 (s.opndLow 32).isLt

theorem bytesPut_putSv32_le (s : State) : bytesPut .putSv32 s ≤ 5 :=
  bytesPut_le_five isVarPut_putSv32 (zigZagEnc (s.opndLow 32)).isLt

/-! ### The statement of 43_varint.md section 5 -/

/-- What GET.UV32 makes of PUT.UV64's number: the low 32 bits (rule R143). -/
theorem zext64_ofNat_putNumber (s : State) :
    zext64 (BitVec.ofNat 32 (putNumber .putUv64 s)) = (s.opnd.setWidth 32).setWidth 64 := by
  rw [putNumber, opndLow_word64, BitVec.ofNat_toNat, zext64]

/-- PUT.SV64's number, for an operand of the signed 32-bit range, fits 32 bits. -/
theorem putNumber_putSv64_lt {s : State} (hlow : -2 ^ 31 ≤ s.opnd.toInt) (hhigh : s.opnd.toInt < 2 ^ 31) :
    putNumber .putSv64 s < 2 ^ 32 := by
  rw [putNumber, opndLow_word64, zigZagEnc_toNat]
  exact zigZagOfInt_lt hlow hhigh

/-- Settles O58: the GET decodes the number that the PUT encoded; the number fits the reader's width, but for PUT.UV64 read
by GET.UV32, which keeps its low 32 bits or meets more bytes than its limit. -/
theorem varintRoundTrip : Obligations.VarintRoundTrip := by
  refine ⟨fun x hx s hs hroom => ?_, fun s hs hroom => ?_, fun s hs hroom hlow hhigh => ?_⟩
  · simp only [List.mem_cons, List.not_mem_nil, or_false] at hx
    rcases hx with rfl | rfl | rfl | rfl | rfl | rfl
    · exact getVar_of_putVar isVarPut_putUv32 decodes_getUv32 hs hroom (bytesPut_putUv32_le s)
        (congrArg zext64 (ofNat_toNat_self _))
    · exact getVar_of_putVar isVarPut_putSv32 decodes_getSv32 hs hroom (bytesPut_putSv32_le s)
        (congrArg sext64 ((congrArg zigZagDec (ofNat_toNat_self _)).trans (zigZagDec_zigZagEnc _)))
    · exact getVar_of_putVar isVarPut_putUv64 decodes_getUv64 hs hroom (bytesPut_le_ten isVarPut_putUv64 s)
        ((ofNat_toNat_self _).trans (opndLow_word64 s))
    · exact getVar_of_putVar isVarPut_putSv64 decodes_getSv64 hs hroom (bytesPut_le_ten isVarPut_putSv64 s)
        (((congrArg zigZagDec (ofNat_toNat_self _)).trans (zigZagDec_zigZagEnc _)).trans (opndLow_word64 s))
    · exact getVar_of_putVar isVarPut_putUv32 decodes_getUv64 hs hroom (bytesPut_le_ten isVarPut_putUv32 s)
        (BitVec.ofNat_toNat 64 _)
    · exact getVar_of_putVar isVarPut_putSv32 decodes_getSv64 hs hroom (bytesPut_le_ten isVarPut_putSv32 s)
        (zigZagDec_widened _)
  · rcases Nat.lt_or_ge 5 (bytesPut .putUv64 s) with hlong | hshort
    · obtain ⟨t, u, hput, ht0, hget, hfails⟩ := getVar_malformed_of_putVar isVarPut_putUv64 decodes_getUv32 hs hroom hlong
      exact ⟨t, u, hput, ht0, hget, fun hle => absurd hle hlong.not_ge, fun _ => hfails⟩
    · obtain ⟨t, u, hput, ht0, hget, hreads⟩ := getVar_of_putVar isVarPut_putUv64 decodes_getUv32 hs hroom hshort
        (zext64_ofNat_putNumber s)
      exact ⟨t, u, hput, ht0, hget, fun _ => hreads, fun hlt => absurd hshort hlt.not_ge⟩
  · have hfits := putNumber_putSv64_lt hlow hhigh
    have hvalue : sext64 (zigZagDec (BitVec.ofNat 32 (putNumber .putSv64 s))) = s.opnd :=
      (sext64_zigZagDec_narrowed hfits).trans (opndLow_word64 s)
    exact getVar_of_putVar isVarPut_putSv64 decodes_getSv32 hs hroom (bytesPut_le_five isVarPut_putSv64 hfits) hvalue

end Sys2Proof.Machine
end

section
/-!
SUPPORT. Commands in relation (44_stream.md rule R169; 40_byte_bool.md rule R84; 41_fixed_int.md rules R113, R114;
42_float.md rule R136; 70_reset_and_hazards.md rule R201): when a read fails and what it then answers, a fixed-width PUT
read back, and what every command answers on the reset state.
-/

namespace Sys2Proof.Machine

/-! ### Byte strings -/

/-- One address holds one byte string of a length. -/
theorem bytesAt_unique {m : Memory} {a : Nat} {bs cs : List Byte} (hlen : bs.length = cs.length) (hbs : BytesAt m a bs)
    (hcs : BytesAt m a cs) : bs = cs := by
  have hread := (Memory.readBytes_eq_ok m a bs.length bs).2 ⟨rfl, hbs⟩
  exact Except.ok.inj (hread.symm.trans ((Memory.readBytes_eq_ok m a bs.length cs).2 ⟨hlen.symm, hcs⟩))

/-! ### When a read fails (rules R42, R160, R162) -/

/-- A read of more bytes than remain raises InsufficientData with the two counts. -/
theorem exec_of_short {i : Instr} {s : State} (hi : AsksForBytes i s) (h : s.remaining < bytesAsked i s) :
    exec i s = .next (s.respondRaise (.insufficientData (bytesAsked i s) s.remaining)) := by
  rcases hi with hi | ⟨rfl, hnonneg⟩ | rfl
  · obtain ⟨value, hexec⟩ := exec_of_fixedRead hi s
    rw [bytesAsked_of_fixedRead hi] at h ⊢
    exact hexec.trans (finish_of_raised (take_short h) _)
  · have hlength := opndLength_toNat hnonneg
    have hasked : s.remaining < s.opnd.toNat := h
    exact (exec_getRaw s).trans (finish_of_raised (takeRaw_of_short (by omega) hasked) _)
  · have hnone : s.remaining = 0 := Nat.lt_one_iff.1 h
    rw [hnone]
    exact (exec_getRem s).trans (finish_of_raised (takeRemaining_of_end (Nat.sub_eq_zero_iff_le.1 hnone)) _)

/-- A read fails exactly where fewer bytes remain than it asks for. -/
theorem read_fails_iff {i : Instr} {s : State} (hi : AsksForBytes i s) (hs : s.BufSound) :
    (∃ t, exec i s = .next t ∧ t.status ≠ 0) ↔ s.remaining < bytesAsked i s := by
  refine ⟨fun ⟨t, ht, hfailed⟩ => ?_, fun hshort => ⟨_, exec_of_short hi hshort, by simp [Kind.code]⟩⟩
  by_contra henough
  obtain ⟨v, hv, hv0⟩ := read_of_enough hi hs (not_lt.1 henough)
  obtain rfl := Host.Outcome.next.inj (ht.symm.trans hv)
  exact hfailed hv0

/-- FEOF answers 1 exactly where no byte remains (rule R168). -/
theorem feof_res_one_iff (s : State) : (∃ t, exec .feof s = .next t ∧ t.res = 1) ↔ s.remaining < 1 := by
  have hend : s.remaining < 1 ↔ s.len.toNat ≤ s.off.toNat := Nat.lt_one_iff.trans Nat.sub_eq_zero_iff_le
  simp [exec_feof, hend]

/-- What a read that asks for `n` bytes says and where it leaves OFF, but for GET.REM: the same whatever command it is. -/
theorem read_outcome {i : Instr} {s t : State} (hi : AsksForBytes i s) (hrem : i ≠ .getRem) (hs : s.BufSound)
    (h : exec i s = .next t) :
    (s.remaining < bytesAsked i s → t.status = 1 ∧ t.need = BitVec.ofNat 64 (bytesAsked i s) ∧
      t.have_ = BitVec.ofNat 64 s.remaining ∧ t.off = s.off) ∧
    (bytesAsked i s ≤ s.remaining → t.status = 0 ∧ t.need = 0 ∧ t.have_ = 0 ∧
      t.off.toNat = s.off.toNat + bytesAsked i s) := by
  refine ⟨fun hshort => ?_, fun henough => ?_⟩
  · obtain rfl := Host.Outcome.next.inj (h.symm.trans (exec_of_short hi hshort))
    exact ⟨rfl, rfl, rfl, rfl⟩
  · obtain ⟨v, hv, hv0⟩ := read_of_enough hi hs henough
    obtain rfl := Host.Outcome.next.inj (h.symm.trans hv)
    obtain ⟨hneed, hhave⟩ := (needAndHaveCountTheBytes i s t hs.2 h).2 (by simp [hv0])
    exact ⟨hv0, hneed, hhave, off_of_movesOff hi hrem ((cursorMovesAsListed i s t hs h).1 hv0)⟩

/-! ### GET.RAW of a number of bytes (rule R160) -/

/-- The state with OPND a number of bytes. -/
def State.withLength (s : State) (n : Nat) : State := { s with opnd := BitVec.ofNat 64 n }

theorem bytesAsked_withLength (s : State) {n : Nat} (h : n < 2 ^ 63) : bytesAsked .getRaw (s.withLength n) = n :=
  toNat_ofNat_of_fits (h.trans (by decide))

theorem opndLength_withLength (s : State) {n : Nat} (h : n < 2 ^ 63) : (s.withLength n).opndLength = n := by
  have htoNat : (BitVec.ofNat 64 n).toNat = n := toNat_ofNat_of_fits (h.trans (by decide))
  rw [State.opndLength, State.withLength, BitVec.toInt_eq_toNat_of_lt (by rw [htoNat]; omega), htoNat]

theorem asksForBytes_withLength (s : State) {n : Nat} (h : n < 2 ^ 63) : AsksForBytes .getRaw (s.withLength n) :=
  .inr (.inl ⟨rfl, by rw [opndLength_withLength s h]; exact Int.natCast_nonneg n⟩)

/-- A fixed-width read and GET.RAW of its width succeed or fail alike, and move OFF alike. -/
theorem getRaw_of_fixedRead {i : Instr} {s t u : State} (hs : s.BufSound) (hi : 0 < fixedReadWidth i)
    (ht : exec i s = .next t) (hu : exec .getRaw (s.withLength (fixedReadWidth i)) = .next u) :
    u.status = t.status ∧ u.need = t.need ∧ u.have_ = t.have_ ∧ u.off = t.off := by
  have hwidth : fixedReadWidth i < 2 ^ 63 := (fixedReadWidth_le i).trans_lt (by decide)
  have hrem : i ≠ .getRem := by rintro rfl; exact absurd hi (by decide)
  obtain ⟨htshort, htenough⟩ := read_outcome (.inl hi) hrem hs ht
  obtain ⟨hushort, huenough⟩ := read_outcome (asksForBytes_withLength s hwidth) (by decide) hs hu
  rw [bytesAsked_of_fixedRead hi] at htshort htenough
  rw [bytesAsked_withLength s hwidth] at hushort huenough
  have hremaining : (s.withLength (fixedReadWidth i)).remaining = s.remaining := rfl
  rw [hremaining] at hushort huenough
  rcases Nat.lt_or_ge s.remaining (fixedReadWidth i) with hshort | henough
  · obtain ⟨ht1, ht2, ht3, ht4⟩ := htshort hshort
    obtain ⟨hu1, hu2, hu3, hu4⟩ := hushort hshort
    exact ⟨hu1.trans ht1.symm, hu2.trans ht2.symm, hu3.trans ht3.symm, hu4.trans ht4.symm⟩
  · obtain ⟨ht1, ht2, ht3, ht4⟩ := htenough henough
    obtain ⟨hu1, hu2, hu3, hu4⟩ := huenough henough
    exact ⟨hu1.trans ht1.symm, hu2.trans ht2.symm, hu3.trans ht3.symm, BitVec.eq_of_toNat_eq (hu4.trans ht4.symm)⟩

/-- GET.REM is GET.RAW of the bytes that remain, if any do. -/
theorem getRem_eq_getRaw {s : State} (h : s.off.toNat < s.len.toNat) :
    exec .getRem (s.withLength s.remaining) = exec .getRaw (s.withLength s.remaining) := by
  have hremaining : s.remaining < 2 ^ 63 := (Nat.sub_le _ _).trans_lt (s.len.isLt.trans (by decide))
  have hasked : (s.withLength s.remaining).opnd.toNat = s.remaining := bytesAsked_withLength s hremaining
  have hpos : 0 < (s.withLength s.remaining).opndLength := by
    rw [opndLength_withLength s hremaining]
    exact Int.natCast_pos.2 (Nat.sub_pos_of_lt h)
  have hunread : (s.withLength s.remaining).off.toNat < (s.withLength s.remaining).len.toNat := h
  have hremaining' : (s.withLength s.remaining).remaining = s.remaining := rfl
  rw [exec_getRem, exec_getRaw, takeRemaining_of_unread hunread, hremaining', takeRaw_of_enough hpos hasked.le, hasked]

/-! ### REWIND (rule R164) -/

theorem rewind_eq_setoff {s : State} (h : s.opnd = 0) : exec .rewind s = exec .setoff s := by
  have hzero : s.opnd.toNat = 0 := by simp [h]
  rw [exec_setoff, moveCursor_of_within (by omega), finish_ok, hzero]
  exact exec_rewind s

/-- GETBUF, and GET.REM after REWIND, answer the same bytes. -/
theorem getRem_of_rewind {s : State} (hs : s.BufSound) (h : 0 < s.len.toNat) :
    ∃ t u v, exec .getbuf s = .next t ∧ exec .rewind s = .next u ∧ exec .getRem u = .next v ∧
      v.dout = t.dout ∧ t.off = s.off := by
  obtain ⟨bs, t, hlen, hat, hgetbuf, htoff, ⟨-, -, -, -, htdout⟩, -⟩ := getbuf_readsForward hs.1
  have hrewind := exec_rewind s
  have hrem := (getRemFollowsItsRule.2 _ (exec_bufSound hs hrewind)).2 h
  obtain ⟨cs, v, hlen', hat', hgetRem, ⟨-, ⟨-, -, -, -, hvdout⟩, -⟩, -⟩ := hrem
  exact ⟨t, _, v, hgetbuf, hrewind, hgetRem,
    hvdout.trans ((bytesAt_unique (hlen'.trans hlen.symm) hat' hat).trans htdout.symm), BitVec.eq_of_toNat_eq htoff⟩

/-! ### The statement of 44_stream.md -/

/-- Settles O54: FEOF and the reads of at least one byte all test whether a byte remains; the other relations are between
the checks that two commands make. -/
theorem streamCommandsRelate : Obligations.StreamCommandsRelate := by
  intro s hs
  have hraw := asksForBytes_withLength s (n := 1) (by decide)
  refine ⟨?_, ?_, ?_, fun i t u => getRaw_of_fixedRead hs, getRem_eq_getRaw, rewind_eq_setoff rfl, getRem_of_rewind hs⟩
  · exact (feof_res_one_iff s).trans (read_fails_iff (i := .getRem) (.inr (.inr rfl)) hs).symm
  · exact (feof_res_one_iff s).trans (read_fails_iff (i := .getU8) (.inl Nat.one_pos) hs).symm
  · exact (feof_res_one_iff s).trans (read_fails_iff hraw hs).symm

/-! ### Fixed-width values there and back (rules R12, R90) -/

/-- Of a string put together from the last byte to the first, the first byte is the least significant. -/
theorem uintBe_reverse_cons (b : Byte) (bs : List Byte) : uintBe (b :: bs).reverse = uintBe bs.reverse * 256 + b.toNat := by
  simp [uintBe]

/-- The bytes of a number, least significant first, give the number back, truncated to as many bytes. -/
theorem uintBe_reverse_bytes (n x : Nat) :
    uintBe ((List.range n).map fun i => BitVec.ofNat 8 (x >>> (8 * i))).reverse = x % 2 ^ (8 * n) := by
  induction n generalizing x with
  | zero => simp [uintBe, Nat.mod_one]
  | succ n ih =>
    have hrest : (List.range n).map ((fun i => BitVec.ofNat 8 (x >>> (8 * i))) ∘ Nat.succ) =
        (List.range n).map fun i => BitVec.ofNat 8 ((x / 2 ^ 8) >>> (8 * i)) :=
      List.map_congr_left fun i _ => by
        rw [Function.comp_apply, Nat.mul_succ, Nat.add_comm, Nat.shiftRight_add, Nat.shiftRight_eq_div_pow x 8]
    have hlow : (BitVec.ofNat 8 (x >>> (8 * 0))).toNat = x % 2 ^ 8 := BitVec.toNat_ofNat _ _
    calc uintBe ((List.range (n + 1)).map fun i => BitVec.ofNat 8 (x >>> (8 * i))).reverse
        = x / 2 ^ 8 % 2 ^ (8 * n) * 256 + x % 2 ^ 8 := by
          rw [List.range_succ_eq_map, List.map_cons, List.map_map, uintBe_reverse_cons, hlow, hrest, ih]
      _ = x % 2 ^ (8 * (n + 1)) := by
          rw [Nat.mul_succ 8 n, Nat.add_comm (8 * n) 8, pow_add, Nat.mod_mul]
          ring

theorem fromLe_toLe {n : Nat} (v : BitVec (8 * n)) : fromLe n (toLe n v) = v := by
  have hbytes : uintBe (toLe n v).reverse = v.toNat :=
    (uintBe_reverse_bytes n v.toNat).trans (Nat.mod_eq_of_lt v.isLt)
  rw [fromLe, hbytes, ofNat_toNat_self]

/-- ToBE is ToLE from the last byte to the first. -/
theorem toBe_eq_reverse {n : Nat} (v : BitVec (8 * n)) : toBe n v = (toLe n v).reverse := by
  apply List.ext_getElem
  · simp
  · intro k hk hk'
    simp [toBe, toLe]

theorem fromOrder_toOrder (order : ByteOrder) {n : Nat} (v : BitVec (8 * n)) :
    fromOrder order n (toOrder order n v) = v := by
  cases order with
  | le => exact fromLe_toLe v
  | be =>
    have hle := fromLe_toLe v
    rwa [fromLe, ← toBe_eq_reverse] at hle

/-- A PUT of `n` bytes that fits, from a cursor at the end of BUF, then a GET that takes `n` bytes: the GET answers its
value of the bytes appended. -/
theorem get_of_put {i j : Instr} {s : State} {bs : List Byte} {n : Nat} {value : List Byte → Word64} {r : Word64}
    (hput : exec i s = putBytes bs s)
    (hget : ∀ s, exec j s = finish s (take n s) fun p => p.2.respondOk (value p.1) [])
    (hlen : bs.length = n) (hr : value bs = r) (hs : s.BufSound) (hoff : s.off = s.len)
    (hroom : s.len.toNat + n ≤ s.config.bufcap.val) :
    ∃ t u, exec i s = .next t ∧ t.status = 0 ∧ exec j t = .next u ∧ u.status = 0 ∧ u.res = r ∧ u.off = u.len ∧
      u.len = t.len := by
  subst hlen
  rcases putBytes_cases bs s with ⟨-, hbytes⟩ | ⟨hfull, -⟩
  · have hexec := hput.trans hbytes
    obtain ⟨cs, htake, hcs, hat⟩ := take_enough (n := bs.length) (exec_bufSound hs hexec) (by
      simp only [State.remaining, State.respondOk_len, State.respondOk_off, append_len_toNat hroom, hoff]
      omega)
    have hwritten : BytesAt (s.buf.writeBytes s.len.toNat bs) s.off.toNat bs := by
      rw [hoff]
      exact Memory.bytesAt_writeBytes _ _ _
    obtain rfl : cs = bs := bytesAt_unique hcs hat hwritten
    refine ⟨_, _, hexec, rfl, (hget _).trans (finish_of_ok htake _), rfl, hr, ?_, rfl⟩
    simp only [State.respondOk_len, State.respondOk_off, hoff]
  · omega

/-- PutFix, then GetFix of the width and the byte order: OPND truncated and extended. -/
theorem getFix_of_putFix {i j : Instr} {n : Nat} {order : ByteOrder} {signed : Bool}
    (hput : ∀ s, exec i s = putFix n order s) (hget : ∀ s, exec j s = getFix n order signed s) {s : State} {r : Word64}
    (hr : extend64 signed (s.opndBytes n) = r) (hs : s.BufSound) (hoff : s.off = s.len)
    (hroom : s.len.toNat + n ≤ s.config.bufcap.val) :
    ∃ t u, exec i s = .next t ∧ t.status = 0 ∧ exec j t = .next u ∧ u.status = 0 ∧ u.res = r ∧ u.off = u.len ∧
      u.len = t.len :=
  get_of_put (value := fun bs => extend64 signed (fromOrder order n bs)) (hput s) hget (toOrder_length order n _)
    ((congrArg (extend64 signed) (fromOrder_toOrder order _)).trans hr) hs hoff hroom

/-- The same for 64 bits: OPND as it is. -/
theorem extend64_opndBytes_eight (signed : Bool) (s : State) : extend64 signed (s.opndBytes 8) = s.opnd :=
  (extend64_word64 signed _).trans (BitVec.setWidth_eq s.opnd)

theorem putBool_byte (s : State) :
    (if fromBe 1 [if s.opndTruth then (0x01 : Byte) else 0x00] = 0 then (0 : Word64) else 1) =
      if s.opnd = 0 then 0 else 1 := by
  by_cases hzero : s.opnd = 0 <;> simp [State.opndTruth, hzero]

/-- Settles O57: every pair but the first two is PutFix and GetFix of one width and byte order. -/
theorem fixedWidthRoundTrip : Obligations.FixedWidthRoundTrip := by
  intro x hx s hs hoff hroom
  simp only [List.mem_cons, List.not_mem_nil, or_false] at hx
  rcases hx with rfl | rfl | rfl | rfl | rfl | rfl | rfl | rfl | rfl | rfl | rfl | rfl | rfl | rfl | rfl | rfl | rfl |
    rfl | rfl | rfl
  · exact get_of_put (value := fun bs => zext64 (fromBe 1 bs)) (exec_put8 s) exec_getU8 rfl
      (congrArg zext64 (fromBe_singleton _)) hs hoff hroom
  · exact get_of_put (value := fun bs => if fromBe 1 bs = 0 then 0 else 1) (exec_putBool s) exec_getBool rfl
      (putBool_byte s) hs hoff hroom
  · exact getFix_of_putFix (n := 2) (order := .be) (signed := false) (fun _ => rfl) (fun _ => rfl) rfl hs hoff hroom
  · exact getFix_of_putFix (n := 2) (order := .be) (signed := true) (fun _ => rfl) (fun _ => rfl) rfl hs hoff hroom
  · exact getFix_of_putFix (n := 2) (order := .le) (signed := false) (fun _ => rfl) (fun _ => rfl) rfl hs hoff hroom
  · exact getFix_of_putFix (n := 2) (order := .le) (signed := true) (fun _ => rfl) (fun _ => rfl) rfl hs hoff hroom
  · exact getFix_of_putFix (n := 3) (order := .be) (signed := false) (fun _ => rfl) (fun _ => rfl) rfl hs hoff hroom
  · exact getFix_of_putFix (n := 3) (order := .le) (signed := false) (fun _ => rfl) (fun _ => rfl) rfl hs hoff hroom
  · exact getFix_of_putFix (n := 4) (order := .be) (signed := false) (fun _ => rfl) (fun _ => rfl) rfl hs hoff hroom
  · exact getFix_of_putFix (n := 4) (order := .be) (signed := true) (fun _ => rfl) (fun _ => rfl) rfl hs hoff hroom
  · exact getFix_of_putFix (n := 4) (order := .le) (signed := false) (fun _ => rfl) (fun _ => rfl) rfl hs hoff hroom
  · exact getFix_of_putFix (n := 4) (order := .le) (signed := true) (fun _ => rfl) (fun _ => rfl) rfl hs hoff hroom
  · exact getFix_of_putFix (n := 8) (order := .be) (signed := false) (fun _ => rfl) (fun _ => rfl) (extend64_opndBytes_eight false s) hs hoff hroom
  · exact getFix_of_putFix (n := 8) (order := .be) (signed := true) (fun _ => rfl) (fun _ => rfl) (extend64_opndBytes_eight true s) hs hoff hroom
  · exact getFix_of_putFix (n := 8) (order := .le) (signed := false) (fun _ => rfl) (fun _ => rfl) (extend64_opndBytes_eight false s) hs hoff hroom
  · exact getFix_of_putFix (n := 8) (order := .le) (signed := true) (fun _ => rfl) (fun _ => rfl) (extend64_opndBytes_eight true s) hs hoff hroom
  · exact getFix_of_putFix (n := 4) (order := .be) (signed := false) (fun _ => rfl) (fun _ => rfl) rfl hs hoff hroom
  · exact getFix_of_putFix (n := 4) (order := .le) (signed := false) (fun _ => rfl) (fun _ => rfl) rfl hs hoff hroom
  · exact getFix_of_putFix (n := 8) (order := .be) (signed := false) (fun _ => rfl) (fun _ => rfl) (extend64_opndBytes_eight false s) hs hoff hroom
  · exact getFix_of_putFix (n := 8) (order := .le) (signed := false) (fun _ => rfl) (fun _ => rfl) (extend64_opndBytes_eight false s) hs hoff hroom

end Sys2Proof.Machine
end

section
/-!
SUPPORT. Every command on the reset state (70_reset_and_hazards.md rule R201): BUF is empty, so that no byte remains to a
read, no sequence stands at the cursor, and a PUT has all of BUFCAP.
-/

namespace Sys2Proof.Machine

/-! ### The reset state with a command's inputs -/

section
variable (cfg : Config) (o : Word64) (p : List Byte)

@[simp] theorem State.resetWith_opnd : (State.resetWith cfg o p).opnd = o := rfl
@[simp] theorem State.resetWith_pay : (State.resetWith cfg o p).pay = p := rfl
@[simp] theorem State.resetWith_config : (State.resetWith cfg o p).config = cfg := rfl
@[simp] theorem State.resetWith_len_toNat : (State.resetWith cfg o p).len.toNat = 0 := rfl

theorem resetWith_bufSound : (State.resetWith cfg o p).BufSound := ⟨rfl, Nat.le_refl 0, Nat.zero_le _⟩

/-- No sequence stands at the cursor of an empty buffer. -/
theorem not_sequenceAtCursor_resetWith (maxB k : Nat) : ¬ SequenceAtCursor (State.resetWith cfg o p) maxB k :=
  fun ⟨_, hlen, _⟩ => Nat.not_lt_zero k hlen

end

/-! ### Commands in the terms of the claims -/

/-- A read of more bytes than remain, in the terms of the claims. -/
theorem exec_fails_of_short {i : Instr} {s : State} (hi : AsksForBytes i s) (h : s.remaining < bytesAsked i s) :
    ∃ t, exec i s = .next t ∧ Fails s t 1 (bytesAsked i s) s.remaining :=
  ⟨_, exec_of_short hi h, fails_insufficientData s _ _⟩

/-- A variable-length read where no sequence stands, in the terms of the claims. -/
theorem varRead_fails_of_no_sequence {i : Instr} {s : State} (hi : 0 < varReadLimit i) (hs : s.BufBacked)
    (h : ∀ k, ¬ SequenceAtCursor s (varReadLimit i) k) : ∃ t, exec i s = .next t ∧ Fails s t 2 0 0 := by
  obtain ⟨w, value, hexec⟩ := exec_varRead hi
  exact ⟨_, (hexec s).trans (finish_of_raised (varDec_of_no_sequence hs h) _),
    fails_respondRaise s (e := .malformedVarint) (by decide)⟩

/-- A PUT that fits, in the terms of the claims. -/
theorem put_appends {i : Instr} {s : State} (hi : isPut i = true) (h : s.len.toNat + bytesPut i s ≤ s.config.bufcap.val) :
    ∃ t bs, exec i s = .next t ∧ bs.length = bytesPut i s ∧ Appends s t bs := by
  rw [← putString_length hi] at h ⊢
  rcases putBytes_cases (putString i s) s with ⟨-, hput⟩ | ⟨hfull, -⟩
  · exact ⟨_, _, (exec_put hi s).trans hput, rfl, appends_respondOk h⟩
  · omega

/-- A PUT that does not fit, in the terms of the claims. -/
theorem put_fails_of_full {i : Instr} {s : State} (hi : isPut i = true)
    (h : s.config.bufcap.val < s.len.toNat + bytesPut i s) : ∃ t, exec i s = .next t ∧ Fails s t 5 0 0 := by
  rw [← putString_length hi] at h
  rcases putBytes_cases (putString i s) s with ⟨hfits, -⟩ | ⟨-, hput⟩
  · omega
  · exact ⟨_, (exec_put hi s).trans hput, fails_respondRaise s (e := .capacity) (by decide)⟩

/-! ### The statement of 70_reset_and_hazards.md section 1 -/

theorem asksForBytes_on_reset {i : Instr} {cfg : Config} {o : Word64} {p : List Byte}
    (hi : 0 < fixedReadWidth i ∨ i = .getRem ∨ (i = .getRaw ∧ 0 < o.toInt)) :
    AsksForBytes i (State.resetWith cfg o p) ∧ 0 < bytesAsked i (State.resetWith cfg o p) := by
  rcases hi with hi | rfl | ⟨rfl, hpos⟩
  · exact ⟨.inl hi, by rwa [bytesAsked_of_fixedRead hi]⟩
  · exact ⟨.inr (.inr rfl), Nat.one_pos⟩
  · have hlength : (State.resetWith cfg o p).opndLength = o.toInt := rfl
    have hasked := opndLength_toNat (hlength ▸ hpos.le)
    refine ⟨.inr (.inl ⟨rfl, hpos.le⟩), ?_⟩
    change 0 < (State.resetWith cfg o p).opnd.toNat
    omega

/-- Settles O59: each clause is a branch of its commands' checks, decided by LEN = OFF = 0. -/
theorem everyCommandRunsFromReset : Obligations.EveryCommandRunsFromReset := by
  intro cfg o p
  have hs := resetWith_bufSound cfg o p
  have hraw := getRawFollowsItsRule.2 _ hs
  obtain ⟨⟨u, hrewind, huoff, hu⟩, hbeyond, hwithin⟩ := cursorCommandsFollowTheirRules.2.2 (State.resetWith cfg o p)
  obtain ⟨hgetoff, hgetbuf, hfeof⟩ := inspectingCommandsFollowTheirRules.2.2.2 (State.resetWith cfg o p)
  obtain ⟨hoffset, hfull, hfits⟩ := constructFollowsItsRule.2 (State.resetWith cfg o p)
  refine ⟨fun i hi => ?short, fun i hi => ?malformed, fun i hi => ?zero, fun i hi => ?argument, fun x hx => ?inspect,
    fun i hi hroom => ?put, fun i hi => ?capacity, fun hin hroom => ?construct⟩
  case short =>
    obtain ⟨hasks, hpos⟩ := asksForBytes_on_reset hi
    exact exec_fails_of_short hasks hpos
  case malformed => exact varRead_fails_of_no_sequence hi hs.1 (not_sequenceAtCursor_resetWith cfg o p _)
  case zero =>
    obtain ⟨rfl | rfl, rfl⟩ := hi
    · exact hraw.2.1 rfl
    · obtain ⟨t, hexec, hoff, ht⟩ := hwithin (Nat.le_refl 0)
      exact ⟨t, hexec, hoff, ht⟩
  case argument =>
    rcases hi with ⟨rfl, hneg⟩ | ⟨rfl, hne⟩ | ⟨rfl, hlt⟩
    · exact hraw.1 hneg
    · exact hbeyond (Nat.pos_of_ne_zero fun hzero => hne (BitVec.eq_of_toNat_eq hzero))
    · exact hoffset hlt
  case inspect =>
    simp only [List.mem_cons, List.not_mem_nil, or_false] at hx
    rcases hx with rfl | rfl | rfl | rfl
    · exact hgetoff
    · obtain ⟨bs, t, hlen, -, hexec, hreads⟩ := hgetbuf hs.1
      obtain rfl := List.eq_nil_of_length_eq_zero hlen
      exact ⟨t, hexec, hreads⟩
    · exact hfeof
    · exact ⟨u, hrewind, congrArg BitVec.toNat huoff, hu⟩
  case put => exact put_appends hi (by simpa using hroom)
  case capacity =>
    rcases hi with ⟨hi, hover⟩ | ⟨rfl, hin, hover⟩
    · exact put_fails_of_full hi (by simpa using hover)
    · exact hfull hin hover
  case construct =>
    obtain ⟨t, hexec, hlen, hoff, hat, -, ht⟩ := hfits hin hroom
    exact ⟨t, hexec, hlen, hoff, hat, ht⟩

end Sys2Proof.Machine
end

section
/-!
SUPPORT. What the rounded float read gives (42_float.md rules R134, R135): the fields of the patterns that it makes, its sign
bit, its exponent range, and that it is exact where no digit is cut off.
-/

namespace Sys2Proof.Machine

/-- Settles O37: `rne64` is what the rule's lines make of any positive quotient. -/
theorem rne64FollowsItsRule : Obligations.Rne64FollowsItsRule :=
  fun _ _ hnum hden _ _ => isRne64_rne64 hnum hden

/-! ### The fields of a binary64 pattern (rule R122) -/

/-- A sign bit in front changes none of the other 63 bits. -/
theorem extractLsb'_withSign64 (sign : BitVec 1) (v : Word64) {start len : Nat} (h : start + len ≤ 63) :
    (withSign64 sign v).extractLsb' start len = v.extractLsb' start len := by
  have hlow : (withSign64 sign v).extractLsb' start len = (v.extractLsb' 0 63).extractLsb' start len :=
    BitVec.extractLsb'_append_eq_of_add_le h
  rw [hlow, BitVec.extractLsb'_extractLsb'_of_le h]

theorem msb_withSign64 (sign : BitVec 1) (v : Word64) : (withSign64 sign v).msb = sign.msb := BitVec.msb_append

theorem absValue64_withSign64 (sign : BitVec 1) (v : Word64) : absValue64 (withSign64 sign v) = absValue64 v := by
  simp only [absValue64, extractLsb'_withSign64 sign v (start := 52) (len := 11) (by decide),
    extractLsb'_withSign64 sign v (start := 0) (len := 52) (by decide)]

theorem expField_pack64 {e : ℤ} (hlow : -1022 ≤ e) (hhigh : e ≤ 1023) (n : Nat) :
    (((pack64 e n).extractLsb' 52 11).toNat : ℤ) = e + 1023 := by
  have hfield : (pack64 e n).extractLsb' 52 11 = BitVec.ofInt 11 (e + 1023) :=
    (BitVec.extractLsb'_append_eq_of_add_le (by decide)).trans BitVec.extractLsb'_append_eq_left
  rw [hfield, BitVec.toNat_ofInt]
  omega

theorem fracField_pack64 (e : ℤ) {n : Nat} (hn : n < 2 ^ 53) :
    ((pack64 e n).extractLsb' 0 52).toNat = n - 2 ^ 52 := by
  have hfield : (pack64 e n).extractLsb' 0 52 = BitVec.ofNat 52 (n - 2 ^ 52) :=
    (BitVec.extractLsb'_append_eq_of_add_le (by decide)).trans BitVec.extractLsb'_append_eq_right
  rw [hfield]
  exact toNat_ofNat_of_fits (by omega)

/-- The number of a normal pattern. -/
theorem absValue64_pack64 {e : ℤ} {n : Nat} (hlow : -1022 ≤ e) (hhigh : e ≤ 1023) (hn : 2 ^ 52 ≤ n) (hn' : n < 2 ^ 53) :
    absValue64 (pack64 e n) = n * 2 ^ (e - 52) := by
  have hexp := expField_pack64 hlow hhigh n
  rw [absValue64, if_neg (by omega), hexp, fracField_pack64 e hn', Nat.cast_sub hn]
  have hshift : e + 1023 - 1075 = e - 52 := by ring
  rw [hshift]
  push_cast
  ring

/-! ### The sign (rule R135) -/

theorem msb_signBit32 (w : BitVec 32) : (signBit32 w).msb = w.msb := by
  simp [signBit32, BitVec.msb, BitVec.getMsbD]

/-- NaN apart, the result has the input's sign bit. -/
theorem msb_roundDec32_of_not_nan {w : BitVec 32} (tie : TieRule) (p : Nat) (h : expField32 w = 255 → fracField32 w = 0) :
    (roundDec32 tie w p).msb = w.msb := by
  by_cases he : expField32 w = 255
  · rw [roundDec32_infinity tie p he (h he), msb_withSign64, msb_signBit32]
  · by_cases hq : roundedInteger tie w p = 0
    · rw [roundDec32_zero he hq, msb_withSign64, msb_signBit32]
    · rw [roundDec32_pos he hq, msb_withSign64, msb_signBit32]

/-- Settles O38: the one quiet NaN has sign bit 0, and every other result is a pattern under the input's sign bit. -/
theorem roundedReadKeepsTheSign : Obligations.RoundedReadKeepsTheSign := by
  intro tie w p
  rw [← Bool.decide_and]
  by_cases hnan : (w.extractLsb' 23 8).toNat = 255 ∧ w.extractLsb' 0 23 ≠ 0
  · obtain ⟨he, hm⟩ := hnan
    rw [decide_eq_true ⟨he, hm⟩, roundDec32_nan tie p he (mt (fracField32_eq_zero_iff w).1 hm), Bool.not_true,
      Bool.and_false]
    rfl
  · rw [decide_eq_false hnan, Bool.not_false, Bool.and_true]
    rw [not_and_not_right] at hnan
    exact msb_roundDec32_of_not_nan tie p fun he => (fracField32_eq_zero_iff w).2 (hnan he)

/-! ### Powers of two as bounds of the exponent E (rule R134) -/

theorem two_zpow_lt_iff {a b : ℤ} : (2 : ℚ) ^ a < 2 ^ b ↔ a < b := zpow_lt_zpow_iff_right₀ one_lt_two

theorem le_floorLog2 {num den : Nat} (hnum : 0 < num) (hden : 0 < den) {a : ℤ} (h : (2 : ℚ) ^ a ≤ (num : ℚ) / den) :
    a ≤ floorLog2 num den :=
  Int.lt_add_one_iff.1 (two_zpow_lt_iff.1 (h.trans_lt (floorLog2_spec hnum hden).2))

theorem floorLog2_lt {num den : Nat} (hnum : 0 < num) (hden : 0 < den) {b : ℤ} (h : (num : ℚ) / den < 2 ^ b) :
    floorLog2 num den < b :=
  two_zpow_lt_iff.1 ((floorLog2_spec hnum hden).1.trans_lt h)

/-! ### The significand (rule R134) -/

theorem roundHalfEven_le (y : ℚ) : roundHalfEven y ≤ ⌊y⌋ + 1 := by
  unfold roundHalfEven
  split <;> omega

theorem roundHalfEven_natCast (n : ℕ) : roundHalfEven n = n := by
  simp [roundHalfEven]

/-- The quotient in units of its last significand bit lies below 2^53. -/
theorem scaled_lt {num den : Nat} (hnum : 0 < num) (hden : 0 < den) :
    (num : ℚ) / den / 2 ^ (floorLog2 num den - 52) < 2 ^ 53 := by
  rw [div_lt_iff₀ (zpow_pos two_pos _), ← zpow_natCast, ← zpow_add₀ two_ne_zero]
  refine (floorLog2_spec hnum hden).2.trans_eq ?_
  congr 1
  push_cast
  ring

theorem significand64_le {num den : Nat} (hnum : 0 < num) (hden : 0 < den) :
    significand64 num den (floorLog2 num den) ≤ 2 ^ 53 := by
  have hfloor : ⌊(num : ℚ) / den / 2 ^ (floorLog2 num den - 52)⌋ < 2 ^ 53 :=
    Int.floor_lt.2 (by exact_mod_cast scaled_lt hnum hden)
  have hround := roundHalfEven_le ((num : ℚ) / den / 2 ^ (floorLog2 num den - 52))
  rw [← significand64_eq_roundHalfEven num hden] at hround
  omega

/-- The pattern that `rne64` packs: E, or one more where the rounding carries, and a significand with its leading bit. -/
theorem rne64_eq_pack64 {num den : Nat} (hnum : 0 < num) (hden : 0 < den) :
    ∃ e n, rne64 num den = pack64 e n ∧ floorLog2 num den ≤ e ∧ e ≤ floorLog2 num den + 1 ∧ 2 ^ 52 ≤ n ∧ n < 2 ^ 53 := by
  have hlow := le_significand64 hden (floorLog2_spec hnum hden).1
  have hhigh := significand64_le hnum hden
  unfold rne64
  split
  · exact ⟨_, _, rfl, by omega, le_rfl, le_rfl, by decide⟩
  · exact ⟨_, _, rfl, le_rfl, by omega, hlow, by omega⟩

/-- `rne64` is exact on a quotient of the normal range with a significand of 53 bits or fewer. -/
theorem absValue64_rne64_of_dyadic {num den m : Nat} {j : ℤ} (hnum : 0 < num) (hden : 0 < den)
    (hx : (num : ℚ) / den = m * 2 ^ j) (hm : m < 2 ^ 53) (hlow : -1022 ≤ floorLog2 num den)
    (hhigh : floorLog2 num den ≤ 1023) : absValue64 (rne64 num den) = (num : ℚ) / den := by
  obtain ⟨hE, -⟩ := floorLog2_spec hnum hden
  have hunit : floorLog2 num den - 52 ≤ j := by
    have hm' : (m : ℚ) < 2 ^ (53 : ℤ) := by exact_mod_cast hm
    have hlt : (2 : ℚ) ^ floorLog2 num den < 2 ^ (53 + j) := by
      rw [zpow_add₀ two_ne_zero]
      exact (hE.trans_eq hx).trans_lt (mul_lt_mul_of_pos_right hm' (zpow_pos two_pos j))
    have := two_zpow_lt_iff.1 hlt
    omega
  obtain ⟨d, hd⟩ := Int.eq_ofNat_of_zero_le (sub_nonneg.2 hunit)
  have hscaled : (num : ℚ) / den / 2 ^ (floorLog2 num den - 52) = (m * 2 ^ d : ℕ) := by
    rw [hx, mul_div_assoc, ← zpow_sub₀ two_ne_zero, hd, zpow_natCast]
    push_cast
    rfl
  have hsig : significand64 num den (floorLog2 num den) = m * 2 ^ d := by
    have hround := significand64_eq_roundHalfEven num hden (floorLog2 num den)
    rw [hscaled, roundHalfEven_natCast] at hround
    exact_mod_cast hround
  have hlead : 2 ^ 52 ≤ m * 2 ^ d := hsig ▸ le_significand64 hden hE
  have hbits : m * 2 ^ d < 2 ^ 53 := by
    have hlt := scaled_lt hnum hden
    rw [hscaled] at hlt
    exact_mod_cast hlt
  rw [rne64, hsig, if_neg hbits.ne, absValue64_pack64 hlow hhigh hlead hbits, ← hscaled,
    div_mul_cancel₀ _ (zpow_pos two_pos _).ne']

/-! ### Finite binary32 values (rule R121) -/

/-- |x| of a finite pattern is a significand of 24 bits in units of a power of two. -/
theorem absValue32_dyadic {w : BitVec 32} (he : expField32 w ≠ 255) :
    ∃ (m : ℕ) (j : ℤ), absValue32 w = m * 2 ^ j ∧ m < 2 ^ 24 ∧ -149 ≤ j ∧ j ≤ 104 := by
  have hfrac : (w.extractLsb' 0 23).toNat < 2 ^ 23 := BitVec.isLt _
  have hexp : (w.extractLsb' 23 8).toNat < 256 := BitVec.isLt _
  have hne : (w.extractLsb' 23 8).toNat ≠ 255 := he
  unfold absValue32
  split
  · exact ⟨_, _, rfl, by omega, le_rfl, by decide⟩
  · refine ⟨2 ^ 23 + (w.extractLsb' 0 23).toNat, ((w.extractLsb' 23 8).toNat : ℤ) - 150, ?_, by omega, by omega, by omega⟩
    push_cast
    rfl

theorem absValue32_lt {w : BitVec 32} (he : expField32 w ≠ 255) : absValue32 w < 2 ^ (128 : ℤ) := by
  obtain ⟨m, j, hx, hm, -, hj⟩ := absValue32_dyadic he
  have hm' : (m : ℚ) < 2 ^ (24 : ℤ) := by exact_mod_cast hm
  calc absValue32 w = m * 2 ^ j := hx
    _ < 2 ^ (24 : ℤ) * 2 ^ j := mul_lt_mul_of_pos_right hm' (zpow_pos two_pos j)
    _ = 2 ^ (24 + j) := (zpow_add₀ two_ne_zero _ _).symm
    _ ≤ 2 ^ (128 : ℤ) := zpow_le_zpow_right₀ one_le_two (by omega)

/-- A positive finite value is no smaller than the unit of the subnormal ones. -/
theorem le_absValue32 {w : BitVec 32} (he : expField32 w ≠ 255) (hpos : absValue32 w ≠ 0) :
    (2 : ℚ) ^ (-149 : ℤ) ≤ absValue32 w := by
  obtain ⟨m, j, hx, -, hj, -⟩ := absValue32_dyadic he
  have hm : (1 : ℚ) ≤ m := by
    have hne : m ≠ 0 := by rintro rfl; simp [hx] at hpos
    exact_mod_cast Nat.one_le_iff_ne_zero.2 hne
  calc (2 : ℚ) ^ (-149 : ℤ) ≤ 2 ^ j := zpow_le_zpow_right₀ one_le_two hj
    _ ≤ m * 2 ^ j := le_mul_of_one_le_left (zpow_pos two_pos j).le hm
    _ = absValue32 w := hx.symm

/-! ### Rounding to an integer (rule R133) -/

/-- Either tie rule gives an integer at most one half away. -/
theorem abs_sub_le_of_roundsTo {tie : TieRule} {y : ℚ} {q : ℕ} (h : RoundsTo tie y q) : |y - q| ≤ 1 / 2 := by
  cases tie with
  | away =>
    have hfloor := Int.floor_eq_iff.1 (Eq.symm h)
    push_cast at hfloor
    obtain ⟨hle, hlt⟩ := hfloor
    exact abs_le.2 ⟨by linarith, by linarith⟩
  | even => exact h.1

theorem abs_sub_roundedInteger_le (tie : TieRule) (w : BitVec 32) (p : Nat) :
    |absValue32 w * 10 ^ p - roundedInteger tie w p| ≤ 1 / 2 :=
  abs_sub_le_of_roundsTo (roundsTo_roundedInteger tie w p)

/-- An integer is rounded to itself. -/
theorem roundedInteger_of_eq_natCast {tie : TieRule} {w : BitVec 32} {p k : ℕ} (h : absValue32 w * 10 ^ p = k) :
    roundedInteger tie w p = k := by
  have hdist := abs_sub_roundedInteger_le tie w p
  rw [h] at hdist
  have hint : |(k : ℤ) - roundedInteger tie w p| < 1 := by
    have hlt : |(k : ℚ) - roundedInteger tie w p| < 1 := hdist.trans_lt (by norm_num)
    exact_mod_cast hlt
  have hzero := Int.abs_lt_one_iff.1 hint
  omega

/-! ### The rounded read is exact on integers (rule R135) -/

/-- Where no digit of x * 10^p is cut off the result is x. -/
theorem absValue64_roundDec32 {tie : TieRule} {w : BitVec 32} {p k : ℕ} (he : expField32 w ≠ 255)
    (hk : absValue32 w * 10 ^ p = k) : absValue64 (roundDec32 tie w p) = absValue32 w := by
  have hten : (0 : ℚ) < 10 ^ p := by positivity
  have hq := roundedInteger_of_eq_natCast (tie := tie) hk
  rcases Nat.eq_zero_or_pos k with rfl | hpos
  · rw [roundDec32_zero he hq, absValue64_withSign64]
    have hx : absValue32 w = 0 := by simpa [hten.ne'] using hk
    rw [hx]
    simp [absValue64]
  · have hden : 0 < 10 ^ p := Nat.pow_pos (by decide)
    have hx : (k : ℚ) / (10 ^ p : ℕ) = absValue32 w := by
      rw [← hk, Nat.cast_pow]
      exact mul_div_cancel_right₀ _ hten.ne'
    have hne : absValue32 w ≠ 0 := by
      rw [← hx]
      positivity
    obtain ⟨m, j, hdyadic, hm, -, -⟩ := absValue32_dyadic he
    have hlow := le_floorLog2 hpos hden ((le_absValue32 he hne).trans_eq hx.symm)
    have hhigh := floorLog2_lt hpos hden (hx.trans_lt (absValue32_lt he))
    rw [roundDec32_pos he (by omega), hq, absValue64_withSign64,
      absValue64_rne64_of_dyadic hpos hden (hx.trans hdyadic) (by omega) (by omega) (by omega), hx]

/-- Ten to the p has the factors of two that x lacks. -/
theorem natCast_of_dyadic {x : ℚ} {m p : ℕ} {j : ℤ} (hx : x = m * 2 ^ j) (h : 0 ≤ j + p) :
    ∃ k : ℕ, x * 10 ^ p = k := by
  obtain ⟨d, hd⟩ := Int.eq_ofNat_of_zero_le h
  refine ⟨m * 5 ^ p * 2 ^ d, ?_⟩
  have htwo : (2 : ℚ) ^ j * 2 ^ p = 2 ^ d := by
    rw [← zpow_natCast, ← zpow_natCast, ← zpow_add₀ two_ne_zero, hd]
  have hten : (10 : ℚ) ^ p = 2 ^ p * 5 ^ p := by rw [← mul_pow]; norm_num
  rw [hx, hten]
  push_cast
  rw [← htwo]
  ring

/-- A value of 2^23 or more is in units of 1 or more. -/
theorem nonneg_of_dyadic {x : ℚ} {m : ℕ} {j : ℤ} (hx : x = m * 2 ^ j) (hm : m < 2 ^ 24) (h : 2 ^ 23 ≤ x) : 0 ≤ j := by
  have hm' : (m : ℚ) < 2 ^ (24 : ℤ) := by exact_mod_cast hm
  have hlt : (2 : ℚ) ^ (23 : ℤ) < 2 ^ (24 + j) := by
    rw [zpow_add₀ two_ne_zero]
    refine lt_of_le_of_lt ?_ (mul_lt_mul_of_pos_right hm' (zpow_pos two_pos j))
    rw [← hx]
    exact_mod_cast h
  have := two_zpow_lt_iff.1 hlt
  omega

/-- Settles O39: q is x * 10^p itself, and the quotient by 10^p, which is x, has 24 significant bits. -/
theorem roundedReadIsExactOnIntegers : Obligations.RoundedReadIsExactOnIntegers := by
  intro tie w p _ he
  refine ⟨fun ⟨k, hk⟩ => absValue64_roundDec32 he hk, fun h => ?_⟩
  obtain ⟨m, j, hx, hm, hj, -⟩ := absValue32_dyadic he
  rcases h with hp | ⟨rfl, hbig⟩
  · exact natCast_of_dyadic hx (by omega)
  · exact natCast_of_dyadic hx (by have := nonneg_of_dyadic hx hm hbig; omega)

/-! ### The rounded read is zero or normal (rule R134) -/

/-- A positive integer over 10^p, for a precision that fits ARG, is not too small. -/
theorem le_div_ten_pow {p q : ℕ} (hp : p < 256) (hq : 0 < q) : (2 : ℚ) ^ (-1022 : ℤ) ≤ (q : ℚ) / (10 ^ p : ℕ) := by
  have hten : (10 : ℚ) ^ p ≤ 2 ^ (1022 : ℕ) :=
    calc (10 : ℚ) ^ p ≤ 16 ^ p := pow_le_pow_left₀ (by norm_num) (by norm_num) p
      _ = 2 ^ (4 * p) := by rw [pow_mul]; norm_num
      _ ≤ 2 ^ 1022 := pow_le_pow_right₀ one_le_two (by omega)
  have hone : (1 : ℚ) ≤ q := by exact_mod_cast hq
  rw [Nat.cast_pow, zpow_neg, ← one_div]
  exact div_le_div₀ (by positivity) hone (by positivity) (by exact_mod_cast hten)

/-- The quotient that RoundDec32 rounds to binary64 is at most one half more than x. -/
theorem roundedInteger_div_lt {w : BitVec 32} (tie : TieRule) (p : ℕ) (he : expField32 w ≠ 255) :
    (roundedInteger tie w p : ℚ) / (10 ^ p : ℕ) < 2 ^ (129 : ℤ) := by
  have hten : (1 : ℚ) ≤ 10 ^ p := one_le_pow₀ (by norm_num)
  have hdist := (abs_le.1 (abs_sub_roundedInteger_le tie w p)).1
  have hx := absValue32_lt he
  have hq : (roundedInteger tie w p : ℚ) ≤ (absValue32 w + 1 / 2) * 10 ^ p := by
    rw [add_mul]
    linarith
  rw [Nat.cast_pow, Nat.cast_ofNat]
  calc (roundedInteger tie w p : ℚ) / 10 ^ p ≤ absValue32 w + 1 / 2 := (div_le_iff₀ (by positivity)).2 hq
    _ < 2 ^ (128 : ℤ) + 2 ^ (128 : ℤ) := add_lt_add hx (by norm_num)
    _ = 2 ^ (129 : ℤ) := by norm_num

/-- The quotient that RoundDec32 rounds to binary64 lies well inside the normal range. -/
theorem floorLog2_roundedInteger {tie : TieRule} {w : BitVec 32} {p : ℕ} (hp : p < 256) (he : expField32 w ≠ 255)
    (hq : 0 < roundedInteger tie w p) :
    -1022 ≤ floorLog2 (roundedInteger tie w p) (10 ^ p) ∧ floorLog2 (roundedInteger tie w p) (10 ^ p) < 129 := by
  have hden : 0 < 10 ^ p := Nat.pow_pos (by decide)
  exact ⟨le_floorLog2 hq hden (le_div_ten_pow hp hq), floorLog2_lt hq hden (roundedInteger_div_lt tie p he)⟩

/-- Settles O40: the exponent E, and E + 1 where the rounding carries, stay within the normal range. -/
theorem roundedReadIsZeroOrNormal : Obligations.RoundedReadIsZeroOrNormal := by
  intro tie w p hp he
  rcases Nat.eq_zero_or_pos (roundedInteger tie w p) with hq | hq
  · left
    rw [roundDec32_zero he hq, extractLsb'_withSign64 _ _ (by decide)]
    rfl
  · right
    obtain ⟨hlow, hhigh⟩ := floorLog2_roundedInteger hp he hq
    obtain ⟨e, n, hpack, hle, hge, -⟩ := rne64_eq_pack64 hq (Nat.pow_pos (n := p) (by decide : 0 < 10))
    have hfield := expField_pack64 (e := e) (by omega) (by omega) n
    rw [roundDec32_pos he hq.ne', extractLsb'_withSign64 _ _ (by decide), hpack]
    omega

end Sys2Proof.Machine
end
